-- ==== Sys2Proof/Word.lean ====
section
/-! DEFINITION. The bit-vector widths of the block (00_scope.md R7, R9) and the presence-bit-and-value pair in which
the spec lists every optional field of a record or latch. -/

namespace Sys2Proof

/-- A register, a data-memory cell, a data address, an immediate and a slot index are all 64 bits wide (R7; D1 to D4).
`+`, `-` and `*` on it are modulo 2^64 (R9). -/
abbrev Word := BitVec 64

/-- A register index as a record carries it: 6 bits, 0 to 63; 32 to 63 are representable and out of range (R7, R91). -/
abbrev RegIdx := BitVec 6

/-- A packed instruction record, `{IMM[63:0], H[31:0]}` (30_encoding.md R85). -/
abbrev PackedWord := BitVec 96

/-- An optional field: its presence bit and its value bits (R11: `rd?` and `rd`). The value bits exist whether or not
the presence bit is set: the spec lists the two side by side ("1, 6", "1, 64", R34 to R36), and rules such as
`x[MEMWB.rd] <- v` (R203) read the value without testing the bit. -/
structure Opt (α : Type) where
  present : Bool
  value   : α
  deriving DecidableEq, Repr

/-- A present field. -/
def Opt.of {α : Type} (v : α) : Opt α := ⟨true, v⟩

/-- An absent field, its don't-care value bits written as 0 (R85: "An encoder writes 0 in every don't-care bit"). -/
def Opt.absent {w : Nat} : Opt (BitVec w) := ⟨false, 0#w⟩

/-- The field's value if it is present. -/
def Opt.toOption {α : Type} (f : Opt α) : Option α := if f.present then some f.value else none

/-- A field from an option: `none` is the absent field. -/
def Opt.ofOption {w : Nat} : Option (BitVec w) → Opt (BitVec w)
  | some v => Opt.of v
  | none   => Opt.absent

end Sys2Proof
end

