-- ==== Sys2Proof/Config.lean ====
section
/-! DEFINITION. The fixed parameters of this hardware (00_scope.md R7) and the values the spec's decisions fix
(92_eei_decisions.md). There is no free value: every open point of the source has a decision, and
93_implementation_defined.md leaves no value open that a rule reads. -/

namespace Sys2Proof.Config

/-- The highest register index that exists: x0 to x31 (R7, R20). -/
abbrev maxRegIdx : Nat := 31

/-- The slot execution starts at (R43, R291; D15). -/
abbrev entrySlot : Word := 0#64

/-- What an unmapped data address reads as (R61; D17). -/
abbrev unmappedCell : Word := 0#64

/-- The value of every register the host preloads nothing into (R8, R43; D16). -/
abbrev unloadedRegister : Word := 0#64

/-- What JAL and JALR add to their own slot index to make the link value, in slot units (R143, R144; 90_conflicts.md C6). -/
abbrev linkOffset : Word := 4#64

/-- The one shift distance of the block, of LUI and AUIPC (R118, R160, R161). -/
abbrev upperShift : Nat := 12

end Sys2Proof.Config
end

