-- ==== Sys2Proof/Syntax/Record.lean ====
section
/-! DEFINITION. The operations (tags) of 30_encoding.md R86 and the instruction record of R80, the form in which
instructions arrive and travel through the pipeline. -/

namespace Sys2Proof

/-- The sixteen tag values of a record (R86): the fourteen operations in the order the source lists them, and the two
tags outside the set (R90). NOP is no tag: it is the empty latch (R86, D25). -/
inductive Op where
  | add | sub | and | or | xor | addi | load | store | beq | bne | jal | jalr | lui | auipc | tag14 | tag15
  deriving DecidableEq, Repr

/-- The two unsupported tags (R86, R90). -/
inductive UnsupportedTag where
  | tag14 | tag15
  deriving DecidableEq, Repr

/-- An instruction record (R80): a tag and four optional fields. Any well-typed record is a value of this type, a
malformed one too (R88, `Record.wellShaped`). -/
structure Record where
  op  : Op
  rd  : Opt RegIdx
  rs1 : Opt RegIdx
  rs2 : Opt RegIdx
  imm : Opt Word
  deriving DecidableEq, Repr

/-- Why a record is malformed: the two `Refused` reasons of R87. -/
inductive RecordDefect where
  | reservedBits
  | badShape
  deriving DecidableEq, Repr

end Sys2Proof
end

