-- ==== Sys2Proof/Syntax.lean ====
section
/-! DEFINITION. The instructions: one constructor for each row of spec/opcode_table.json, with the fields its shape
carries (30_encoding.md R81). -/

namespace Sys2Proof

/-- The fourteen operations of RSIM14 (00_scope.md R2) and the unsupported record (R90). Every value is well-formed:
a field that the shape marks absent is no argument, register indices 0 to 63 are all legal in a record (R91), and an
immediate has no range limit (R83). An unsupported record carries whatever fields its presence bits mark. -/
inductive Instr where
  | add   (rd rs1 rs2 : RegIdx)
  | sub   (rd rs1 rs2 : RegIdx)
  | and   (rd rs1 rs2 : RegIdx)
  | or    (rd rs1 rs2 : RegIdx)
  | xor   (rd rs1 rs2 : RegIdx)
  | addi  (rd rs1 : RegIdx) (imm : Word)
  | load  (rd rs1 : RegIdx) (imm : Word)
  | store (rs1 rs2 : RegIdx) (imm : Word)
  | beq   (rs1 rs2 : RegIdx) (imm : Word)
  | bne   (rs1 rs2 : RegIdx) (imm : Word)
  | jal   (rd : RegIdx) (imm : Word)
  | jalr  (rd rs1 : RegIdx) (imm : Word)
  | lui   (rd : RegIdx) (imm : Word)
  | auipc (rd : RegIdx) (imm : Word)
  | unsupported (tag : UnsupportedTag) (rd rs1 rs2 : Option RegIdx) (imm : Option Word)
  deriving DecidableEq, Repr

end Sys2Proof
end

