-- ==== Sys2Proof/WellFormed.lean ====
section
/-! DEFINITION. Well-formedness: the shape table of 30_encoding.md R81, the reserved bits of R89 and the program
length of 00_scope.md R8. A program with a malformed record is refused as a whole (R88). -/

namespace Sys2Proof

/-- Which of the fields rd, rs1, rs2, imm an operation carries (the table of R81); `none` for an unsupported tag,
which is admitted with any presence bits (R90). -/
def Op.shape : Op → Option (Bool × Bool × Bool × Bool)
  | .add | .sub | .and | .or | .xor => some (true, true, true, false)     -- R
  | .addi | .load | .jalr           => some (true, true, false, true)     -- I
  | .store                          => some (false, true, true, true)     -- S
  | .beq | .bne                     => some (false, true, true, true)     -- B
  | .jal                            => some (true, false, false, true)    -- J
  | .lui | .auipc                   => some (true, false, false, true)    -- U
  | .tag14 | .tag15                 => none

/-- The presence bits of a record, in the order rd, rs1, rs2, imm. -/
def Record.presence (r : Record) : Bool × Bool × Bool × Bool :=
  (r.rd.present, r.rs1.present, r.rs2.present, r.imm.present)

/-- A record is malformed in abstract form exactly when it is a supported operation whose presence bits differ from
its row of R81 (R88). -/
def Record.wellShaped (r : Record) : Bool :=
  match r.op.shape with
  | some p => r.presence == p
  | none   => true

/-- The reserved header bits 31..26 (R85, R89). -/
def reservedBits (w : PackedWord) : BitVec 6 := w.extractLsb' 26 6

/-- 0 ≤ N < 2^64 (R8, D34): `pc < N` is a 64-bit comparison. -/
abbrev ProgramLengthOk (prog : List PackedWord) : Prop := prog.length < 2 ^ 64

end Sys2Proof
end

