-- ==== Sys2Proof/Decode.lean ====
section
/-! DEFINITION. The packed record word of 30_encoding.md section 2, its decoder (total on any 96-bit word, rejecting by
name) and its encoder, the opcode classes of R92, and the decoder over the host's numbering of bits. -/

namespace Sys2Proof

/-! ### Tags and opcode classes -/

/-- R86: the tag value of each operation. -/
def Op.tag : Op → BitVec 4
  | .add => 0 | .sub => 1 | .and => 2 | .or => 3 | .xor => 4 | .addi => 5 | .load => 6 | .store => 7
  | .beq => 8 | .bne => 9 | .jal => 10 | .jalr => 11 | .lui => 12 | .auipc => 13 | .tag14 => 14 | .tag15 => 15

/-- R86 read the other way: every 4-bit value is some tag. -/
def Op.ofTag (t : BitVec 4) : Op :=
  match t.toNat with
  | 0 => .add | 1 => .sub | 2 => .and | 3 => .or | 4 => .xor | 5 => .addi | 6 => .load | 7 => .store
  | 8 => .beq | 9 => .bne | 10 => .jal | 11 => .jalr | 12 => .lui | 13 => .auipc | 14 => .tag14 | _ => .tag15

/-- SUPPORTED (R92): tags 0 to 13. -/
def Op.supported : Op → Bool
  | .tag14 | .tag15 => false
  | .add | .sub | .and | .or | .xor | .addi | .load | .store | .beq | .bne | .jal | .jalr | .lui | .auipc => true

/-- MEM_SET (R92). -/
def Op.memSet : Op → Bool
  | .load | .store => true
  | .add | .sub | .and | .or | .xor | .addi | .beq | .bne | .jal | .jalr | .lui | .auipc | .tag14 | .tag15 => false

/-- ALU_SET (R92): the operations execute hands to the ALU. -/
def Op.aluSet (o : Op) : Bool := o.supported && !o.memSet

/-- CTRL_SET (R92). -/
def Op.ctrlSet : Op → Bool
  | .beq | .bne | .jal | .jalr => true
  | .add | .sub | .and | .or | .xor | .addi | .load | .store | .lui | .auipc | .tag14 | .tag15 => false

/-- WRITES_RF (R92, R25): the operations that write `x[rd]` at write-back; JAL and JALR are among them (90_conflicts.md C5). -/
def Op.writesRF : Op → Bool
  | .add | .sub | .and | .or | .xor | .addi | .load | .jal | .jalr | .lui | .auipc => true
  | .store | .beq | .bne | .tag14 | .tag15 => false

/-- FWD_WRITERS (R92): the producers execute forwarding may select; JAL and JALR are not among them (90_conflicts.md C4). -/
def Op.fwdWriter : Op → Bool
  | .add | .sub | .and | .or | .xor | .addi | .load | .lui | .auipc => true
  | .store | .beq | .bne | .jal | .jalr | .tag14 | .tag15 => false

/-- USES_RS2 (R92): the operations that consume a second register operand; STORE is among them (90_conflicts.md C12). -/
def Op.usesRs2 : Op → Bool
  | .add | .sub | .and | .or | .xor | .store | .beq | .bne => true
  | .addi | .load | .jal | .jalr | .lui | .auipc | .tag14 | .tag15 => false

def UnsupportedTag.op : UnsupportedTag → Op
  | .tag14 => .tag14
  | .tag15 => .tag15

/-! ### Source fields of a record -/

/-- R84: an absent source field is treated as index 0 wherever a source index is read. -/
def srcIdx (f : Opt RegIdx) : RegIdx := if f.present then f.value else 0#6

/-! ### Between instructions and records -/

/-- The operation of an instruction. -/
def Instr.op : Instr → Op
  | .add .. => .add | .sub .. => .sub | .and .. => .and | .or .. => .or | .xor .. => .xor
  | .addi .. => .addi | .load .. => .load | .store .. => .store | .beq .. => .beq | .bne .. => .bne
  | .jal .. => .jal | .jalr .. => .jalr | .lui .. => .lui | .auipc .. => .auipc
  | .unsupported tag .. => tag.op

/-- The register an instruction writes at write-back, if it writes one (the table of 10_state.md R25). -/
def Instr.destination : Instr → Option RegIdx
  | .add rd _ _ | .sub rd _ _ | .and rd _ _ | .or rd _ _ | .xor rd _ _ => some rd
  | .addi rd _ _ | .load rd _ _ | .jalr rd _ _ => some rd
  | .jal rd _ | .lui rd _ | .auipc rd _ => some rd
  | .store .. | .beq .. | .bne .. | .unsupported .. => none

/-- The first source index, 0 where the shape has none (R81, R84). -/
def Instr.src1 : Instr → RegIdx
  | .add _ rs1 _ | .sub _ rs1 _ | .and _ rs1 _ | .or _ rs1 _ | .xor _ rs1 _ => rs1
  | .addi _ rs1 _ | .load _ rs1 _ | .jalr _ rs1 _ => rs1
  | .store rs1 _ _ | .beq rs1 _ _ | .bne rs1 _ _ => rs1
  | .jal .. | .lui .. | .auipc .. => 0#6
  | .unsupported _ _ rs1 _ _ => rs1.getD 0#6

/-- The second source index, 0 where the shape has none (R81, R84). -/
def Instr.src2 : Instr → RegIdx
  | .add _ _ rs2 | .sub _ _ rs2 | .and _ _ rs2 | .or _ _ rs2 | .xor _ _ rs2 => rs2
  | .store _ rs2 _ | .beq _ rs2 _ | .bne _ rs2 _ => rs2
  | .addi .. | .load .. | .jalr .. | .jal .. | .lui .. | .auipc .. => 0#6
  | .unsupported _ _ _ rs2 _ => rs2.getD 0#6

/-- The record of an instruction: the fields its shape marks present (R81), the others absent. -/
def Instr.toRecord : Instr → Record
  | .add rd rs1 rs2     => ⟨.add, .of rd, .of rs1, .of rs2, .absent⟩
  | .sub rd rs1 rs2     => ⟨.sub, .of rd, .of rs1, .of rs2, .absent⟩
  | .and rd rs1 rs2     => ⟨.and, .of rd, .of rs1, .of rs2, .absent⟩
  | .or rd rs1 rs2      => ⟨.or, .of rd, .of rs1, .of rs2, .absent⟩
  | .xor rd rs1 rs2     => ⟨.xor, .of rd, .of rs1, .of rs2, .absent⟩
  | .addi rd rs1 imm    => ⟨.addi, .of rd, .of rs1, .absent, .of imm⟩
  | .load rd rs1 imm    => ⟨.load, .of rd, .of rs1, .absent, .of imm⟩
  | .store rs1 rs2 imm  => ⟨.store, .absent, .of rs1, .of rs2, .of imm⟩
  | .beq rs1 rs2 imm    => ⟨.beq, .absent, .of rs1, .of rs2, .of imm⟩
  | .bne rs1 rs2 imm    => ⟨.bne, .absent, .of rs1, .of rs2, .of imm⟩
  | .jal rd imm         => ⟨.jal, .of rd, .absent, .absent, .of imm⟩
  | .jalr rd rs1 imm    => ⟨.jalr, .of rd, .of rs1, .absent, .of imm⟩
  | .lui rd imm         => ⟨.lui, .of rd, .absent, .absent, .of imm⟩
  | .auipc rd imm       => ⟨.auipc, .of rd, .absent, .absent, .of imm⟩
  | .unsupported tag rd rs1 rs2 imm => ⟨tag.op, .ofOption rd, .ofOption rs1, .ofOption rs2, .ofOption imm⟩

/-- The instruction a record spells. Only a well-shaped record is asked (R88); the don't-care bits of an absent field
are ignored (R85). -/
def Record.instr (r : Record) : Instr :=
  match r.op with
  | .add   => .add r.rd.value r.rs1.value r.rs2.value
  | .sub   => .sub r.rd.value r.rs1.value r.rs2.value
  | .and   => .and r.rd.value r.rs1.value r.rs2.value
  | .or    => .or r.rd.value r.rs1.value r.rs2.value
  | .xor   => .xor r.rd.value r.rs1.value r.rs2.value
  | .addi  => .addi r.rd.value r.rs1.value r.imm.value
  | .load  => .load r.rd.value r.rs1.value r.imm.value
  | .store => .store r.rs1.value r.rs2.value r.imm.value
  | .beq   => .beq r.rs1.value r.rs2.value r.imm.value
  | .bne   => .bne r.rs1.value r.rs2.value r.imm.value
  | .jal   => .jal r.rd.value r.imm.value
  | .jalr  => .jalr r.rd.value r.rs1.value r.imm.value
  | .lui   => .lui r.rd.value r.imm.value
  | .auipc => .auipc r.rd.value r.imm.value
  | .tag14 => .unsupported .tag14 r.rd.toOption r.rs1.toOption r.rs2.toOption r.imm.toOption
  | .tag15 => .unsupported .tag15 r.rd.toOption r.rs1.toOption r.rs2.toOption r.imm.toOption

/-! ### The packed word -/

/-- The fields of a packed word (the table of R85), without any check: what fetch copies into IF/ID. -/
def Record.ofWord (w : PackedWord) : Record where
  op  := Op.ofTag (w.extractLsb' 0 4)
  rd  := ⟨w.getLsbD 4, w.extractLsb' 8 6⟩
  rs1 := ⟨w.getLsbD 5, w.extractLsb' 14 6⟩
  rs2 := ⟨w.getLsbD 6, w.extractLsb' 20 6⟩
  imm := ⟨w.getLsbD 7, w.extractLsb' 32 64⟩

/-- What a packed word decodes to (R87): an instruction (an admitted unsupported record among them), or a refusal by name. -/
inductive Decoded where
  | instr (i : Instr)
  | refused (d : RecordDefect)
  deriving DecidableEq, Repr

/-- `decode_word` (R87): total on any 96-bit word. The reserved bits are tested first, then the shape; an unsupported tag
has no shape to differ from (R90). -/
def decodeWord (w : PackedWord) : Decoded :=
  if reservedBits w ≠ 0#6 then .refused .reservedBits
  else if (Record.ofWord w).wellShaped then .instr (Record.ofWord w).instr
  else .refused .badShape

/-- The packed word of a record (the table of R85, from its last row to its first); 0 in the reserved bits. -/
def Record.pack (r : Record) : PackedWord :=
  r.imm.value ++ (0#6 ++ (r.rs2.value ++ (r.rs1.value ++ (r.rd.value ++
    (BitVec.ofBool r.imm.present ++ (BitVec.ofBool r.rs2.present ++
      (BitVec.ofBool r.rs1.present ++ (BitVec.ofBool r.rd.present ++ r.op.tag))))))))

/-- The packed word of an instruction: "An encoder writes 0 in every don't-care bit" (R85). -/
def encode (i : Instr) : PackedWord := i.toRecord.pack

/-- The header `H`, bits 31..0 (R85). -/
def header (w : PackedWord) : BitVec 32 := w.extractLsb' 0 32

/-- The header match value of an operation (the table of R87) under the mask 0xFC0000FF. An unsupported tag has the
value 0x0000000E under the mask 0xFC00000E instead. -/
def headerMatch : Op → BitVec 32
  | .add => 0x00000070 | .sub => 0x00000071 | .and => 0x00000072 | .or => 0x00000073 | .xor => 0x00000074
  | .addi => 0x000000B5 | .load => 0x000000B6 | .store => 0x000000E7 | .beq => 0x000000E8 | .bne => 0x000000E9
  | .jal => 0x0000009A | .jalr => 0x000000BB | .lui => 0x0000009C | .auipc => 0x0000009D
  | .tag14 | .tag15 => 0x0000000E

/-- The mask that goes with `headerMatch` (R87). -/
def headerMask : Op → BitVec 32
  | .add | .sub | .and | .or | .xor | .addi | .load | .store | .beq | .bne | .jal | .jalr | .lui | .auipc => 0xFC0000FF
  | .tag14 | .tag15 => 0xFC00000E

/-! ### Programs -/

/-- The first malformed slot of a program, counted from `slot`, and why it is malformed (R88: `Refused(slot, reason)`). -/
def programDefectFrom (slot : Nat) : List PackedWord → Option (Nat × RecordDefect)
  | [] => none
  | w :: rest =>
    match decodeWord w with
    | .instr _   => programDefectFrom (slot + 1) rest
    | .refused d => some (slot, d)

/-- `none` for a program that is admitted (R88). -/
def programDefect (prog : List PackedWord) : Option (Nat × RecordDefect) := programDefectFrom 0 prog

/-- The word whose bits the host numbers from the least significant bit of the first 32-bit word, the header: R85's own
numbering. Bits above `nbits` are 0. `none` where there are more bits than a record has. -/
def tableWord (nbits w : Nat) : Option PackedWord :=
  let v := w % 2 ^ nbits
  if v < 2 ^ 96 then some (BitVec.ofNat 96 v) else none

/-- The instruction the decoder reads from a word of the opcode table. -/
def decodeTableWord (nbits w : Nat) : Option Instr :=
  match tableWord nbits w with
  | none   => none
  | some v =>
    match decodeWord v with
    | .instr i   => some i
    | .refused _ => none

end Sys2Proof
end

