-- ==== Sys2Proof/Machine/State.lean ====
section
/-! DEFINITION. The state of the block (10_state.md), its reset (70_reset_and_hazards.md R290) and the reasons a step
stops (60_exceptions.md R260, 30_encoding.md R88). Plain data throughout. -/

namespace Sys2Proof.Machine

/-! ### Registers and memory -/

/-- The register file: x0 to x31, 64 bits each, one bank (R20). Read and written through `regRead` and `regWrite`
alone; place 0 is never read and never written (R21). -/
abbrev RegFile := Vector Word 32

/-- The data memory: a finite map from 64-bit addresses to whole 64-bit cells (R60), as a list of the mapped cells. An
address that is not listed is unmapped; a mapped cell that holds 0 is not the same thing (R62, R74). There is no byte
view of a cell (R64; D29). -/
abbrev Memory := List (Nat × Word)

/-- The canonical form: addresses strictly rising and below 2^64, so that equal maps are equal lists. -/
abbrev Memory.wf (m : Memory) : Prop := m.Pairwise (fun c c' => c.1 < c'.1) ∧ ∀ c ∈ m, c.1 < 2 ^ 64

/-! ### The latches (R32 to R36): each is `none` (the empty latch ⊥, which is also NOP, D25) or one payload -/

/-- IF/ID (R33): the record as fetch copied it, and the slot it came from. -/
structure IfId where
  record : Record
  pc     : Word
  deriving DecidableEq, Repr

/-- ID/EX (R34): the instruction fields, the two source indices (0 where the record has none) and the two values
decode resolved for them. -/
structure IdEx where
  op     : Op
  rd     : Opt RegIdx
  rs1    : RegIdx
  rs2    : RegIdx
  rs1Val : Word
  rs2Val : Word
  imm    : Opt Word
  pc     : Word
  deriving DecidableEq, Repr

/-- EX/MEM (R35): the instruction fields, and the computed fields with their presence bits. The operand values do not
travel on (D39). -/
structure ExMem where
  op        : Op
  rd        : Opt RegIdx
  rs1       : RegIdx
  rs2       : RegIdx
  imm       : Opt Word
  pc        : Word
  aluResult : Opt Word
  addr      : Opt Word
  storeVal  : Opt Word
  deriving DecidableEq, Repr

/-- MEM/WB (R36): every EX/MEM field unchanged, plus the loaded value. -/
structure MemWb extends ExMem where
  memData : Opt Word
  deriving DecidableEq, Repr

/-! ### The state -/

/-- Everything that persists between two cycles: the orchestrator's state of R38 and R42 (`pc` to `log`), the register
file and the data memory the host owns (R26, R74), and the program in instruction memory (R41), in the packed form the
instruction port carries (R85, R249). The control signals are combinational and hold no state (R40); there are no flags
and no control registers (R30, R31). -/
structure State where
  /-- x0 to x31 (R20). -/
  regs : RegFile
  /-- The data memory (R60). -/
  mem : Memory
  /-- The program `prog[0..N-1]` (R41): read-only for the block. -/
  prog : List PackedWord
  /-- The slot fetch reads next (R27). -/
  pc : Word
  ifid : Option IfId
  idex : Option IdEx
  exmem : Option ExMem
  memwb : Option MemWb
  /-- Cycles completed since the fresh start: an unbounded natural number (R38, R272; D28). -/
  cycleCount : Nat
  /-- Fetch has run past the end and has not been redirected since (R38). -/
  fetchExhausted : Bool
  /-- HALTED: the drain check has passed (R38, R230). -/
  halted : Bool
  /-- The trace lines of the most recent call (R39, R247): not architectural, "A model may produce any log, or an empty
  one" (R274). This model produces none. -/
  log : List String
  deriving DecidableEq, Repr

/-- Every register 0: what the host's register file holds where it preloads nothing (D16). -/
def RegFile.unloaded : RegFile := Vector.replicate 32 Config.unloadedRegister

/-- The state a fresh start begins from (R43, R290) with nothing supplied by the host: registers 0 (D16), memory with
nothing mapped (D17), and no program (N = 0), which the host loads from outside. -/
def State.reset : State where
  regs := RegFile.unloaded
  mem := []
  prog := []
  pc := Config.entrySlot
  ifid := none
  idex := none
  exmem := none
  memwb := none
  cycleCount := 0
  fetchExhausted := false
  halted := false
  log := []

/-! ### Why a step stops -/

/-- The access of an OutOfRange error (R260). -/
inductive Access where
  | read | write
  deriving DecidableEq, Repr

/-- The site of a MissingWriteValue error (R260). -/
inductive Site where
  | writeBack | decodeBypass | executeForward
  deriving DecidableEq, Repr

/-- The three fatal errors with their info records (the table of R260), as a stage raises them. -/
inductive FatalError where
  | outOfRange (index : RegIdx) (access : Access) (pc : Word)
  | unsupportedOperation (tag : BitVec 4) (pc : Word)
  | missingWriteValue (pc : Word) (op : Op) (site : Site)
  deriving DecidableEq, Repr

/-- What the host is left with after an abort (R265): the register file and the data memory, with the effects of the
steps before the faulting one. No snapshot is returned. -/
structure Remains where
  regs : RegFile
  mem  : Memory
  deriving DecidableEq, Repr

/-- How a step faults: a fatal error aborts the host call (R260, R265). All three are the spec's own outcomes, so a stop
with one of them is neither safe nor unsafe but what the hardware does; `remains` is what R265 says is left. -/
inductive Fault where
  /-- Code 1 (R260): raised by decode reading a source index above 31 (R22, R192) and by write-back writing a destination
  index above 31 (R23, R203). -/
  | outOfRange (index : RegIdx) (access : Access) (pc : Word) (remains : Remains)
  /-- Code 2 (R260): raised by execute for a record with tag 14 or 15 (R197, R262). -/
  | unsupportedOperation (tag : BitVec 4) (pc : Word) (remains : Remains)
  /-- Code 3 (R260): raised by write-back, the decode bypass or execute forwarding where a latch lacks its write value;
  reachable only from a restored state the block did not produce (R263). -/
  | missingWriteValue (pc : Word) (op : Op) (site : Site) (remains : Remains)
  deriving DecidableEq, Repr

/-- What the spec gives no meaning and refuses. -/
inductive Refusal where
  /-- The host's word for an instruction without a meaning. No arm of `exec` uses it. Safe. -/
  | notModelled (mnemonic : String)
  /-- Raised by `step` and `run` before anything runs: the program holds a malformed record in this slot (R88). It is the
  spec's own refusal; safe, as R88 says ("It errs toward unprovable"). -/
  | malformedRecord (slot : Nat) (reason : RecordDefect)
  /-- Raised by `run` and by a `start` pulse: a snapshot is resumed with another program than it was taken under, which
  "the model does not give ... a meaning" (R246). Safe. -/
  | programChanged
  /-- Raised by a `start` pulse or a host register write while a call is in progress (R245, R249: "usable only while
  busy = 0"). Safe. -/
  | hostAccessDuringCall
  deriving DecidableEq, Repr

/-- The outcome of a step or of a meaning. -/
abbrev StepResult := Host.Outcome State Fault Refusal

end Sys2Proof.Machine
end

