-- ==== Sys2Proof/Machine/Ops.lean ====
section
/-! DEFINITION. The named operations: the register-file ports (10_state.md R22, R23), the data-memory port (20_memory.md
R61, R62), the views between latches and instructions, and the abort, which is all there is to taking an exception
(60_exceptions.md R265, R267). -/

namespace Sys2Proof.Machine

/-! ### The register-file ports -/

/-- `RegRead(i)` (R22): an index above 31 is out of range, index 0 reads 0. -/
def regRead (rf : RegFile) (i : RegIdx) : Option Word :=
  if i.toNat > Config.maxRegIdx then none
  else if i = 0#6 then some 0#64
  else rf[i.toNat]?

/-- `RegWrite(i, v)` (R23): index 0 is discarded first, then an index above 31 is out of range. -/
def regWrite (rf : RegFile) (i : RegIdx) (v : Word) : Option RegFile :=
  if i = 0#6 then some rf
  else if i.toNat > Config.maxRegIdx then none
  else some (rf.setIfInBounds i.toNat v)

/-! ### The data-memory port -/

/-- The mapped cell at an address, if there is one. -/
def Memory.lookup : Memory → Nat → Option Word
  | [], _ => none
  | (a, v) :: rest, b => if a = b then some v else Memory.lookup rest b

/-- The map with the cell at an address set, in canonical form. A cell set to 0 is mapped all the same (R62). -/
def Memory.insert : Memory → Nat → Word → Memory
  | [], b, w => [(b, w)]
  | (a, v) :: rest, b, w =>
    if b < a then (b, w) :: (a, v) :: rest
    else if b = a then (b, w) :: rest
    else (a, v) :: Memory.insert rest b w

/-- `MemRead(addr, 1)` (R61): never fails, 0 for an unmapped address, no side effect. -/
def memRead (m : Memory) (addr : Word) : Word := (m.lookup addr.toNat).getD Config.unmappedCell

/-- `MemWrite(addr, 1, v)` (R62): "always succeeds and overwrites". -/
def memWrite (m : Memory) (addr v : Word) : Memory := m.insert addr.toNat v

/-! ### Fatal errors -/

/-- The fault of a fatal error, with what the steps before it leave to the host. -/
def FatalError.fault (left : Remains) : FatalError → Fault
  | .outOfRange i a pc          => .outOfRange i a pc left
  | .unsupportedOperation t pc  => .unsupportedOperation t pc left
  | .missingWriteValue pc op st => .missingWriteValue pc op st left

/-- Raising a fatal error (R265): the call ends at once. No later step of the cycle runs, the cycle is not counted, no
snapshot is returned and control goes nowhere; the host keeps the register file and the memory as they stand. There is no
vector, no saved pc and no return (R267). -/
def abort (e : FatalError) (regs : RegFile) (mem : Memory) : StepResult := .fault (e.fault ⟨regs, mem⟩)

/-- The fault code (R249, R260; D13). -/
def Fault.code : Fault → BitVec 2
  | .outOfRange ..           => 1
  | .unsupportedOperation .. => 2
  | .missingWriteValue ..    => 3

/-- What a fault leaves to the host. -/
def Fault.remains : Fault → Remains
  | .outOfRange _ _ _ left         => left
  | .unsupportedOperation _ _ left => left
  | .missingWriteValue _ _ _ left  => left

/-- The error a fault reports: `fault_info` (R249). -/
def Fault.info : Fault → FatalError
  | .outOfRange i a pc _          => .outOfRange i a pc
  | .unsupportedOperation t pc _  => .unsupportedOperation t pc
  | .missingWriteValue pc op st _ => .missingWriteValue pc op st

/-! ### The instruction a latch carries -/

/-- The instruction in ID/EX, in the form `exec` takes. (An unsupported record's source presence bits do not travel past
decode, R34: its absent sources show as index 0, R84.) -/
def IdEx.instr (d : IdEx) : Instr :=
  match d.op with
  | .add   => .add d.rd.value d.rs1 d.rs2
  | .sub   => .sub d.rd.value d.rs1 d.rs2
  | .and   => .and d.rd.value d.rs1 d.rs2
  | .or    => .or d.rd.value d.rs1 d.rs2
  | .xor   => .xor d.rd.value d.rs1 d.rs2
  | .addi  => .addi d.rd.value d.rs1 d.imm.value
  | .load  => .load d.rd.value d.rs1 d.imm.value
  | .store => .store d.rs1 d.rs2 d.imm.value
  | .beq   => .beq d.rs1 d.rs2 d.imm.value
  | .bne   => .bne d.rs1 d.rs2 d.imm.value
  | .jal   => .jal d.rd.value d.imm.value
  | .jalr  => .jalr d.rd.value d.rs1 d.imm.value
  | .lui   => .lui d.rd.value d.imm.value
  | .auipc => .auipc d.rd.value d.imm.value
  | .tag14 => .unsupported .tag14 d.rd.toOption (some d.rs1) (some d.rs2) d.imm.toOption
  | .tag15 => .unsupported .tag15 d.rd.toOption (some d.rs1) (some d.rs2) d.imm.toOption

/-- The latch field of an optional operand: an absent operand clears the presence bit and leaves the don't-care bits. -/
def withOperand {α : Type} (f : Opt α) : Option α → Opt α
  | some v => .of v
  | none   => { f with present := false }

/-- The ID/EX latch with the fields of an instruction in it: its operation and the operands it names. Everything else,
the captured operand values and the slot index among it, stays. A latch that carries the instruction already is
unchanged (`IdEx.withInstr_instr`). -/
def IdEx.withInstr (d : IdEx) : Instr → IdEx
  | .add rd rs1 rs2 => { d with op := .add, rd := { d.rd with value := rd }, rs1 := rs1, rs2 := rs2 }
  | .sub rd rs1 rs2 => { d with op := .sub, rd := { d.rd with value := rd }, rs1 := rs1, rs2 := rs2 }
  | .and rd rs1 rs2 => { d with op := .and, rd := { d.rd with value := rd }, rs1 := rs1, rs2 := rs2 }
  | .or rd rs1 rs2 => { d with op := .or, rd := { d.rd with value := rd }, rs1 := rs1, rs2 := rs2 }
  | .xor rd rs1 rs2 => { d with op := .xor, rd := { d.rd with value := rd }, rs1 := rs1, rs2 := rs2 }
  | .addi rd rs1 imm =>
    { d with op := .addi, rd := { d.rd with value := rd }, rs1 := rs1, imm := { d.imm with value := imm } }
  | .load rd rs1 imm =>
    { d with op := .load, rd := { d.rd with value := rd }, rs1 := rs1, imm := { d.imm with value := imm } }
  | .store rs1 rs2 imm => { d with op := .store, rs1 := rs1, rs2 := rs2, imm := { d.imm with value := imm } }
  | .beq rs1 rs2 imm => { d with op := .beq, rs1 := rs1, rs2 := rs2, imm := { d.imm with value := imm } }
  | .bne rs1 rs2 imm => { d with op := .bne, rs1 := rs1, rs2 := rs2, imm := { d.imm with value := imm } }
  | .jal rd imm => { d with op := .jal, rd := { d.rd with value := rd }, imm := { d.imm with value := imm } }
  | .jalr rd rs1 imm =>
    { d with op := .jalr, rd := { d.rd with value := rd }, rs1 := rs1, imm := { d.imm with value := imm } }
  | .lui rd imm => { d with op := .lui, rd := { d.rd with value := rd }, imm := { d.imm with value := imm } }
  | .auipc rd imm => { d with op := .auipc, rd := { d.rd with value := rd }, imm := { d.imm with value := imm } }
  | .unsupported tag rd rs1 rs2 imm =>
    { d with op := tag.op, rd := withOperand d.rd rd, rs1 := rs1.getD 0#6, rs2 := rs2.getD 0#6,
             imm := withOperand d.imm imm }

/-- The state with a latch in ID/EX. -/
def State.presenting (s : State) (d : IdEx) : State := { s with idex := some d }

end Sys2Proof.Machine
end

