-- ==== Sys2Proof/Machine/Operands.lean ====
section
/-! DEFINITION. Every operand form: the write value of a latch (10_state.md R37), the decode bypass (46_stages.md R192),
the forwarding multiplexer (R196), the address and target computations, and the forms in which execute builds EX/MEM
(R198). -/

namespace Sys2Proof.Machine

/-! ### Write values -/

/-- The write value of EX/MEM (R37): a LOAD has none there. -/
def ExMem.writeValue (l : ExMem) : Option Word :=
  if l.op.writesRF then
    if l.op = .load then none else l.aluResult.toOption
  else none

/-- The write value of MEM/WB (R37): `mem_data` for a LOAD, `alu_result` for every other member of WRITES_RF. -/
def MemWb.writeValue (l : MemWb) : Option Word :=
  if l.op.writesRF then
    if l.op = .load then l.memData.toOption else l.aluResult.toOption
  else none

/-- The register an instruction in EX/MEM is going to write: none unless its operation is in WRITES_RF. -/
def ExMem.writesReg (l : ExMem) (r : RegIdx) : Bool := l.op.writesRF && l.rd.value == r

/-! ### The decode bypass -/

/-- A bypassed value, or MissingWriteValue at the decode bypass, naming the producer (R192). -/
def bypassed (pc : Word) (op : Op) : Option Word → Except FatalError Word
  | some v => .ok v
  | none   => .error (.missingWriteValue pc op .decodeBypass)

/-- Source (c) of R192: the register file, already updated by this cycle's write-back. -/
def readSource (regs : RegFile) (pc : Word) (r : RegIdx) : Except FatalError Word :=
  match regRead regs r with
  | some v => .ok v
  | none   => .error (.outOfRange r .read pc)

/-- Source (b) of R192: the instruction in EX/MEM at the start of the cycle, its value read from `MEMWB'` (D10). -/
def resolvePrevious (exmem : Option ExMem) (memwb' : Option MemWb) (regs : RegFile) (pc : Word) (r : RegIdx) :
    Except FatalError Word :=
  match exmem with
  | some p =>
    if r ≠ 0#6 ∧ p.writesReg r then bypassed p.pc p.op (memwb'.bind MemWb.writeValue) else readSource regs pc r
  | none => readSource regs pc r

/-- `resolve(r)` (R192): (a) the instruction executed this cycle, (b) the one in EX/MEM at the start of the cycle, (c) the
register file. Index 0 is never bypassed (R174, D9). `pc` is the slot of the instruction being decoded. -/
def resolve (exmem' exmem : Option ExMem) (memwb' : Option MemWb) (regs : RegFile) (pc : Word) (r : RegIdx) :
    Except FatalError Word :=
  match exmem' with
  | some c =>
    if r ≠ 0#6 ∧ c.writesReg r then bypassed c.pc c.op c.writeValue
    else resolvePrevious exmem memwb' regs pc r
  | none => resolvePrevious exmem memwb' regs pc r

/-! ### The forwarding multiplexer -/

/-- The select of the forwarding multiplexer (R40). -/
inductive Forward where
  | none | fromExMem | fromMemWb
  deriving DecidableEq, Repr

/-- Its encoding (R40, R173; D21). Code 3 is never produced. -/
def Forward.code : Forward → BitVec 2
  | .none => 0 | .fromExMem => 1 | .fromMemWb => 2

/-- A forwarded value, or MissingWriteValue at execute, naming the consumer (R196). -/
def forwarded (d : IdEx) : Option Word → Except FatalError Word
  | some v => .ok v
  | none   => .error (.missingWriteValue d.pc d.op .executeForward)

/-- `mux(sel, v0)` (R196). -/
def forwardMux (exmem : Option ExMem) (memwb' : Option MemWb) (d : IdEx) (v : Word) : Forward → Except FatalError Word
  | .none      => .ok v
  | .fromExMem => forwarded d (exmem.bind ExMem.writeValue)
  | .fromMemWb => forwarded d (memwb'.bind MemWb.writeValue)

/-- Operand selection (R196): BEQ and BNE use the values decode resolved; every other operation takes both through the
multiplexer, the first operand first. -/
def selectOperands (forwardA forwardB : Forward) (exmem : Option ExMem) (memwb' : Option MemWb) (d : IdEx) :
    Except FatalError (Word × Word) :=
  if d.op = .beq ∨ d.op = .bne then .ok (d.rs1Val, d.rs2Val)
  else
    match forwardMux exmem memwb' d d.rs1Val forwardA with
    | .error e => .error e
    | .ok a =>
      match forwardMux exmem memwb' d d.rs2Val forwardB with
      | .error e => .error e
      | .ok b => .ok (a, b)

/-! ### Addresses, targets and links -/

/-- The effective cell address, base plus offset modulo 2^64, never checked (R130). -/
def effectiveAddress (base imm : Word) : Word := base + imm

/-- The target of BEQ, BNE and JAL, in slots modulo 2^64 (R141 to R143, R146). -/
def relativeTarget (pc imm : Word) : Word := pc + imm

/-- The target of JALR: bit 0 of the sum cleared (R144). -/
def registerTarget (base imm : Word) : Word := (base + imm) &&& 0xFFFFFFFFFFFFFFFE#64

/-- The link value of JAL and JALR (R143, R144; D12). -/
def linkValue (pc : Word) : Word := pc + Config.linkOffset

/-- The value of LUI (R160). -/
def upperImmediate (imm : Word) : Word := imm <<< Config.upperShift

/-- The value of AUIPC (R161). -/
def pcUpperImmediate (pc imm : Word) : Word := pc * 4#64 + upperImmediate imm

/-! ### What execute produces -/

/-- The control-transfer outputs (R140, R110): `taken` and `nextPc`, and the `fallthroughPc` that BEQ and BNE compute and
no rule reads (R111). -/
structure Transfer where
  fallthroughPc : Word
  nextPc        : Word
  taken         : Bool
  deriving DecidableEq, Repr

/-- Execute's outputs (R199): `EXMEM'`, and the control-transfer outputs, which only the operations of CTRL_SET have
(R140: "meaningful only for `BEQ/BNE/JAL/JALR`"). -/
structure Executed where
  exmem    : Option ExMem
  transfer : Option Transfer
  deriving DecidableEq, Repr

/-- `branch_taken` (R140): false for every operation outside CTRL_SET and for an empty ID/EX. -/
def Executed.taken (x : Executed) : Bool :=
  match x.transfer with
  | some t => t.taken
  | none   => false

/-- The inputs of execute for a valid ID/EX: the latch and the two selected operands. -/
structure ExecuteIn where
  latch : IdEx
  a     : Word
  b     : Word
  deriving DecidableEq, Repr

/-- The instruction's own slot index (R29). -/
def ExecuteIn.pc (x : ExecuteIn) : Word := x.latch.pc

/-- The fields EX/MEM copies from ID/EX, with every computed field absent (R198). -/
def IdEx.carried (d : IdEx) : ExMem where
  op := d.op
  rd := d.rd
  rs1 := d.rs1
  rs2 := d.rs2
  imm := d.imm
  pc := d.pc
  aluResult := .absent
  addr := .absent
  storeVal := .absent

/-- R198, first row: `alu_result` takes the ALU's result. -/
def ExecuteIn.result (x : ExecuteIn) (v : Word) : Executed where
  exmem := some { x.latch.carried with aluResult := .of v }
  transfer := none

/-- R198, LOAD: the address alone. -/
def ExecuteIn.loadFrom (x : ExecuteIn) (addr : Word) : Executed where
  exmem := some { x.latch.carried with addr := .of addr }
  transfer := none

/-- R198, STORE: the address and the data. -/
def ExecuteIn.storeTo (x : ExecuteIn) (addr data : Word) : Executed where
  exmem := some { x.latch.carried with addr := .of addr, storeVal := .of data }
  transfer := none

/-- R198, BEQ and BNE: no computed field; R141, R142: the target when the condition holds, `pc + 1` otherwise. -/
def ExecuteIn.branch (x : ExecuteIn) (condition : Bool) (target : Word) : Executed where
  exmem := some x.latch.carried
  transfer := some
    { fallthroughPc := x.pc + 1#64, nextPc := if condition then target else x.pc + 1#64, taken := condition }

/-- R198, JAL and JALR: `alu_result` takes the link; R143, R144: always taken. -/
def ExecuteIn.jump (x : ExecuteIn) (link target : Word) : Executed where
  exmem := some { x.latch.carried with aluResult := .of link }
  transfer := some { fallthroughPc := x.pc + 1#64, nextPc := target, taken := true }

end Sys2Proof.Machine
end

