-- ==== Sys2Proof/Machine/Flags.lean ====
section
/-! DEFINITION. The block has no architectural flags (10_state.md R30). Its computed one-bit conditions are the control
unit's signals (45_control_unit.md) and the drain check (47_orchestrator.md R236): combinational, computed afresh each
cycle and stored nowhere, but for `halted`. -/

namespace Sys2Proof.Machine

/-- `fwd_src(r)` (R171): EX/MEM first (R173), then `MEMWB'` if it carries a write value; index 0 never matches (R174). -/
def fwdSrc (exmem : Option ExMem) (memwb' : Option MemWb) (r : RegIdx) : Forward :=
  if r = 0#6 then .none
  else if exmem.any (fun p => p.op.fwdWriter && p.rd.value == r) then .fromExMem
  else if memwb'.any (fun p => p.op.fwdWriter && p.rd.value == r && p.writeValue.isSome) then .fromMemWb
  else .none

/-- forwardA (R171). -/
def forwardA (idex : Option IdEx) (exmem : Option ExMem) (memwb' : Option MemWb) : Forward :=
  match idex with
  | some d => fwdSrc exmem memwb' d.rs1
  | none   => .none

/-- forwardB (R172): evaluated only for an operation that consumes a second register operand. -/
def forwardB (idex : Option IdEx) (exmem : Option ExMem) (memwb' : Option MemWb) : Forward :=
  match idex with
  | some d => if d.op.usesRs2 then fwdSrc exmem memwb' d.rs2 else .none
  | none   => .none

/-- Load-use detection (R175): a LOAD with `rd ≠ 0` in ID/EX, and a record in IF/ID that names the same register in
either source field. Indices above 31 compare like any other. -/
def loadUse (ifid : Option IfId) (idex : Option IdEx) : Bool :=
  match idex, ifid with
  | some d, some f =>
    d.op == .load && d.rd.value != 0#6 &&
      (d.rd.value == srcIdx f.record.rs1 || d.rd.value == srcIdx f.record.rs2)
  | _, _ => false

/-- The branch-flush sub-procedure (R177): both flush flags equal its argument. -/
def branchFlush (taken : Bool) : Bool × Bool := (taken, taken)

/-- The control signals (R40). -/
structure Signals where
  forwardA           : Forward
  forwardB           : Forward
  stallFetch         : Bool
  stallDecode        : Bool
  bubbleExecute      : Bool
  flushFetchDecode   : Bool
  flushDecodeExecute : Bool
  deriving DecidableEq, Repr

/-- `compute_signals(IFID, IDEX, EXMEM, MEMWB')` (R170). The orchestrator calls the branch flush "with a hardcoded 'no
branch' flag" (R177). -/
def computeSignals (ifid : Option IfId) (idex : Option IdEx) (exmem : Option ExMem) (memwb' : Option MemWb) : Signals where
  forwardA := Machine.forwardA idex exmem memwb'
  forwardB := Machine.forwardB idex exmem memwb'
  stallFetch := loadUse ifid idex
  stallDecode := loadUse ifid idex
  bubbleExecute := loadUse ifid idex
  flushFetchDecode := (branchFlush false).1
  flushDecodeExecute := (branchFlush false).2

/-- The drain check (R236), on the latch values the cycle produced. -/
def drained (fetchExhausted : Bool) (ifid : Option IfId) (idex : Option IdEx) (exmem : Option ExMem)
    (memwb : Option MemWb) : Bool :=
  fetchExhausted && ifid.isNone && idex.isNone && exmem.isNone && memwb.isNone

end Sys2Proof.Machine
end

