-- ==== Sys2Proof/Machine/Stages.lean ====
section
/-! DEFINITION. The stage units as combinational functions (46_stages.md): write-back, memory access, execute, decode and
fetch. The order in which a cycle evaluates them is in Cycle.lean. -/

namespace Sys2Proof.Machine

/-! ### Write-back -/

/-- Write-back of a latch that must write (R203): no value is MissingWriteValue, an index above 31 is OutOfRange, index 0
is discarded. -/
def writeBackLatch (regs : RegFile) (l : MemWb) : Except FatalError RegFile :=
  match l.writeValue with
  | none   => .error (.missingWriteValue l.pc l.op .writeBack)
  | some v =>
    match regWrite regs l.rd.value v with
    | some regs' => .ok regs'
    | none       => .error (.outOfRange l.rd.value .write l.pc)

/-- `WriteBack(MEMWB)` (R203), step 1 of the cycle. It has no halt output (R204). -/
def writeBack (regs : RegFile) (memwb : Option MemWb) : Except FatalError RegFile :=
  match memwb with
  | some l => if l.op.writesRF then writeBackLatch regs l else .ok regs
  | none   => .ok regs

/-! ### Memory access -/

/-- `MEMWB'` of a valid EX/MEM: the same instruction with every field unchanged, plus `mem_data` for a LOAD (R200 to R202). -/
def memoryImage (mem : Memory) (l : ExMem) : MemWb where
  toExMem := l
  memData := if l.op = .load then .of (memRead mem l.addr.value) else .absent

/-- What the memory stage leaves in data memory: a STORE writes one cell, everything else nothing (R200 to R202). -/
def memoryEffect (mem : Memory) (exmem : Option ExMem) : Memory :=
  match exmem with
  | some l => if l.op = .store then memWrite mem l.addr.value l.storeVal.value else mem
  | none   => mem

/-- The data-memory port during a cycle (R249): never a read and a write at once (R75). -/
structure DmemPort where
  addr  : Word
  re    : Bool
  we    : Bool
  wdata : Word
  deriving DecidableEq, Repr

/-- What the block drives on the data-memory port (R249, R63). Address and data are not read while `re` and `we` are both
false; the model then drives 0. -/
def dmemPort (exmem : Option ExMem) : DmemPort :=
  match exmem with
  | some l => ⟨l.addr.value, l.op == .load, l.op == .store, l.storeVal.value⟩
  | none   => ⟨0#64, false, false, 0#64⟩

/-! ### Execute -/

/-- Execute (R195 to R199), its dispatch left to the caller: an empty ID/EX produces an empty `EXMEM'` and raises nothing;
otherwise the operands are selected and handed to the operation. -/
def executeStage (operation : ExecuteIn → Except FatalError Executed) (idex : Option IdEx) (sig : Signals)
    (exmem : Option ExMem) (memwb' : Option MemWb) : Except FatalError Executed :=
  match idex with
  | none => .ok ⟨none, none⟩
  | some d =>
    match selectOperands sig.forwardA sig.forwardB exmem memwb' d with
    | .error e  => .error e
    | .ok (a, b) => operation ⟨d, a, b⟩

/-! ### The front end: pc, IF/ID and fetch_exhausted -/

/-- What step 5 hands to decode and fetch, and what fetch leaves: the program counter, IF/ID and `fetch_exhausted`. -/
structure Front where
  pc             : Word
  ifid           : Option IfId
  fetchExhausted : Bool
  deriving DecidableEq, Repr

/-- Step 5 (R233): a taken transfer redirects the program counter, clears IF/ID and resumes fetching. -/
def redirect (front : Front) (transfer : Option Transfer) : Front :=
  match transfer with
  | some t => if t.taken then ⟨t.nextPc, none, false⟩ else front
  | none   => front

/-! ### Decode -/

/-- Decode of a valid IF/ID (R191 to R193): the fields as they stand, absent sources as index 0, `rs1` resolved before
`rs2` (D27). -/
def decodeRecord (f : IfId) (exmem' exmem : Option ExMem) (memwb' : Option MemWb) (regs : RegFile) :
    Except FatalError IdEx :=
  match resolve exmem' exmem memwb' regs f.pc (srcIdx f.record.rs1) with
  | .error e => .error e
  | .ok v1 =>
    match resolve exmem' exmem memwb' regs f.pc (srcIdx f.record.rs2) with
    | .error e => .error e
    | .ok v2 =>
      .ok { op := f.record.op, rd := f.record.rd, rs1 := srcIdx f.record.rs1, rs2 := srcIdx f.record.rs2,
            rs1Val := v1, rs2Val := v2, imm := f.record.imm, pc := f.pc }

/-- Step 6 (R193, R234): the bubble, an empty latch for an empty IF/ID, or the decoded record. -/
def decodeStage (bubble : Bool) (ifid : Option IfId) (exmem' exmem : Option ExMem) (memwb' : Option MemWb)
    (regs : RegFile) : Except FatalError (Option IdEx) :=
  if bubble then .ok none
  else
    match ifid with
    | none => .ok none
    | some f =>
      match decodeRecord f exmem' exmem memwb' regs with
      | .error e => .error e
      | .ok d    => .ok (some d)

/-! ### Fetch -/

/-- The record in a slot, if the slot is within the program: `pc < N` unsigned (R190, D3). -/
def fetchRecord (prog : List PackedWord) (pc : Word) : Option Record := (prog[pc.toNat]?).map Record.ofWord

/-- Step 7 (R190): stall, then exhausted, then in range (D24). -/
def fetchStage (prog : List PackedWord) (stall : Bool) (front : Front) : Front :=
  if stall then front
  else if front.fetchExhausted then { front with ifid := none }
  else
    match fetchRecord prog front.pc with
    | some r => { front with pc := front.pc + 1#64, ifid := some ⟨r, front.pc⟩ }
    | none   => { front with ifid := none, fetchExhausted := true }

end Sys2Proof.Machine
end

