-- ==== Sys2Proof/Machine/Cycle.lean ====
section
/-! DEFINITION. The cycle: the next-state function of 47_orchestrator.md R231, evaluated in reverse pipeline order. -/

namespace Sys2Proof.Machine

/-- `MEMWB'` of step 2: a function of the state at the start of the cycle (R232, path 2). -/
def State.memwbNext (s : State) : Option MemWb := s.exmem.map (memoryImage s.mem)

/-- The data memory after step 2. -/
def State.memNext (s : State) : Memory := memoryEffect s.mem s.exmem

/-- The control signals of step 3. -/
def State.signals (s : State) : Signals := computeSignals s.ifid s.idex s.exmem s.memwbNext

/-- The two operands execute hands to the operation of an ID/EX latch in this cycle (R196). -/
def State.operands (s : State) (d : IdEx) : Except FatalError (Word × Word) :=
  selectOperands s.signals.forwardA s.signals.forwardB s.exmem s.memwbNext d

/-- Execute of step 4, for a given operation. -/
def State.executed (s : State) (operation : ExecuteIn → Except FatalError Executed) : Except FatalError Executed :=
  executeStage operation s.idex s.signals s.exmem s.memwbNext

/-- The front end after step 5, which decode and fetch see. -/
def State.front (s : State) (x : Executed) : Front := redirect ⟨s.pc, s.ifid, s.fetchExhausted⟩ x.transfer

/-- Decode of step 6. -/
def State.decoded (s : State) (x : Executed) (regs : RegFile) : Except FatalError (Option IdEx) :=
  decodeStage s.signals.bubbleExecute (s.front x).ifid x.exmem s.exmem s.memwbNext regs

/-- The front end after step 7. -/
def State.fetched (s : State) (x : Executed) : Front := fetchStage s.prog s.signals.stallFetch (s.front x)

/-- Step 8 (R231): the four latches are written, the cycle is counted, and the drain check sets `halted`. The register
file is the one of step 1, the data memory the one of step 2. -/
def State.completed (s : State) (regs : RegFile) (x : Executed) (idex' : Option IdEx) : State where
  regs := regs
  mem := s.memNext
  prog := s.prog
  pc := (s.fetched x).pc
  ifid := (s.fetched x).ifid
  idex := idex'
  exmem := x.exmem
  memwb := s.memwbNext
  cycleCount := s.cycleCount + 1
  fetchExhausted := (s.fetched x).fetchExhausted
  halted := drained (s.fetched x).fetchExhausted (s.fetched x).ifid idex' x.exmem s.memwbNext
  log := s.log

/-- One cycle (R231), given what execute makes of ID/EX. A fatal error of step 1 leaves the register file and the memory as
they were; one of step 4 or step 6 leaves the effects of steps 1 and 2 (R265, R266). The step order is the priority (R268). -/
def cycle (executed : Except FatalError Executed) (s : State) : StepResult :=
  match writeBack s.regs s.memwb with
  | .error e => abort e s.regs s.mem
  | .ok regs =>
    match executed with
    | .error e => abort e regs s.memNext
    | .ok x =>
      match s.decoded x regs with
      | .error e     => abort e regs s.memNext
      | .ok idex' => .next (s.completed regs x idex')

/-- ID/EX as the cycle before this state would have produced it from a record (R191 to R193): the instruction in EX/MEM is
the one executed in that cycle, the one in MEM/WB was in EX/MEM at its start. -/
def State.decodedBefore (s : State) (f : IfId) : Except FatalError IdEx :=
  decodeRecord f s.exmem (s.memwb.map MemWb.toExMem) s.memwb s.regs

/-- The ID/EX latch in which an instruction executes: the occupied latch, with the operand values and the slot index that it
captured at decode (R192, R29); where ID/EX is empty, the latch decode makes of the instruction, in the slot the program
counter names. (A step only ever asks for the instruction that ID/EX carries.) -/
def State.standing (s : State) (i : Instr) : Except FatalError IdEx :=
  match s.idex with
  | some d => .ok (d.withInstr i)
  | none   => s.decodedBefore ⟨i.toRecord, s.pc⟩

/-- The cycle in which an instruction stands in ID/EX and executes: what each meaning is an application of. -/
def executeCycle (i : Instr) (operation : ExecuteIn → Except FatalError Executed) (s : State) : StepResult :=
  match s.standing i with
  | .error e => abort e s.regs s.mem
  | .ok d    => cycle ((s.presenting d).executed operation) (s.presenting d)

/-- The cycle with an empty ID/EX: execute produces an empty `EXMEM'` and no transfer (R195). -/
def bubbleCycle (s : State) : StepResult := cycle (.ok ⟨none, none⟩) s

end Sys2Proof.Machine
end

