-- ==== Sys2Proof/Machine/AluRegister.lean ====
section
/-! DEFINITION. The six integer register operations (41_alu_register.md). All arithmetic is modulo 2^64; no flag is written
and no arithmetic exception exists (R118). The memory stage passes the result through and write-back writes it to `x[rd]`. -/

namespace Sys2Proof.Machine

/-- ADD (R112): `alu_result <- a + b`. -/
def execAdd (rd rs1 rs2 : RegIdx) (s : State) : StepResult :=
  executeCycle (.add rd rs1 rs2) (fun x => .ok (x.result (x.a + x.b))) s

/-- SUB (R113): `alu_result <- a - b`. -/
def execSub (rd rs1 rs2 : RegIdx) (s : State) : StepResult :=
  executeCycle (.sub rd rs1 rs2) (fun x => .ok (x.result (x.a - x.b))) s

/-- AND (R114): `alu_result <- a & b`. -/
def execAnd (rd rs1 rs2 : RegIdx) (s : State) : StepResult :=
  executeCycle (.and rd rs1 rs2) (fun x => .ok (x.result (x.a &&& x.b))) s

/-- OR (R115): `alu_result <- a | b`. -/
def execOr (rd rs1 rs2 : RegIdx) (s : State) : StepResult :=
  executeCycle (.or rd rs1 rs2) (fun x => .ok (x.result (x.a ||| x.b))) s

/-- XOR (R116): `alu_result <- a ^ b`. -/
def execXor (rd rs1 rs2 : RegIdx) (s : State) : StepResult :=
  executeCycle (.xor rd rs1 rs2) (fun x => .ok (x.result (x.a ^^^ x.b))) s

/-- ADDI (R117): `alu_result <- a + imm`; the `rs2` value ID/EX holds is ignored. -/
def execAddi (rd rs1 : RegIdx) (imm : Word) (s : State) : StepResult :=
  executeCycle (.addi rd rs1 imm) (fun x => .ok (x.result (x.a + imm))) s

end Sys2Proof.Machine
end

