-- ==== Sys2Proof/Machine/ControlTransfer.lean ====
section
/-! DEFINITION. BEQ, BNE, JAL and JALR (43_control_transfer.md). All four resolve in execute; step 5 of the same cycle applies
the redirect (`redirect`, 47_orchestrator.md R233). Slot indices throughout; no target is illegal (R146). -/

namespace Sys2Proof.Machine

/-! ### What each of the four computes -/

/-- BEQ (R141): 64-bit equality of the values decode resolved. -/
def beqOperation (imm : Word) (x : ExecuteIn) : Executed := x.branch (x.a == x.b) (relativeTarget x.pc imm)

/-- BNE (R142). -/
def bneOperation (imm : Word) (x : ExecuteIn) : Executed := x.branch (x.a != x.b) (relativeTarget x.pc imm)

/-- JAL (R143): the link is `pc + 4` in slot units. -/
def jalOperation (imm : Word) (x : ExecuteIn) : Executed := x.jump (linkValue x.pc) (relativeTarget x.pc imm)

/-- JALR (R144): the target is `(a + imm)` with bit 0 cleared. -/
def jalrOperation (imm : Word) (x : ExecuteIn) : Executed := x.jump (linkValue x.pc) (registerTarget x.a imm)

/-- The control-transfer outputs of an instruction (R140, R199): those of the four operations, none for any other. -/
def controlOutputs (i : Instr) (x : ExecuteIn) : Option Transfer :=
  match i with
  | .beq _ _ imm  => (beqOperation imm x).transfer
  | .bne _ _ imm  => (bneOperation imm x).transfer
  | .jal _ imm    => (jalOperation imm x).transfer
  | .jalr _ _ imm => (jalrOperation imm x).transfer
  | .add .. | .sub .. | .and .. | .or .. | .xor .. | .addi .. | .load .. | .store .. | .lui .. | .auipc ..
  | .unsupported .. => none

/-! ### The meanings -/

/-- BEQ (R141). -/
def execBeq (rs1 rs2 : RegIdx) (imm : Word) (s : State) : StepResult :=
  executeCycle (.beq rs1 rs2 imm) (fun x => .ok (beqOperation imm x)) s

/-- BNE (R142). -/
def execBne (rs1 rs2 : RegIdx) (imm : Word) (s : State) : StepResult :=
  executeCycle (.bne rs1 rs2 imm) (fun x => .ok (bneOperation imm x)) s

/-- JAL (R143). -/
def execJal (rd : RegIdx) (imm : Word) (s : State) : StepResult :=
  executeCycle (.jal rd imm) (fun x => .ok (jalOperation imm x)) s

/-- JALR (R144). -/
def execJalr (rd rs1 : RegIdx) (imm : Word) (s : State) : StepResult :=
  executeCycle (.jalr rd rs1 imm) (fun x => .ok (jalrOperation imm x)) s

end Sys2Proof.Machine
end

