-- ==== Sys2Proof/Machine/LoadStore.lean ====
section
/-! DEFINITION. LOAD and STORE (42_load_store.md). Execute computes the address; the memory stage, one cycle later, makes the
access (`memoryImage`, `memoryEffect`); write-back writes a LOAD's value. -/

namespace Sys2Proof.Machine

/-- LOAD (R131): `addr <- a + imm`, no `alu_result`. -/
def execLoad (rd rs1 : RegIdx) (imm : Word) (s : State) : StepResult :=
  executeCycle (.load rd rs1 imm) (fun x => .ok (x.loadFrom (effectiveAddress x.a imm))) s

/-- STORE (R132): `addr <- a + imm`, `store_val <- b`. -/
def execStore (rs1 rs2 : RegIdx) (imm : Word) (s : State) : StepResult :=
  executeCycle (.store rs1 rs2 imm) (fun x => .ok (x.storeTo (effectiveAddress x.a imm) x.b)) s

end Sys2Proof.Machine
end

