-- ==== Sys2Proof/Machine/Unsupported.lean ====
section
/-! DEFINITION. The record with tag 14 or 15 (30_encoding.md R90, 60_exceptions.md R262). -/

namespace Sys2Proof.Machine

/-- An unsupported record that reaches execute raises UnsupportedOperation (R197, R262), in step 4: the older instruction in
MEM/WB has written back and the one in EX/MEM has made its memory access (R266). -/
def execUnsupported (tag : UnsupportedTag) (rd rs1 rs2 : Option RegIdx) (imm : Option Word) (s : State) : StepResult :=
  executeCycle (.unsupported tag rd rs1 rs2 imm) (fun x => .error (.unsupportedOperation tag.op.tag x.pc)) s

end Sys2Proof.Machine
end

