-- ==== Sys2Proof/Machine/UpperImmediate.lean ====
section
/-! DEFINITION. LUI and AUIPC (44_upper_immediate.md). Neither reads a register. -/

namespace Sys2Proof.Machine

/-- LUI (R160): `alu_result <- imm << 12`. -/
def execLui (rd : RegIdx) (imm : Word) (s : State) : StepResult :=
  executeCycle (.lui rd imm) (fun x => .ok (x.result (upperImmediate imm))) s

/-- AUIPC (R161): `alu_result <- (pc * 4) + (imm << 12)`, with the instruction's own slot index. -/
def execAuipc (rd : RegIdx) (imm : Word) (s : State) : StepResult :=
  executeCycle (.auipc rd imm) (fun x => .ok (x.result (pcUpperImmediate x.pc imm))) s

end Sys2Proof.Machine
end

