-- ==== Sys2Proof/Machine/Loader.lean ====
section
/-! DEFINITION. Putting one record where the machine runs it next. A program is loaded from outside the machine (00_scope.md R8,
70_reset_and_hazards.md R292): instruction memory is read-only for the block (10_state.md R41). -/

namespace Sys2Proof.Machine

/-- A program with a word in the slot `pc` names, or behind its last slot where it has no such slot; and the word's slot. -/
def placeWord (prog : List PackedWord) (pc : Word) (w : PackedWord) : List PackedWord × Word :=
  if pc.toNat < prog.length then (prog.set pc.toNat w, pc)
  else (prog ++ [w], BitVec.ofNat 64 prog.length)

/-- The state with a record in its slot of the program, fetched (`pc` one past it) and decoded, so that the next cycle
executes it. A record that decode cannot resolve (a source above 31, R261) waits in IF/ID: the next cycle decodes it. -/
def State.placing (s : State) (w : PackedWord) : State :=
  let p := placeWord s.prog s.pc w
  let f : IfId := ⟨Record.ofWord w, p.2⟩
  let s' := { s with prog := p.1, pc := p.2 + 1#64, fetchExhausted := false, halted := false }
  match s.decodedBefore f with
  | .ok d    => { s' with ifid := none, idex := some d }
  | .error _ => { s' with ifid := some f, idex := none }

end Sys2Proof.Machine
end

