-- ==== Sys2Proof/Machine/Step.lean ====
section
/-! DEFINITION. One step of the machine: one cycle (00_scope.md R15, 47_orchestrator.md R231, R241). -/

namespace Sys2Proof.Machine

/-- One step. A program with a malformed record is refused as a whole before anything runs (30_encoding.md R88). A halted
block executes no cycle and keeps all its state (R230, R275). Otherwise one cycle runs: `exec` of the instruction in
ID/EX, or the cycle with an empty ID/EX. -/
def step (s : State) : Host.Outcome State Fault Refusal :=
  match programDefect s.prog with
  | some (slot, reason) => .refused (.malformedRecord slot reason)
  | none =>
    if s.halted then .next s
    else
      match s.idex with
      | none   => bubbleCycle s
      | some d => exec d.instr s

/-- The state with a word of the opcode table (numbered as `tableWord` says) placed so that the next step runs it. -/
def State.withFetchWord (s : State) (nbits w : Nat) : State :=
  match tableWord nbits w with
  | some v => s.placing v
  | none   => s

end Sys2Proof.Machine
end

