-- ==== Sys2Proof/Machine/Run.lean ====
section
/-! DEFINITION. The host's side: the snapshot (10_state.md R39), fresh start and restore (R290, 47_orchestrator.md R243), the
`run` call (R238 to R242), and the register-file and data-memory accesses the host may make between calls (R26, R74, R245). -/

namespace Sys2Proof.Machine

/-! ### Snapshot, fresh start, restore -/

/-- The snapshot (R39): all of the block's state between cycles, without the register file, the memory and the program. -/
structure Snapshot where
  pc             : Word
  ifid           : Option IfId
  idex           : Option IdEx
  exmem          : Option ExMem
  memwb          : Option MemWb
  cycleCount     : Nat
  fetchExhausted : Bool
  halted         : Bool
  log            : List String
  deriving DecidableEq, Repr

/-- The snapshot of a state. -/
def State.snapshot (s : State) : Snapshot where
  pc := s.pc
  ifid := s.ifid
  idex := s.idex
  exmem := s.exmem
  memwb := s.memwb
  cycleCount := s.cycleCount
  fetchExhausted := s.fetchExhausted
  halted := s.halted
  log := s.log

/-- A register file as the host supplies it: x0 forced to 0 (R8). -/
def RegFile.supplied (rf : RegFile) : RegFile := rf.setIfInBounds 0 0#64

/-- The state a fresh start begins from (`ResetState`, R43, R290): reset does not touch the register file or the memory, which
the host supplies with the program (R8, R292). -/
def State.fresh (prog : List PackedWord) (rf : RegFile) (mem : Memory) : State :=
  { State.reset with regs := rf.supplied, mem := mem, prog := prog }

/-- `Restore(snap)` (R243): any well-typed snapshot is loaded (D40); its log is ignored, and the log of the new call is
empty (R238). -/
def State.restored (prog : List PackedWord) (rf : RegFile) (mem : Memory) (snap : Snapshot) : State where
  regs := rf.supplied
  mem := mem
  prog := prog
  pc := snap.pc
  ifid := snap.ifid
  idex := snap.idex
  exmem := snap.exmem
  memwb := snap.memwb
  cycleCount := snap.cycleCount
  fetchExhausted := snap.fetchExhausted
  halted := snap.halted
  log := []

/-! ### The run call -/

/-- At most `fuel` cycles, none once `halted` is set or `cycle_count` has reached the absolute bound (R238, R239). A raise ends
the call (R265). -/
def runLoop (maxCycles : Nat) : Nat → State → StepResult
  | 0, s => .next s
  | fuel + 1, s =>
    if !s.halted && decide (s.cycleCount < maxCycles) then
      match step s with
      | .next s'   => runLoop maxCycles fuel s'
      | .fault f   => .fault f
      | .refused r => .refused r
    else .next s

/-- A call's loop from a state. A cycle adds one to `cycle_count` (R237), so `maxCycles - cycle_count` rounds are enough. -/
def callFrom (maxCycles : Nat) (s : State) : StepResult := runLoop maxCycles (maxCycles - s.cycleCount) s

/-- A snapshot to resume, with the program it was taken under: the host must pass that program again (R246). -/
structure Resume where
  snapshot : Snapshot
  prog     : List PackedWord
  deriving DecidableEq, Repr

/-- `run(program, register_file, memory, max_cycles, resume_from)` (R238). The next state holds the returned snapshot
(`State.snapshot`), and the register file and memory as the call leaves them. A malformed program is refused first, as the first
line of R238 has it; R246 gives a changed program no meaning, so that it is refused second is the model's choice (log 13). -/
def run (prog : List PackedWord) (rf : RegFile) (mem : Memory) (maxCycles : Nat) (resume : Option Resume) : StepResult :=
  match programDefect prog with
  | some (slot, reason) => .refused (.malformedRecord slot reason)
  | none =>
    match resume with
    | none   => callFrom maxCycles (State.fresh prog rf mem)
    | some r =>
      if r.prog = prog then callFrom maxCycles (State.restored prog rf mem r.snapshot)
      else .refused .programChanged

/-! ### Host access between calls -/

/-- OutOfRange as the host gets it, outside any call (R26, R261): the index and the access, and no slot. -/
structure HostOutOfRange where
  index  : RegIdx
  access : Access
  deriving DecidableEq, Repr

/-- The host's register read (R26). -/
def State.hostRead (s : State) (i : RegIdx) : Except HostOutOfRange Word :=
  match regRead s.regs i with
  | some v => .ok v
  | none   => .error ⟨i, .read⟩

/-- The host's register write (R26, R23): the value, a host integer of any width, is truncated to 64 bits. Latches are not
updated (R245). -/
def State.hostWrite (s : State) (i : RegIdx) (v : Int) : Except HostOutOfRange State :=
  match regWrite s.regs i (BitVec.ofInt 64 v) with
  | some regs => .ok { s with regs := regs }
  | none      => .error ⟨i, .write⟩

/-- The full-dump enumeration of the registers (R26): index and value, x0 to x31. -/
def State.hostRegisters (s : State) : List (Nat × Word) :=
  (List.range 32).map fun i => (i, (regRead s.regs (BitVec.ofNat 6 i)).getD 0#64)

/-- The host's memory load (R74). -/
def State.hostLoad (s : State) (addr : Word) : Word := memRead s.mem addr

/-- The host's memory store (R74). -/
def State.hostStore (s : State) (addr v : Word) : State := { s with mem := memWrite s.mem addr v }

/-- The full-dump enumeration of the memory (R74): every mapped address with its value, ascending. -/
def State.hostMemory (s : State) : List (Nat × Word) := s.mem

end Sys2Proof.Machine
end

