-- ==== Sys2Proof/Machine/Ports.lean ====
section
/-! DEFINITION. The hardware ports and clocking of 47_orchestrator.md section 4 (R248, R249): the block with the registers a
call needs around the state of State.lean, and what one rising edge of `clk` does to it. -/

namespace Sys2Proof.Machine

/-- The block at its ports. `core` is the state of the block with what the host owns and drives (register file, data memory,
instruction memory); `busy`, `maxCycles` and `fault` last for a call. -/
structure Block where
  core      : State
  /-- 1 while the call runs (R249). -/
  busy      : Bool
  /-- The absolute bound of the call, sampled at start (R249). -/
  maxCycles : Word
  /-- The fatal error the call ended with: `fault_valid`, `fault_code` and `fault_info` (R249, R265). -/
  fault     : Option FatalError
  deriving DecidableEq, Repr

/-- The input ports of one clock edge (R249). The instruction and data ports are the program and the memory of the state. -/
structure PortsIn where
  start     : Bool
  resume    : Bool
  snapIn    : Snapshot
  maxCycles : Word
  rfHostIdx : RegIdx
  rfHostWe  : Bool
  rfHostWdata : Word
  deriving DecidableEq, Repr

/-- The outcome of a clock edge. -/
abbrev EdgeResult := Host.Outcome Block Fault Refusal

/-- Whether a call goes on: not halted and below the bound (R248). -/
def State.callGoesOn (s : State) (maxCycles : Word) : Bool := !s.halted && decide (s.cycleCount < maxCycles.toNat)

/-- Clocking in a call: the state the edge registers, and `busy` low once the call is over (R248). -/
def Block.running (b : Block) (s : State) : Block := { b with core := s, busy := s.callGoesOn b.maxCycles }

/-- The edge of a `start` pulse: the block loads its state, the reset state or `snap_in`, and runs no cycle (R249). The host has
validated the program before (R88): a malformed one is refused. -/
def Block.started (b : Block) (p : PortsIn) : EdgeResult :=
  match programDefect b.core.prog with
  | some (slot, reason) => .refused (.malformedRecord slot reason)
  | none =>
    let s := if p.resume then State.restored b.core.prog b.core.regs b.core.mem p.snapIn
             else State.fresh b.core.prog b.core.regs b.core.mem
    .next { core := s, busy := s.callGoesOn p.maxCycles, maxCycles := p.maxCycles, fault := none }

/-- An edge with `busy = 1`: one cycle (R248). A fatal error drops `busy`, sets the fault outputs and commits only what precedes
the faulting step (R265). -/
def Block.cycled (b : Block) : EdgeResult :=
  match step b.core with
  | .next s    => .next (b.running s)
  | .fault f   =>
    .next { b with core := { b.core with regs := f.remains.regs, mem := f.remains.mem }, busy := false,
                   fault := some f.info }
  | .refused r => .refused r

/-- An edge with `busy = 0`: the host's register-file port (R249, R26). An index above 31 is OutOfRange to the host and writes
nothing. -/
def Block.idle (b : Block) (p : PortsIn) : EdgeResult :=
  if p.rfHostWe then
    match regWrite b.core.regs p.rfHostIdx p.rfHostWdata with
    | some regs => .next { b with core := { b.core with regs := regs } }
    | none      => .next b
  else .next b

/-- One rising edge of `clk` (R248, R249). The host acts between calls only (R245): a `start` pulse or a host register write
while `busy` is refused. -/
def Block.edge (b : Block) (p : PortsIn) : EdgeResult :=
  if b.busy then
    if p.start || p.rfHostWe then .refused .hostAccessDuringCall else b.cycled
  else if p.start then b.started p
  else b.idle p

/-- `n` edges with the same inputs. -/
def Block.edges (p : PortsIn) : Nat → Block → EdgeResult
  | 0, b => .next b
  | n + 1, b =>
    match b.edge p with
    | .next b'   => Block.edges p n b'
    | .fault f   => .fault f
    | .refused r => .refused r

/-- `fault_valid` (R249). -/
def Block.faultValid (b : Block) : Bool := b.fault.isSome

/-- `fault_code` (R249, R260; D13); 0 while `fault_valid` is low. -/
def Block.faultCode (b : Block) : BitVec 2 :=
  match b.fault with
  | some (.outOfRange ..)           => 1
  | some (.unsupportedOperation ..) => 2
  | some (.missingWriteValue ..)    => 3
  | none                            => 0

/-- `snap_out` (R249): valid when `busy = 0` and `fault_valid = 0`. -/
def Block.snapOut (b : Block) : Option Snapshot :=
  if b.busy || b.faultValid then none else some b.core.snapshot

/-- `rf_host_rdata` (R249): usable only while `busy = 0` (R245). In a cycle in which the host also writes the same index, R249 does
not say whether the old or the new value shows (R205's write-through is between write-back and decode); that it is the value
before the write, which the edge at the end of the cycle commits, is the model's choice (log 12). -/
def Block.rfHostRdata (b : Block) (i : RegIdx) : Option Word := if b.busy then none else regRead b.core.regs i

/-- `halted` (R249). -/
def Block.haltedOut (b : Block) : Bool := b.core.halted

/-- The data-memory port (R249): what the cycle about to run drives; no access while the block is idle (R275). Where
write-back raises, step 2 does not run and the edge commits no memory write (R265): `we` is low. That `re` is low there too,
and what address and data show, is the model's choice (log 12). -/
def Block.dmem (b : Block) : DmemPort :=
  if b.busy then
    match writeBack b.core.regs b.core.memwb with
    | .ok _    => dmemPort b.core.exmem
    | .error _ => dmemPort none
  else dmemPort none

/-- The slot that step 7 of a cycle reads: the program counter after the redirect of step 5 (R28, R233). -/
def State.fetchSlot (s : State) : Word :=
  match s.idex with
  | none => s.pc
  | some d =>
    match s.operands d with
    | .ok (a, b) => (redirect ⟨s.pc, s.ifid, s.fetchExhausted⟩ (controlOutputs d.instr ⟨d, a, b⟩)).pc
    | .error _   => s.pc

/-- `imem_addr` (R249): "pc, driven during step 7". While no step 7 runs (an idle block, a cycle that raises) or fetch reads
nothing (a stall, an exhausted fetch), what the port shows is not read; there the model's choice is log 12's. -/
def Block.imemAddr (b : Block) : Word := if b.busy then b.core.fetchSlot else b.core.pc

/-- `imem_data` (R249): the packed record at `imem_addr`. At or beyond N fetch reads no record (R190); the model then has 0. -/
def Block.imemData (b : Block) (addr : Word) : PackedWord := (b.core.prog[addr.toNat]?).getD 0#96

/-- `imem_len` (R249): N. -/
def Block.imemLen (b : Block) : Word := BitVec.ofNat 64 b.core.prog.length

/-- The block before its first call, around a program, a register file and a memory the host supplies. -/
def Block.idleWith (prog : List PackedWord) (rf : RegFile) (mem : Memory) : Block where
  core := State.fresh prog rf mem
  busy := false
  maxCycles := 0#64
  fault := none

end Sys2Proof.Machine
end

