-- ==== Sys2Proof/Machine/Sequential.lean ====
section
/-! DEFINITION. The sequential reference model of 70_reset_and_hazards.md R298: the instruction-at-a-time machine `ISS` that the
pipeline is equivalent to when no fatal error is raised. Its formulas are those of the instruction rules. -/

namespace Sys2Proof.Machine

/-- The state of the reference model: the slot of the next instruction, the registers and the memory. -/
structure SeqState where
  pc   : Word
  regs : RegFile
  mem  : Memory
  deriving DecidableEq, Repr

/-- The result of an instruction of the reference model. -/
abbrev SeqResult := Except FatalError SeqState

/-- `x[rd] <- v` and go to a slot. -/
def SeqState.write (u : SeqState) (rd : RegIdx) (v next : Word) : SeqResult :=
  match regWrite u.regs rd v with
  | some regs => .ok { u with regs := regs, pc := next }
  | none      => .error (.outOfRange rd .write u.pc)

/-- The case analysis of R298 for one instruction, with the two source values read. -/
def SeqState.apply (u : SeqState) (i : Instr) (a b : Word) : SeqResult :=
  match i with
  | .add rd _ _      => u.write rd (a + b) (u.pc + 1#64)
  | .sub rd _ _      => u.write rd (a - b) (u.pc + 1#64)
  | .and rd _ _      => u.write rd (a &&& b) (u.pc + 1#64)
  | .or rd _ _       => u.write rd (a ||| b) (u.pc + 1#64)
  | .xor rd _ _      => u.write rd (a ^^^ b) (u.pc + 1#64)
  | .addi rd _ imm   => u.write rd (a + imm) (u.pc + 1#64)
  | .load rd _ imm   => u.write rd (memRead u.mem (effectiveAddress a imm)) (u.pc + 1#64)
  | .store _ _ imm   => .ok { u with mem := memWrite u.mem (effectiveAddress a imm) b, pc := u.pc + 1#64 }
  | .beq _ _ imm     => .ok { u with pc := if a = b then relativeTarget u.pc imm else u.pc + 1#64 }
  | .bne _ _ imm     => .ok { u with pc := if a ≠ b then relativeTarget u.pc imm else u.pc + 1#64 }
  | .jal rd imm      => u.write rd (linkValue u.pc) (relativeTarget u.pc imm)
  | .jalr rd _ imm   => u.write rd (linkValue u.pc) (registerTarget a imm)
  | .lui rd imm      => u.write rd (upperImmediate imm) (u.pc + 1#64)
  | .auipc rd imm    => u.write rd (pcUpperImmediate u.pc imm) (u.pc + 1#64)
  | .unsupported tag .. => .error (.unsupportedOperation tag.op.tag u.pc)

/-- One instruction of the reference model: both source fields are read first (R298). -/
def SeqState.exec (u : SeqState) (i : Instr) : SeqResult :=
  match regRead u.regs i.src1 with
  | none   => .error (.outOfRange i.src1 .read u.pc)
  | some a =>
    match regRead u.regs i.src2 with
    | none   => .error (.outOfRange i.src2 .read u.pc)
    | some b => u.apply i a b

/-- One round of the loop of R298: at or past the end of the program the machine has stopped and stays. (A malformed slot
cannot be met: the program is refused as a whole, R88.) -/
def SeqState.step (prog : List PackedWord) (u : SeqState) : SeqResult :=
  match prog[u.pc.toNat]? with
  | none   => .ok u
  | some w => u.exec (Record.ofWord w).instr

/-- `k` rounds. -/
def SeqState.run (prog : List PackedWord) : Nat → SeqState → SeqResult
  | 0, u => .ok u
  | k + 1, u =>
    match u.step prog with
    | .ok u'   => SeqState.run prog k u'
    | .error e => .error e

/-- The reference model has stopped: `pc >= N` (R298). -/
def SeqState.stopped (prog : List PackedWord) (u : SeqState) : Bool := decide (prog.length ≤ u.pc.toNat)

end Sys2Proof.Machine
end

