-- ==== Sys2Proof/Safety.lean ====
section
/-! DEFINITION. The terms claims are stated in: when each part of a cycle raises nothing, what a cycle does around the instruction
that executes, and the invariants of the state at a cycle boundary (10_state.md R44). -/

namespace Sys2Proof.Machine

/-! ### When a cycle raises nothing -/

/-- Step 1 raises nothing: a writing instruction in MEM/WB carries its write value and a destination index that exists
(R203, R23). -/
def State.WriteBackReady (s : State) : Prop :=
  ∀ l, s.memwb = some l → l.op.writesRF = true → l.writeValue ≠ none ∧ l.rd.value.toNat ≤ 31

/-- Decode can resolve source index `r` in a cycle without a load-use stall (R192): index 0, the destination of the executing
instruction, the destination of an instruction in EX/MEM whose value the memory stage completes, or a register that exists. -/
def State.SourceReady (s : State) (r : RegIdx) : Prop :=
  r = 0#6 ∨ (∃ d, s.idex = some d ∧ d.op.writesRF = true ∧ d.rd.value = r) ∨
    (∃ p, s.exmem = some p ∧ p.writesReg r = true ∧ (p.op = .load ∨ p.aluResult.present = true)) ∨
    ((∀ p, s.exmem = some p → p.writesReg r = false) ∧ r.toNat ≤ 31)

/-- Step 6 raises nothing: the waiting record, if decode runs on it, has sources decode can resolve. -/
def State.DecodeReady (s : State) : Prop :=
  ∀ f, s.ifid = some f → loadUse s.ifid s.idex = true ∨
    (s.SourceReady (srcIdx f.record.rs1) ∧ s.SourceReady (srcIdx f.record.rs2))

/-- No bypass supplies source index `r` (R192): neither the executing instruction nor the one in EX/MEM writes it. -/
def State.NotBypassed (s : State) (r : RegIdx) : Prop :=
  (∀ d, s.idex = some d → ¬ (d.op.writesRF = true ∧ d.rd.value = r)) ∧ ∀ p, s.exmem = some p → p.writesReg r = false

/-- The program is admitted and the block is running: the next step is a cycle. -/
def State.Running (s : State) : Prop := programDefect s.prog = none ∧ s.halted = false

/-! ### What a cycle does around the instruction that executes -/

/-- MEM/WB after a cycle (R200 to R202): what EX/MEM held, every field unchanged, with `mem_data` present for a LOAD alone. -/
def State.MemoryStageDone (s t : State) : Prop :=
  (s.exmem = none → t.memwb = none) ∧
    ∀ p, s.exmem = some p → ∃ l, t.memwb = some l ∧ l.toExMem = p ∧
      l.memData.toOption = if p.op = .load then some (memRead s.mem p.addr.value) else none

/-- EX/MEM after a cycle in which `d` executes (R198): the fields copied from ID/EX, and each computed field present with the
given value, or absent. -/
def State.ExMemBuilt (t : State) (d : IdEx) (aluResult addr storeVal : Option Word) : Prop :=
  ∃ e, t.exmem = some e ∧ e.op = d.op ∧ e.rd = d.rd ∧ e.rs1 = d.rs1 ∧ e.rs2 = d.rs2 ∧ e.imm = d.imm ∧ e.pc = d.pc ∧
    e.aluResult.toOption = aluResult ∧ e.addr.toOption = addr ∧ e.storeVal.toOption = storeVal

/-- The part of a completed cycle that the executing instruction has no say in: the older instruction in MEM/WB has written
back (R203), the one in EX/MEM has passed the memory stage (R200 to R202), the cycle is counted (R237), the program is as before
(R41), and `halted` is the drain check (R236). -/
structure State.AroundExecute (s t : State) : Prop where
  regs       : writeBack s.regs s.memwb = .ok t.regs
  mem        : t.mem = memoryEffect s.mem s.exmem
  memwb      : s.MemoryStageDone t
  prog       : t.prog = s.prog
  cycleCount : t.cycleCount = s.cycleCount + 1
  halted     : t.halted = drained t.fetchExhausted t.ifid t.idex t.exmem t.memwb

/-- The front end after a cycle that fetched at slot `pc` (R190): the record of that slot and `pc + 1`, or past the end an empty
IF/ID and `fetch_exhausted`. -/
def State.FetchedAt (t : State) (prog : List PackedWord) (pc : Word) : Prop :=
  (∀ w, prog[pc.toNat]? = some w →
    t.ifid = some ⟨Record.ofWord w, pc⟩ ∧ t.pc = pc + 1#64 ∧ t.fetchExhausted = false) ∧
  (prog[pc.toNat]? = none → t.ifid = none ∧ t.pc = pc ∧ t.fetchExhausted = true)

/-- The front end of a cycle without a transfer (R190, R234): held by the stall, empty once fetch is exhausted, fetched
otherwise. -/
def State.FrontAdvanced (s t : State) : Prop :=
  (loadUse s.ifid s.idex = true →
    t.ifid = s.ifid ∧ t.pc = s.pc ∧ t.fetchExhausted = s.fetchExhausted ∧ t.idex = none) ∧
  (loadUse s.ifid s.idex = false → s.fetchExhausted = true →
    t.ifid = none ∧ t.pc = s.pc ∧ t.fetchExhausted = true) ∧
  (loadUse s.ifid s.idex = false → s.fetchExhausted = false → t.FetchedAt s.prog s.pc)

/-- The front end of a cycle with a taken transfer (R233): the target is fetched, and the instruction in IF/ID is gone. -/
def State.RedirectedTo (s t : State) (target : Word) : Prop := t.idex = none ∧ t.FetchedAt s.prog target

/-! ### Invariants at a cycle boundary -/

/-- What holds of the state at every cycle boundary reached from reset (10_state.md R44, 45_control_unit.md R179, R180,
60_exceptions.md R263). -/
structure State.Inv (s : State) : Prop where
  /-- R44 (1), R21. -/
  x0_zero : s.regs[0] = 0#64
  /-- The memory is in canonical form. -/
  mem_wf : s.mem.wf
  /-- R44 (2). -/
  fetch_live : s.ifid ≠ none → s.fetchExhausted = false
  /-- R44 (3). -/
  halted_drained : s.halted = true →
    s.ifid = none ∧ s.idex = none ∧ s.exmem = none ∧ s.memwb = none ∧ s.fetchExhausted = true
  /-- R198: an instruction in EX/MEM has passed execute. -/
  exmem_done : ∀ p, s.exmem = some p →
    p.op.supported = true ∧ (p.op.writesRF = true → p.op ≠ .load → p.aluResult.present = true)
  /-- R263: an instruction in MEM/WB has its write value. -/
  memwb_done : ∀ l, s.memwb = some l →
    l.op.supported = true ∧ (l.op.writesRF = true → l.writeValue ≠ none)
  /-- R180, R44 (4): a LOAD in EX/MEM has no consumer in ID/EX. -/
  load_apart : ∀ p d, s.exmem = some p → s.idex = some d → p.op = .load → p.rd.value ≠ 0#6 →
    d.rs1 ≠ p.rd.value ∧ d.rs2 ≠ p.rd.value
  /-- R179: ID/EX has captured the value that EX/MEM is going to write. -/
  captured : ∀ p d v, s.exmem = some p → s.idex = some d → p.writeValue = some v → p.rd.value ≠ 0#6 →
    (d.rs1 = p.rd.value → d.rs1Val = v) ∧ (d.rs2 = p.rd.value → d.rs2Val = v)
  /-- R21: an instruction sees 0 as the value of x0. -/
  zero_captured : ∀ d, s.idex = some d → (d.rs1 = 0#6 → d.rs1Val = 0#64) ∧ (d.rs2 = 0#6 → d.rs2Val = 0#64)

/-! ### Transfers and sources -/

/-- The instruction in ID/EX takes its branch or jump in this cycle (R141 to R144). -/
def IdEx.takes (d : IdEx) : Bool :=
  match d.op with
  | .beq => d.rs1Val == d.rs2Val
  | .bne => d.rs1Val != d.rs2Val
  | .jal | .jalr => true
  | .add | .sub | .and | .or | .xor | .addi | .load | .store | .lui | .auipc | .tag14 | .tag15 => false

/-- The cycle about to run takes a transfer. -/
def State.redirects (s : State) : Bool := s.idex.any IdEx.takes

/-- `v` is what source index `r` resolves to in the cycle from `s` to `t` (R192, R174): 0 for index 0; else the write value of
the instruction executed in the cycle; else the write value the memory stage completes for the one in EX/MEM at its start; else
the register file after the cycle's write-back. -/
def State.SourceValue (s t : State) (r : RegIdx) (v : Word) : Prop :=
  (r = 0#6 → v = 0#64) ∧
    (r ≠ 0#6 → (∀ c, t.exmem = some c → c.writesReg r = true → c.writeValue = some v) ∧
      ((∀ c, t.exmem = some c → c.writesReg r = false) →
        (∀ p, s.exmem = some p → p.writesReg r = true → (memoryImage s.mem p).writeValue = some v) ∧
        ((∀ p, s.exmem = some p → p.writesReg r = false) → regRead t.regs r = some v)))

/-- `v` is what the multiplexer supplies under a select for an operand that decode resolved to `v0` (R196, R37): that value
itself, the result in EX/MEM (a LOAD has none there), or the write value in `MEMWB'`. -/
def State.Supplies (s : State) (v0 : Word) : Forward → Word → Prop
  | .none, v      => v = v0
  | .fromExMem, v => ∃ p, s.exmem = some p ∧ p.op.writesRF = true ∧ p.op ≠ .load ∧ p.aluResult.toOption = some v
  | .fromMemWb, v => ∃ l, s.memwbNext = some l ∧ l.writeValue = some v

/-! ### Runs -/

/-- `n` steps of the machine that all answer a next state. -/
def stepsTo : Nat → State → Option State
  | 0, s => some s
  | n + 1, s =>
    match step s with
    | .next t => stepsTo n t
    | .fault _ => none
    | .refused _ => none

/-- What a run has done, counted cycle by cycle: instructions that have written back, passed the memory stage and executed;
load-use stalls; taken transfers; and whether the instruction executed last took one. -/
structure Tally where
  retired   : Nat
  accessed  : Nat
  executed  : Nat
  stalls    : Nat
  transfers : Nat
  lastTaken : Bool
  deriving DecidableEq, Repr

def Tally.zero : Tally := ⟨0, 0, 0, 0, 0, false⟩

/-- The tally after the cycle that starts at a state. A halted block runs no cycle and counts nothing: its latches are empty. -/
def Tally.after (c : Tally) (s : State) : Tally where
  retired := c.retired + s.memwb.isSome.toNat
  accessed := c.accessed + s.exmem.isSome.toNat
  executed := c.executed + s.idex.isSome.toNat
  stalls := c.stalls + (loadUse s.ifid s.idex).toNat
  transfers := c.transfers + s.redirects.toNat
  lastTaken := if s.idex.isSome then s.redirects else c.lastTaken

/-- `stepsTo` with the tally of its cycles. -/
def tallyTo : Nat → State → Tally → Option (State × Tally)
  | 0, s, c => some (s, c)
  | n + 1, s, c =>
    match step s with
    | .next t => tallyTo n t (c.after s)
    | .fault _ => none
    | .refused _ => none

/-- The taken transfers among all executed instructions but the last: T' of R300. -/
def Tally.transfersBeforeLast (c : Tally) : Nat := c.transfers - c.lastTaken.toNat

end Sys2Proof.Machine
end

