-- ==== Sys2Proof/Certificates/Slice0/Obligations.lean ====
section
/-! DEFINITION. The statements for the provers: the numbered rules of the spec as claims about the model. -/

open Sys2Proof Sys2Proof.Machine

/-! ### Encoding (30_encoding.md) -/

/-- 30_encoding.md section 2 (R85, R87): the decoder reads back every instruction with every operand at every value. -/
def Obligations.DecodeOfEncodeIsTheInstruction : Prop :=
  ∀ i : Instr, decodeWord (encode i) = .instr i

/-- R87: the header match values and the decoder: which words spell which operation, which are refused and why, and which bits
the fields of the instruction come from. -/
def Obligations.DecoderFollowsItsTable : Prop :=
  ∀ w : PackedWord,
    (∀ o : Op, header w &&& headerMask o = headerMatch o ↔
      ∃ i, decodeWord w = .instr i ∧ headerMatch i.op = headerMatch o) ∧
    (decodeWord w = .refused .reservedBits ↔ w.extractLsb' 26 6 ≠ 0#6) ∧
    (decodeWord w = .refused .badShape ↔
      w.extractLsb' 26 6 = 0#6 ∧ (w.extractLsb' 0 4).toNat < 14 ∧
        ∀ o : Op, o.tag = w.extractLsb' 0 4 → w.extractLsb' 4 4 ≠ (headerMatch o).extractLsb' 4 4) ∧
    (∀ i, decodeWord w = .instr i →
      i.op.tag = w.extractLsb' 0 4 ∧
      i.toRecord.rd = (if w.getLsbD 4 then .of (w.extractLsb' 8 6) else .absent) ∧
      i.toRecord.rs1 = (if w.getLsbD 5 then .of (w.extractLsb' 14 6) else .absent) ∧
      i.toRecord.rs2 = (if w.getLsbD 6 then .of (w.extractLsb' 20 6) else .absent) ∧
      i.toRecord.imm = (if w.getLsbD 7 then .of (w.extractLsb' 32 64) else .absent))

/-- 30_encoding.md section 2 (R85): "A decoder ignores don't-care bits." -/
def Obligations.DecoderIgnoresDontCareBits : Prop :=
  ∀ w w' : PackedWord,
    w.extractLsb' 0 8 = w'.extractLsb' 0 8 → reservedBits w = reservedBits w' →
    (w.getLsbD 4 = true → w.extractLsb' 8 6 = w'.extractLsb' 8 6) →
    (w.getLsbD 5 = true → w.extractLsb' 14 6 = w'.extractLsb' 14 6) →
    (w.getLsbD 6 = true → w.extractLsb' 20 6 = w'.extractLsb' 20 6) →
    (w.getLsbD 7 = true → w.extractLsb' 32 64 = w'.extractLsb' 32 64) →
    decodeWord w = decodeWord w'

/-- 95_test_vectors.md 2.1 and its programs: words of every family decode to the instruction they stand for. -/
def Obligations.SpecWordsDecode : Prop :=
  decodeWord 0x0000000000000005000001B5#96 = .instr (.addi 1 0 5) ∧
  decodeWord 0xFFFFFFFFFFFFFFFF000041B5#96 = .instr (.addi 1 1 (-1)) ∧
  decodeWord 0x000000000000000000204370#96 = .instr (.add 3 1 2) ∧
  decodeWord 0x0000000000000000002040E7#96 = .instr (.store 1 2 0) ∧
  decodeWord 0x0000000000000000000043B6#96 = .instr (.load 3 1 0) ∧
  decodeWord 0x0000000000000002002040E8#96 = .instr (.beq 1 2 2) ∧
  decodeWord 0x00000000000000030000059A#96 = .instr (.jal 5 3) ∧
  decodeWord 0x0000000000000001000147BB#96 = .instr (.jalr 7 5 1) ∧
  decodeWord 0x00000000000000010000019C#96 = .instr (.lui 1 1) ∧
  decodeWord 0x00000000000000000000000E#96 = .instr (.unsupported .tag14 none none none none) ∧
  decodeWord 0x0000000000000005040001B5#96 = .refused .reservedBits ∧
  decodeWord 0x000000000000000000000135#96 = .refused .badShape

/-- 30_encoding.md (R88), 47_orchestrator.md (R238): a program with a malformed record anywhere is refused as a whole, before any
cycle, by any call, fresh or resumed. That every step of any state with such a program refuses too is the model's reading (log 7),
and that it does so even where the snapshot was taken under another program rests on the order of R238 (log 13). A record in
abstract form is malformed exactly when it is a supported operation with other presence bits than its shape. -/
def Obligations.MalformedProgramIsRefusedWhole : Prop :=
  (∀ prog : List PackedWord, (∃ w ∈ prog, ∃ r, decodeWord w = .refused r) →
    ∃ k w r, prog[k]? = some w ∧ decodeWord w = .refused r ∧
      (∀ s : State, s.prog = prog → step s = .refused (.malformedRecord k r)) ∧
      ∀ (rf : RegFile) (mem : Memory) (n : Nat) (resume : Option Resume),
        run prog rf mem n resume = .refused (.malformedRecord k r)) ∧
  (∀ r : Record, (∃ d, decodeWord r.pack = .refused d) ↔ ∃ p, r.op.shape = some p ∧ r.presence ≠ p)

/-! ### The instruction that executes (sections 41 to 44): its result, completion and surroundings -/

/-- 41_alu_register.md, EX lines of R112 to R116: ADD, SUB, AND, OR and XOR. -/
def Obligations.RegisterOperationsComplete : Prop :=
  ∀ (s : State) (d : IdEx) (rd rs1 rs2 : RegIdx) (a b : Word),
    s.idex = some d → s.WriteBackReady → s.operands d = .ok (a, b) → s.DecodeReady →
    (d.instr = .add rd rs1 rs2 → ∃ t, exec (.add rd rs1 rs2) s = .next t ∧
      t.ExMemBuilt d (some (a + b)) none none ∧ s.AroundExecute t ∧ s.FrontAdvanced t) ∧
    (d.instr = .sub rd rs1 rs2 → ∃ t, exec (.sub rd rs1 rs2) s = .next t ∧
      t.ExMemBuilt d (some (a - b)) none none ∧ s.AroundExecute t ∧ s.FrontAdvanced t) ∧
    (d.instr = .and rd rs1 rs2 → ∃ t, exec (.and rd rs1 rs2) s = .next t ∧
      t.ExMemBuilt d (some (a &&& b)) none none ∧ s.AroundExecute t ∧ s.FrontAdvanced t) ∧
    (d.instr = .or rd rs1 rs2 → ∃ t, exec (.or rd rs1 rs2) s = .next t ∧
      t.ExMemBuilt d (some (a ||| b)) none none ∧ s.AroundExecute t ∧ s.FrontAdvanced t) ∧
    (d.instr = .xor rd rs1 rs2 → ∃ t, exec (.xor rd rs1 rs2) s = .next t ∧
      t.ExMemBuilt d (some (a ^^^ b)) none none ∧ s.AroundExecute t ∧ s.FrontAdvanced t)

/-- EX lines of R117, R160 and R161: ADDI, LUI and AUIPC. -/
def Obligations.ImmediateOperationsComplete : Prop :=
  ∀ (s : State) (d : IdEx) (rd rs1 : RegIdx) (imm a b : Word),
    s.idex = some d → s.WriteBackReady → s.operands d = .ok (a, b) → s.DecodeReady →
    (d.instr = .addi rd rs1 imm → ∃ t, exec (.addi rd rs1 imm) s = .next t ∧
      t.ExMemBuilt d (some (a + imm)) none none ∧ s.AroundExecute t ∧ s.FrontAdvanced t) ∧
    (d.instr = .lui rd imm → ∃ t, exec (.lui rd imm) s = .next t ∧
      t.ExMemBuilt d (some (imm <<< 12)) none none ∧ s.AroundExecute t ∧ s.FrontAdvanced t) ∧
    (d.instr = .auipc rd imm → ∃ t, exec (.auipc rd imm) s = .next t ∧
      t.ExMemBuilt d (some (d.pc * 4#64 + imm <<< 12)) none none ∧
      s.AroundExecute t ∧ s.FrontAdvanced t)

/-- EX lines of R131 and R132: LOAD and STORE in execute: the address, and a STORE's data; no `alu_result`. -/
def Obligations.LoadAndStoreComputeTheirAddress : Prop :=
  ∀ (s : State) (d : IdEx) (rd rs1 rs2 : RegIdx) (imm a b : Word),
    s.idex = some d → s.WriteBackReady → s.operands d = .ok (a, b) → s.DecodeReady →
    (d.instr = .load rd rs1 imm → ∃ t, exec (.load rd rs1 imm) s = .next t ∧
      t.ExMemBuilt d none (some (a + imm)) none ∧ s.AroundExecute t ∧ s.FrontAdvanced t) ∧
    (d.instr = .store rs1 rs2 imm → ∃ t, exec (.store rs1 rs2 imm) s = .next t ∧
      t.ExMemBuilt d none (some (a + imm)) (some b) ∧
      s.AroundExecute t ∧ s.FrontAdvanced t)

/-- EX lines of R141 and R142: a taken BEQ or BNE redirects to `pc + imm`, whatever waits in IF/ID. -/
def Obligations.TakenBranchesRedirect : Prop :=
  ∀ (s : State) (d : IdEx) (rs1 rs2 : RegIdx) (imm : Word),
    s.idex = some d → s.WriteBackReady →
    (d.instr = .beq rs1 rs2 imm → d.rs1Val = d.rs2Val → ∃ t, exec (.beq rs1 rs2 imm) s = .next t ∧
      t.ExMemBuilt d none none none ∧ s.AroundExecute t ∧ s.RedirectedTo t (d.pc + imm)) ∧
    (d.instr = .bne rs1 rs2 imm → d.rs1Val ≠ d.rs2Val → ∃ t, exec (.bne rs1 rs2 imm) s = .next t ∧
      t.ExMemBuilt d none none none ∧ s.AroundExecute t ∧ s.RedirectedTo t (d.pc + imm))

/-- EX lines of R141 and R142: a BEQ or BNE that is not taken redirects nothing. -/
def Obligations.UntakenBranchesFallThrough : Prop :=
  ∀ (s : State) (d : IdEx) (rs1 rs2 : RegIdx) (imm : Word),
    s.idex = some d → s.WriteBackReady → s.DecodeReady →
    (d.instr = .beq rs1 rs2 imm → d.rs1Val ≠ d.rs2Val → ∃ t, exec (.beq rs1 rs2 imm) s = .next t ∧
      t.ExMemBuilt d none none none ∧ s.AroundExecute t ∧ s.FrontAdvanced t) ∧
    (d.instr = .bne rs1 rs2 imm → d.rs1Val = d.rs2Val → ∃ t, exec (.bne rs1 rs2 imm) s = .next t ∧
      t.ExMemBuilt d none none none ∧ s.AroundExecute t ∧ s.FrontAdvanced t)

/-- EX lines of R143 and R144: JAL and JALR leave their link and redirect, whatever waits in IF/ID. -/
def Obligations.JumpsLinkAndRedirect : Prop :=
  ∀ (s : State) (d : IdEx) (rd rs1 : RegIdx) (imm a b : Word),
    s.idex = some d → s.WriteBackReady → s.operands d = .ok (a, b) →
    (d.instr = .jal rd imm → ∃ t, exec (.jal rd imm) s = .next t ∧
      t.ExMemBuilt d (some (d.pc + 4#64)) none none ∧
      s.AroundExecute t ∧ s.RedirectedTo t (d.pc + imm)) ∧
    (d.instr = .jalr rd rs1 imm → ∃ t, exec (.jalr rd rs1 imm) s = .next t ∧
      t.ExMemBuilt d (some (d.pc + 4#64)) none none ∧
      s.AroundExecute t ∧ s.RedirectedTo t ((a + imm) &&& 0xFFFFFFFFFFFFFFFE#64))

/-- 60_exceptions.md (R262, R266): an unsupported record that executes stops the call, always; when no earlier step raises
anything, with UnsupportedOperation and with the write-back and the memory access of the cycle done. -/
def Obligations.UnsupportedRecordFaultsInExecute : Prop :=
  ∀ (s : State) (tag : UnsupportedTag) (rd rs1 rs2 : Option RegIdx) (imm : Option Word),
    (∃ e, exec (.unsupported tag rd rs1 rs2 imm) s = .fault e) ∧
    (∀ (d : IdEx) (a b : Word) (regs : RegFile), s.idex = some d → d.withInstr (.unsupported tag rd rs1 rs2 imm) = d →
      s.operands d = .ok (a, b) → writeBack s.regs s.memwb = .ok regs →
      exec (.unsupported tag rd rs1 rs2 imm) s =
        .fault (.unsupportedOperation tag.op.tag d.pc ⟨regs, memoryEffect s.mem s.exmem⟩))

/-- R198: what execute copies into EX/MEM and which computed fields it adds, for every operation. -/
def Obligations.ExMemBuildFollowsItsTable : Prop :=
  ∀ (s t : State) (d : IdEx) (i : Instr) (a b : Word),
    s.idex = some d → d.withInstr i = d → s.operands d = .ok (a, b) → exec i s = .next t →
    t.ExMemBuilt d
      (match i with
        | .add .. => some (a + b) | .sub .. => some (a - b) | .and .. => some (a &&& b) | .or .. => some (a ||| b)
        | .xor .. => some (a ^^^ b) | .addi _ _ imm => some (a + imm) | .lui _ imm => some (imm <<< 12)
        | .auipc _ imm => some (d.pc * 4#64 + imm <<< 12) | .jal .. | .jalr .. => some (d.pc + 4#64)
        | .load .. | .store .. | .beq .. | .bne .. | .unsupported .. => none)
      (match i with
        | .load _ _ imm | .store _ _ imm => some (a + imm)
        | .add .. | .sub .. | .and .. | .or .. | .xor .. | .addi .. | .lui .. | .auipc .. | .jal .. | .jalr .. | .beq ..
        | .bne .. | .unsupported .. => none)
      (match i with
        | .store .. => some b
        | .add .. | .sub .. | .and .. | .or .. | .xor .. | .addi .. | .lui .. | .auipc .. | .jal .. | .jalr .. | .load ..
        | .beq .. | .bne .. | .unsupported .. => none)

/-- The whole life of one instruction, against the reference model of 70_reset_and_hazards.md section 2 (R298, which the spec
marks as derived): alone in the pipeline with its operands captured, after three cycles it has left the register file and the
memory as the reference model leaves them, and it has faulted if that raises. The three cycles complete if no record of the
program can raise an error of its own meanwhile. -/
def Obligations.InstructionAloneMatchesSequentialModel : Prop :=
  ∀ (s : State) (d : IdEx),
    s.Running → s.ifid = none → s.idex = some d → s.exmem = none → s.memwb = none → d.op.supported = true →
    regRead s.regs d.instr.src1 = some d.rs1Val → regRead s.regs d.instr.src2 = some d.rs2Val →
    (∀ u, SeqState.exec ⟨d.pc, s.regs, s.mem⟩ d.instr = .ok u →
      (∀ t, stepsTo 3 s = some t → t.regs = u.regs ∧ t.mem = u.mem) ∧
      ((∀ w ∈ s.prog, (Record.ofWord w).op.supported = true ∧ (srcIdx (Record.ofWord w).rs1).toNat ≤ 31 ∧
          (srcIdx (Record.ofWord w).rs2).toNat ≤ 31) → ∃ t, stepsTo 3 s = some t)) ∧
    (∀ e, SeqState.exec ⟨d.pc, s.regs, s.mem⟩ d.instr = .error e → stepsTo 3 s = none)

/-! ### Frames -/

/-- 46_stages.md section 6 (R203, R205): over the cycle in which any instruction executes, only the destination of the
instruction in MEM/WB changes, and the program does not (R41). -/
def Obligations.ExecutingChangesNoOtherRegister : Prop :=
  ∀ (i : Instr) (s t : State), exec i s = .next t →
    (∀ r : RegIdx, (∀ l, s.memwb = some l → l.op.writesRF = true → l.rd.value ≠ r) →
      regRead t.regs r = regRead s.regs r) ∧
    t.prog = s.prog

/-- 20_memory.md section 1 (R63): over the cycle in which any instruction executes, only the cell that a STORE in EX/MEM
addresses changes: every other cell reads as before and is mapped as before. -/
def Obligations.ExecutingChangesNoOtherCell : Prop :=
  ∀ (i : Instr) (s t : State), exec i s = .next t →
    ∀ a : Word, (∀ p, s.exmem = some p → p.op = .store → p.addr.value ≠ a) →
      memRead t.mem a = memRead s.mem a ∧ t.mem.lookup a.toNat = s.mem.lookup a.toNat

/-! ### The step and the pipeline around execute -/

/-- A step runs the decoded instruction: `exec` of the instruction ID/EX carries, the bubble cycle when it carries none. -/
def Obligations.StepRunsTheInstructionInExecute : Prop :=
  ∀ s : State, s.Running →
    (∀ (d : IdEx) (i : Instr), s.idex = some d → d.withInstr i = d → step s = exec i s) ∧
    (s.idex = none → step s = bubbleCycle s)

/-- 70_reset_and_hazards.md (R293, R299): a record fetched at `pc` is decoded in the next cycle and is the instruction that
runs in the one after. -/
def Obligations.FetchedInstructionReachesExecute : Prop :=
  ∀ (s t u : State) (w : PackedWord) (i : Instr),
    s.Running → s.fetchExhausted = false → s.prog[s.pc.toNat]? = some w → decodeWord w = .instr i →
    loadUse s.ifid s.idex = false → s.redirects = false → step s = .next t →
    loadUse t.ifid t.idex = false → t.redirects = false → step t = .next u →
    t.ifid = some ⟨Record.ofWord w, s.pc⟩ ∧ t.pc = s.pc + 1#64 ∧
      ∃ d, u.idex = some d ∧ d.pc = s.pc ∧ d.withInstr i = d ∧ step u = exec i u

/-- R190, R233, R234: the front end of every cycle: held by the stall, emptied once fetch is exhausted or past the end, fetched
otherwise; with a taken transfer the target is fetched in the same cycle and the instruction in IF/ID is gone. -/
def Obligations.FetchFollowsItsRule : Prop :=
  ∀ s t : State, s.Running → step s = .next t →
    (s.redirects = false → s.FrontAdvanced t) ∧
    (∀ d, s.idex = some d → d.takes = true → ∃ target, s.RedirectedTo t target ∧
      (d.op ≠ .jalr → target = d.pc + d.imm.value) ∧
      (d.op = .jalr → ∀ a b, s.operands d = .ok (a, b) → target = (a + d.imm.value) &&& 0xFFFFFFFFFFFFFFFE#64))

/-- 10_state.md section 2 (R28): without a redirect the program counter moves only by one, and only past a slot that exists. -/
def Obligations.ProgramCounterHasNoOtherWriter : Prop :=
  ∀ s t : State, step s = .next t → s.redirects = false →
    t.pc = s.pc ∨ (t.pc = s.pc + 1#64 ∧ s.pc.toNat < s.prog.length)

/-- R191, R193: decode copies the record's fields, takes an absent source as index 0, and runs in no cycle with a load-use
stall or a taken transfer; each source value is the one the bypass rule of R192 gives. -/
def Obligations.DecodeResolvesSources : Prop :=
  ∀ s t : State, s.Running → step s = .next t →
    (s.ifid = none ∨ s.redirects = true ∨ loadUse s.ifid s.idex = true → t.idex = none) ∧
    (s.redirects = false → loadUse s.ifid s.idex = false → ∀ f, s.ifid = some f → ∃ d, t.idex = some d ∧
      d.op = f.record.op ∧ d.rd = f.record.rd ∧ d.imm = f.record.imm ∧ d.pc = f.pc ∧
      d.rs1 = (if f.record.rs1.present then f.record.rs1.value else 0#6) ∧
      d.rs2 = (if f.record.rs2.present then f.record.rs2.value else 0#6) ∧
      s.SourceValue t d.rs1 d.rs1Val ∧ s.SourceValue t d.rs2 d.rs2Val)

/-- R174: index 0 matches no forwarding source and no bypass: from any state no path supplies a value other than 0 for x0. -/
def Obligations.ZeroRegisterNeverLeaks : Prop :=
  (∀ (p : Option ExMem) (m : Option MemWb), fwdSrc p m 0#6 = .none) ∧
  ∀ (s t : State) (d : IdEx), s.Running → step s = .next t → t.idex = some d →
    (d.rs1 = 0#6 → d.rs1Val = 0#64) ∧ (d.rs2 = 0#6 → d.rs2Val = 0#64) ∧ regRead t.regs 0#6 = some 0#64

/-- 45_control_unit.md section 3 (R175, R176): there is a load-use stall exactly when a LOAD with a destination other than x0 is in
ID/EX and the record in IF/ID names that destination as a source, and the three stall signals say so alike; the stall inserts
one bubble, holds IF/ID and the program counter, and lasts one cycle. -/
def Obligations.LoadUseStallLastsOneCycle : Prop :=
  (∀ s : State,
    (loadUse s.ifid s.idex = true ↔ ∃ d f, s.idex = some d ∧ s.ifid = some f ∧ d.op = .load ∧ d.rd.value ≠ 0#6 ∧
      ((f.record.rs1.present = true ∧ d.rd.value = f.record.rs1.value) ∨
        (f.record.rs2.present = true ∧ d.rd.value = f.record.rs2.value))) ∧
    s.signals.stallFetch = loadUse s.ifid s.idex ∧ s.signals.stallDecode = loadUse s.ifid s.idex ∧
    s.signals.bubbleExecute = loadUse s.ifid s.idex) ∧
  ∀ s t : State, s.Running → loadUse s.ifid s.idex = true → step s = .next t →
    t.idex = none ∧ t.ifid = s.ifid ∧ t.pc = s.pc ∧ t.fetchExhausted = s.fetchExhausted ∧
    loadUse t.ifid t.idex = false ∧ ∃ p, t.exmem = some p ∧ p.op = .load

/-- 70_reset_and_hazards.md section 2 (R295): an instruction directly after a LOAD that names its destination gets the loaded
value, one cycle later. -/
def Obligations.ConsumerGetsTheLoadedValue : Prop :=
  ∀ (s t u : State) (d : IdEx) (f : IfId) (a b : Word),
    s.Running → s.idex = some d → s.ifid = some f → loadUse s.ifid s.idex = true → s.operands d = .ok (a, b) →
    step s = .next t → step t = .next u →
    ∃ e, u.idex = some e ∧ e.pc = f.pc ∧
      (srcIdx f.record.rs1 = d.rd.value → e.rs1Val = memRead t.mem (a + d.imm.value)) ∧
      (srcIdx f.record.rs2 = d.rd.value → e.rs2Val = memRead t.mem (a + d.imm.value))

/-! ### Write-back and memory access -/

/-- R203: write-back writes the destination of a writing instruction and nothing for any other; a missing value, then an index
above 31, is raised before anything else of the cycle and leaves everything as it was. -/
def Obligations.WriteBackFollowsItsRule : Prop :=
  ∀ s : State, s.Running →
    (∀ t, step s = .next t →
      (∀ l, s.memwb = some l → l.op.writesRF = true →
        ∃ v, l.writeValue = some v ∧
          ∀ r, regRead t.regs r = if r = l.rd.value ∧ r ≠ 0#6 then some v else regRead s.regs r) ∧
      ((∀ l, s.memwb = some l → l.op.writesRF = false) → t.regs = s.regs)) ∧
    (∀ l, s.memwb = some l → l.op.writesRF = true →
      (l.writeValue = none →
        step s = .fault (.missingWriteValue l.pc l.op .writeBack ⟨s.regs, s.mem⟩)) ∧
      (∀ v, l.writeValue = some v → 31 < l.rd.value.toNat →
        step s = .fault (.outOfRange l.rd.value .write l.pc ⟨s.regs, s.mem⟩)))

/-- R200 to R202: LOAD, STORE and every other operation in the memory stage. -/
def Obligations.MemoryStageAccesses : Prop :=
  ∀ (s t : State), s.Running → step s = .next t →
    (∀ p, s.exmem = some p →
      (∃ l, t.memwb = some l ∧ l.toExMem = p ∧
        l.memData.toOption = if p.op = .load then some (memRead s.mem p.addr.value) else none) ∧
      (p.op = .store → (∀ a, memRead t.mem a = if a = p.addr.value then p.storeVal.value else memRead s.mem a) ∧
        t.mem.lookup p.addr.value.toNat = some p.storeVal.value) ∧
      (p.op ≠ .store → t.mem = s.mem)) ∧
    (s.exmem = none → t.mem = s.mem ∧ t.memwb = none)

/-- R63: what the data-memory port carries in a cycle: one read for a LOAD in EX/MEM, one write for a STORE, never both, and
nothing else touches the memory. -/
def Obligations.DataPortMakesAtMostOneAccess : Prop :=
  ∀ s t : State, s.Running → step s = .next t →
    ((dmemPort s.exmem).re = true ↔ ∃ p, s.exmem = some p ∧ p.op = .load) ∧
    ((dmemPort s.exmem).we = true ↔ ∃ p, s.exmem = some p ∧ p.op = .store) ∧
    ((dmemPort s.exmem).re = true → (dmemPort s.exmem).we = false ∧
      ∃ l, t.memwb = some l ∧ l.memData = .of (memRead s.mem (dmemPort s.exmem).addr)) ∧
    ((dmemPort s.exmem).we = true → t.mem = memWrite s.mem (dmemPort s.exmem).addr (dmemPort s.exmem).wdata) ∧
    ((dmemPort s.exmem).we = false → t.mem = s.mem)

/-- 47_orchestrator.md section 4 (R248, R249), 60_exceptions.md (R265): the data port of a busy block and the clock edge. A LOAD in
EX/MEM reads and a STORE writes, never both, in every cycle whose write-back raises nothing; where write-back raises, the port
writes nothing (that it reads nothing either is the model's choice, log 12). The memory after any edge, of a cycle that completes
or of one that faults, is what the port wrote. -/
def Obligations.DataPortWritesWhatTheEdgeCommits : Prop :=
  ∀ (b b' : Block) (p : PortsIn), b.busy = true → b.core.Running → b.edge p = .next b' →
    ((∃ e, writeBack b.core.regs b.core.memwb = .error e) → b.dmem.we = false ∧ b.dmem.re = false) ∧
    (∀ regs, writeBack b.core.regs b.core.memwb = .ok regs →
      (b.dmem.re = true ↔ ∃ l, b.core.exmem = some l ∧ l.op = .load) ∧
      (b.dmem.we = true ↔ ∃ l, b.core.exmem = some l ∧ l.op = .store) ∧
      ∀ l, b.core.exmem = some l → b.dmem.addr = l.addr.value ∧ (l.op = .store → b.dmem.wdata = l.storeVal.value)) ∧
    b'.core.mem = if b.dmem.we then memWrite b.core.mem b.dmem.addr b.dmem.wdata else b.core.mem

/-- 47_orchestrator.md section 4 (R249), 46_stages.md (R190): `imem_addr` of a busy block names the slot that the cycle fetches, the
target of a taken transfer or else the program counter, and `imem_data` is the record that enters IF/ID. -/
def Obligations.InstructionPortCarriesTheFetch : Prop :=
  ∀ (b : Block) (t : State), b.busy = true → b.core.Running → step b.core = .next t →
    loadUse b.core.ifid b.core.idex = false → b.core.fetchExhausted = false ∨ b.core.redirects = true →
    (b.core.redirects = false → b.imemAddr = b.core.pc) ∧
    (b.imemAddr.toNat < b.core.prog.length →
      t.ifid = some ⟨Record.ofWord (b.imemData b.imemAddr), b.imemAddr⟩ ∧ t.pc = b.imemAddr + 1#64) ∧
    (b.core.prog.length ≤ b.imemAddr.toNat → t.ifid = none ∧ t.pc = b.imemAddr ∧ t.fetchExhausted = true)

/-! ### The control unit -/

/-- R171, R172, R173: the selects of the forwarding multiplexer, for any latches, and their encoding. -/
def Obligations.ForwardSelectFollowsItsRule : Prop :=
  (∀ (p : Option ExMem) (m : Option MemWb) (r : RegIdx),
    (fwdSrc p m r = .fromExMem ↔
      r ≠ 0#6 ∧ ∃ y, p = some y ∧ y.op.fwdWriter = true ∧ y.rd.value = r) ∧
    (fwdSrc p m r = .fromMemWb ↔
      r ≠ 0#6 ∧ (¬ ∃ y, p = some y ∧ y.op.fwdWriter = true ∧ y.rd.value = r) ∧
        ∃ z, m = some z ∧ z.op.fwdWriter = true ∧ z.rd.value = r ∧ z.writeValue ≠ none)) ∧
  (∀ s : State,
    (s.idex = none → s.signals.forwardA = .none ∧ s.signals.forwardB = .none) ∧
    ∀ d, s.idex = some d → s.signals.forwardA = fwdSrc s.exmem s.memwbNext d.rs1 ∧
      (d.op ∈ [Op.add, .sub, .and, .or, .xor, .store, .beq, .bne] →
        s.signals.forwardB = fwdSrc s.exmem s.memwbNext d.rs2) ∧
      (d.op ∉ [Op.add, .sub, .and, .or, .xor, .store, .beq, .bne] → s.signals.forwardB = .none)) ∧
  Forward.none.code = 0#2 ∧ Forward.fromExMem.code = 1#2 ∧ Forward.fromMemWb.code = 2#2

/-- R196: BEQ and BNE execute on the values decode resolved; every other operation on what the multiplexer supplies under its
select; a source with no value raises MissingWriteValue at execute, after write-back and the memory access. -/
def Obligations.ForwardingMultiplexerSupplies : Prop :=
  ∀ (s : State) (d : IdEx), s.idex = some d →
    (d.op = .beq ∨ d.op = .bne → s.operands d = .ok (d.rs1Val, d.rs2Val)) ∧
    (d.op ≠ .beq → d.op ≠ .bne →
      (∀ a b, s.operands d = .ok (a, b) ↔
        s.Supplies d.rs1Val s.signals.forwardA a ∧ s.Supplies d.rs2Val s.signals.forwardB b) ∧
      ((¬ ∃ a, s.Supplies d.rs1Val s.signals.forwardA a) ∨ (¬ ∃ b, s.Supplies d.rs2Val s.signals.forwardB b) →
        s.operands d = .error (.missingWriteValue d.pc d.op .executeForward) ∧
        ∀ regs, s.Running → writeBack s.regs s.memwb = .ok regs →
          step s = .fault (.missingWriteValue d.pc d.op .executeForward ⟨regs, memoryEffect s.mem s.exmem⟩)))

/-- 45_control_unit.md section 5 (R179): FROM_MEM_WB is never selected in any cycle, from any state. -/
def Obligations.ForwardingFromMemWbNeverSelected : Prop :=
  ∀ s : State, s.signals.forwardA ≠ .fromMemWb ∧ s.signals.forwardB ≠ .fromMemWb

/-- 45_control_unit.md section 5 (R179): from a state the block produces, the override never changes an operand. -/
def Obligations.ForwardingNeverChangesAnOperand : Prop :=
  ∀ (s : State) (d : IdEx), s.Inv → s.idex = some d → s.operands d = .ok (d.rs1Val, d.rs2Val)

/-! ### Halting, counting, reset -/

/-- R236: the drain check alone decides `halted`. -/
def Obligations.DrainCheckDecidesHalted : Prop :=
  ∀ s t : State, s.Running → step s = .next t →
    (t.halted = true ↔ t.fetchExhausted = true ∧ t.ifid = none ∧ t.idex = none ∧ t.exmem = none ∧ t.memwb = none)

/-- 47_orchestrator.md section 2 (R237): a completed cycle counts one, in any call of a resumed run, and nothing else changes the
count: a halted block runs no cycle, and that its step answers the same state is the model's form of that (log 8). -/
def Obligations.CycleCountCountsCompletedCycles : Prop :=
  (∀ s t : State, step s = .next t →
    (s.halted = false → t.cycleCount = s.cycleCount + 1) ∧ (s.halted = true → t = s)) ∧
  ∀ (prog : List PackedWord) (rf : RegFile) (mem : Memory) (snap : Snapshot),
    (State.fresh prog rf mem).cycleCount = 0 ∧ (State.restored prog rf mem snap).cycleCount = snap.cycleCount

/-- R43: what a fresh start begins from, that reset touches neither the register file nor the memory, and what a register and an
address hold for which the host preloads nothing. -/
def Obligations.FreshStartBeginsFromTheResetValues : Prop :=
  (∀ (prog : List PackedWord) (rf : RegFile) (mem : Memory) (r : RegIdx) (a : Word),
    (State.fresh prog rf mem).pc = 0#64 ∧ (State.fresh prog rf mem).ifid = none ∧
    (State.fresh prog rf mem).idex = none ∧ (State.fresh prog rf mem).exmem = none ∧
    (State.fresh prog rf mem).memwb = none ∧ (State.fresh prog rf mem).cycleCount = 0 ∧
    (State.fresh prog rf mem).fetchExhausted = false ∧ (State.fresh prog rf mem).halted = false ∧
    (State.fresh prog rf mem).log = [] ∧ (State.fresh prog rf mem).prog = prog ∧
    (State.fresh prog rf mem).mem = mem ∧ regRead (State.fresh prog rf mem).regs r = regRead rf r ∧
    (mem.lookup a.toNat = none → memRead (State.fresh prog rf mem).mem a = 0#64)) ∧
  ∀ (prog : List PackedWord) (mem : Memory) (r : RegIdx), r.toNat ≤ 31 →
    regRead (State.fresh prog RegFile.unloaded mem).regs r = some 0#64

/-- The model's reset state is a fresh start for which the host supplies nothing: no program (log 3), registers 0 (log 1), no cell
mapped (log 2). -/
def Obligations.ResetStateIsAFreshStartWithNothingSupplied : Prop :=
  State.reset = State.fresh [] (Vector.replicate 32 0#64) []

/-- 70_reset_and_hazards.md section 1 (R293): an empty program halts at the end of cycle 1. -/
def Obligations.EmptyProgramHaltsAtCycleOne : Prop :=
  ∀ (rf : RegFile) (mem : Memory), ∃ t, step (State.fresh [] rf mem) = .next t ∧
    t.halted = true ∧ t.cycleCount = 1 ∧ t.fetchExhausted = true

/-! ### Fatal errors -/

/-- 60_exceptions.md (R261, R266, R268), 46_stages.md (R192): a source above 31 that no bypass supplies stops the call at decode, with
the write-back and the memory access of the cycle done: the first source whatever the second is, the second where the first can
be resolved. -/
def Obligations.OutOfRangeSourceFaultsAtDecode : Prop :=
  ∀ (s : State) (f : IfId) (regs : RegFile) (r : RegIdx),
    s.Running → s.ifid = some f → loadUse s.ifid s.idex = false → s.redirects = false →
    writeBack s.regs s.memwb = .ok regs →
    (∀ d, s.idex = some d → d.op.supported = true ∧ ∃ a b, s.operands d = .ok (a, b)) →
    s.NotBypassed r → 31 < r.toNat →
    (srcIdx f.record.rs1 = r →
      step s = .fault (.outOfRange r .read f.pc ⟨regs, memoryEffect s.mem s.exmem⟩)) ∧
    (srcIdx f.record.rs2 = r → s.SourceReady (srcIdx f.record.rs1) →
      step s = .fault (.outOfRange r .read f.pc ⟨regs, memoryEffect s.mem s.exmem⟩))

/-- 60_exceptions.md section 2 (R265, R266): what a fault leaves to the host: nothing of the cycle for a write-back error, the
write-back and the memory access of the cycle for an execute or decode error. -/
def Obligations.FaultLeavesEarlierStepsDone : Prop :=
  ∀ (s : State) (f : Fault), step s = .fault f →
    (∀ e, writeBack s.regs s.memwb = .error e → f.info = e ∧ f.remains = ⟨s.regs, s.mem⟩) ∧
    (∀ regs, writeBack s.regs s.memwb = .ok regs → f.remains = ⟨regs, memoryEffect s.mem s.exmem⟩)

/-- 60_exceptions.md (R263): from a state the block produces, MissingWriteValue is not reachable. -/
def Obligations.MissingWriteValueIsUnreachable : Prop :=
  ∀ (s : State) (pc : Word) (op : Op) (site : Site) (left : Remains),
    s.Inv → step s ≠ .fault (.missingWriteValue pc op site left)

/-! ### Invariants -/

/-- The invariants the spec derives (R44, R180, R263): every step keeps the invariants. -/
def Obligations.EveryStepKeepsTheInvariants : Prop :=
  ∀ s t : State, s.Inv → step s = .next t → t.Inv

/-- The invariants the spec derives (R44) hold after a fresh start, whatever the host supplies, and of the reset state. -/
def Obligations.FreshStartMeetsTheInvariants : Prop :=
  State.reset.Inv ∧
    ∀ (prog : List PackedWord) (rf : RegFile) (mem : Memory), mem.wf → (State.fresh prog rf mem).Inv

/-! ### Runs -/

/-- 70_reset_and_hazards.md section 2 (R298, which the spec marks as derived): a run from reset that halts leaves the register
file and the memory as the sequential reference model leaves them. -/
def Obligations.HaltedRunMatchesSequentialModel : Prop :=
  ∀ (prog : List PackedWord) (rf : RegFile) (mem : Memory) (n : Nat) (t : State),
    ProgramLengthOk prog → stepsTo n (State.fresh prog rf mem) = some t → t.halted = true →
    ∃ k u, SeqState.run prog k ⟨0#64, rf.supplied, mem⟩ = .ok u ∧ u.stopped prog = true ∧
      t.regs = u.regs ∧ t.mem = u.mem

/-- The "Along the way" of R298: after any number of cycles the registers are those of the reference model after the
instructions that have completed write-back, and the memory that after the instructions that have passed the memory stage. Of
R298's premise that no fatal error is raised until the run halts, it needs only that the next cycle raises none. -/
def Obligations.RunningStateIsAPrefixOfTheSequentialModel : Prop :=
  ∀ (prog : List PackedWord) (rf : RegFile) (mem : Memory) (n : Nat) (t t' : State) (c : Tally),
    ProgramLengthOk prog → tallyTo n (State.fresh prog rf mem) Tally.zero = some (t, c) → step t = .next t' →
    ∃ u v, SeqState.run prog c.retired ⟨0#64, rf.supplied, mem⟩ = .ok u ∧
      SeqState.run prog c.accessed ⟨0#64, rf.supplied, mem⟩ = .ok v ∧ t.regs = u.regs ∧ t.mem = v.mem

/-- 70_reset_and_hazards.md section 3 (R300, which the spec marks as derived): the halting cycle. -/
def Obligations.HaltingCycleFormula : Prop :=
  ∀ (prog : List PackedWord) (rf : RegFile) (mem : Memory) (n : Nat) (t : State) (c : Tally),
    ProgramLengthOk prog → tallyTo n (State.fresh prog rf mem) Tally.zero = some (t, c) → t.halted = true →
    (c.executed = 0 → t.cycleCount = 1) ∧
    (1 ≤ c.executed → t.cycleCount = c.executed + c.transfersBeforeLast + c.stalls + 4)

/-! ### The host interface -/

/-- 47_orchestrator.md section 3 (R242): a call that stops earlier and a second one that resumes its snapshot end as one call
does, apart from the log. -/
def Obligations.ResumedCallsEndAsOneCall : Prop :=
  ∀ (prog : List PackedWord) (rf : RegFile) (mem : Memory) (resume : Option Resume) (k n : Nat) (t : State),
    k ≤ n → run prog rf mem n resume = .next t →
    ∃ s t', run prog rf mem k resume = .next s ∧
      run prog s.regs s.mem n (some ⟨s.snapshot, prog⟩) = .next t' ∧ t' = { t with log := t'.log }

/-- R241: a call bounded one above the cycle count of a snapshot that is not halted runs exactly one cycle. -/
def Obligations.SingleStepCallRunsOneCycle : Prop :=
  ∀ (prog : List PackedWord) (rf : RegFile) (mem : Memory) (snap : Snapshot),
    snap.halted = false →
    run prog rf mem (snap.cycleCount + 1) (some ⟨snap, prog⟩) = step (State.restored prog rf mem snap)

/-- R239: the bound is absolute: a call stops halted, or with `cycle_count` at the bound (or where it began, beyond it); and the
calls that run no cycle. -/
def Obligations.CallStopsAtTheBoundOrHalted : Prop :=
  (∀ (prog : List PackedWord) (rf : RegFile) (mem : Memory) (m : Nat) (t : State),
    run prog rf mem m none = .next t → t.cycleCount ≤ m ∧ (t.halted = true ∨ t.cycleCount = m)) ∧
  (∀ (prog : List PackedWord) (rf : RegFile) (mem : Memory) (m : Nat) (snap : Snapshot) (t : State),
    run prog rf mem m (some ⟨snap, prog⟩) = .next t →
    t.cycleCount ≤ max m snap.cycleCount ∧ (t.halted = true ∨ t.cycleCount = max m snap.cycleCount)) ∧
  (∀ (prog : List PackedWord) (rf : RegFile) (mem : Memory) (m : Nat) (snap : Snapshot),
    programDefect prog = none → m ≤ snap.cycleCount ∨ snap.halted = true →
    run prog rf mem m (some ⟨snap, prog⟩) = .next (State.restored prog rf mem snap))

/-- 10_state.md section 1 (R22, R23, R26), 95_test_vectors.md E1: after any sequence of host writes a register other than x0
holds the 64-bit truncation of the last value written to it, and x0 reads 0; an index above 31 is OutOfRange to the host. -/
def Obligations.HostRegisterWritesReadBack : Prop :=
  (∀ (s t : State) (writes : List (RegIdx × Int)),
    writes.foldlM (fun u w => u.hostWrite w.1 w.2) s = (.ok t : Except HostOutOfRange State) →
    t.hostRead 0#6 = .ok 0#64 ∧
    ∀ i : RegIdx, i ≠ 0#6 → i.toNat ≤ 31 →
      t.hostRead i =
        match writes.reverse.find? (fun w => w.1 = i) with
        | some w => .ok (BitVec.ofInt 64 w.2)
        | none   => s.hostRead i) ∧
  ∀ (s : State) (i : RegIdx) (v : Int), 31 < i.toNat →
    s.hostRead i = .error ⟨i, .read⟩ ∧ s.hostWrite i v = .error ⟨i, .write⟩

/-- 20_memory.md section 5 (R74), R61 and R62: the memory dump lists exactly the mapped addresses, ascending; a read gives the listed
value and 0 where nothing is listed; a host store and a STORE in the memory stage list their cell, with a value of 0 too, and
nothing else of a step changes the dump. -/
def Obligations.MemoryDumpListsTheMappedCells : Prop :=
  ∀ s : State, s.mem.wf →
    s.hostMemory.Pairwise (fun c c' => c.1 < c'.1) ∧
    (∀ (n : Nat) (w : Word), (n, w) ∈ s.hostMemory ↔ s.mem.lookup n = some w) ∧
    (∀ a w : Word, (a.toNat, w) ∈ s.hostMemory → s.hostLoad a = w ∧ memRead s.mem a = w) ∧
    (∀ a : Word, (∀ w, (a.toNat, w) ∉ s.hostMemory) → s.hostLoad a = 0#64 ∧ memRead s.mem a = 0#64) ∧
    (∀ (a v : Word) (n : Nat) (w : Word), (n, w) ∈ (s.hostStore a v).hostMemory ↔
      if n = a.toNat then w = v else (n, w) ∈ s.hostMemory) ∧
    (∀ t : State, step s = .next t →
      (∀ p, s.halted = false → s.exmem = some p → p.op = .store → ∀ (n : Nat) (w : Word), (n, w) ∈ t.hostMemory ↔
        if n = p.addr.value.toNat then w = p.storeVal.value else (n, w) ∈ s.hostMemory) ∧
      ((∀ p, s.exmem = some p → p.op ≠ .store) → t.hostMemory = s.hostMemory))

/-- 47_orchestrator.md section 4 (R248, R249), 60_exceptions.md (R265): a call at the ports, fresh or resumed, ends as the call of the
host interface does, apart from the log. -/
def Obligations.CallAtThePortsMatchesRun : Prop :=
  ∀ (b b' b'' : Block) (p quiet : PortsIn) (n : Nat) (resume : Option Resume),
    b.busy = false → p.start = true → p.rfHostWe = false → quiet.start = false → quiet.rfHostWe = false →
    resume = (if p.resume then some ⟨p.snapIn, b.core.prog⟩ else none) →
    b.edge p = .next b' → Block.edges quiet n b' = .next b'' → b''.busy = false →
    (b''.fault = none → ∃ t, run b.core.prog b.core.regs b.core.mem p.maxCycles.toNat resume = .next t ∧
      b''.core = { t with log := b''.core.log }) ∧
    (∀ e, b''.fault = some e → ∃ f,
      run b.core.prog b.core.regs b.core.mem p.maxCycles.toNat resume = .fault f ∧ f.info = e ∧
      f.remains = ⟨b''.core.regs, b''.core.mem⟩)
end

