-- ==== Sys2Proof/Laws/Encoding.lean ====
section
/-! SUPPORT. Records, instructions and packed words (30_encoding.md sections 1 and 2). -/

namespace Sys2Proof

/-- The operation of a record's instruction. -/
@[simp] theorem Record.instr_op (r : Record) : r.instr.op = r.op := by
  obtain ⟨op, rd, rs1, rs2, imm⟩ := r
  cases op <;> rfl

/-- The operation of an instruction's record. -/
@[simp] theorem Instr.toRecord_op (i : Instr) : i.toRecord.op = i.op := by
  cases i <;> rfl

/-- An instruction's record has the presence bits of its shape. -/
theorem Instr.toRecord_wellShaped (i : Instr) : i.toRecord.wellShaped = true := by
  cases i
  case unsupported tag rd rs1 rs2 imm => cases tag <;> rfl
  all_goals rfl

/-- An instruction's record spells it. -/
theorem Instr.toRecord_instr (i : Instr) : i.toRecord.instr = i := by
  cases i
  case unsupported tag rd rs1 rs2 imm =>
    cases tag <;> cases rd <;> cases rs1 <;> cases rs2 <;> cases imm <;> rfl
  all_goals rfl

/-- A forwarding producer writes a register (R92). -/
theorem Op.writesRF_of_fwdWriter {o : Op} (h : o.fwdWriter = true) : o.writesRF = true := by
  cases o <;> first | rfl | cases h

/-- The tag table reads back (R86). -/
theorem Op.ofTag_tag (o : Op) : Op.ofTag o.tag = o := by cases o <;> rfl

/-! ### The bits of a packed record (R85) -/

theorem getLsbD_append_low {v w k : Nat} {x : BitVec v} {y : BitVec w} {b : Bool} (h : k < w) (hy : y.getLsbD k = b) :
    (x ++ y).getLsbD k = b := by rw [BitVec.getLsbD_append, if_pos h, hy]

theorem getLsbD_append_high {v w k : Nat} {x : BitVec v} {y : BitVec w} {b : Bool} (h : w ≤ k)
    (hx : x.getLsbD (k - w) = b) : (x ++ y).getLsbD k = b := by
  rw [BitVec.getLsbD_append, if_neg (by omega), hx]

theorem getLsbD_ofBool_of_eq {b : Bool} {j : Nat} (h : j = 0) : (BitVec.ofBool b).getLsbD j = b := by
  subst h; cases b <;> rfl

/-- The table of R85, bit by bit. -/
theorem Record.getLsbD_pack (r : Record) (k : Nat) : r.pack.getLsbD k =
    (if k < 4 then r.op.tag.getLsbD k
     else if k < 5 then r.rd.present
     else if k < 6 then r.rs1.present
     else if k < 7 then r.rs2.present
     else if k < 8 then r.imm.present
     else if k < 14 then r.rd.value.getLsbD (k - 8)
     else if k < 20 then r.rs1.value.getLsbD (k - 14)
     else if k < 26 then r.rs2.value.getLsbD (k - 20)
     else if k < 32 then false
     else r.imm.value.getLsbD (k - 32)) := by
  unfold Record.pack
  repeat' split
  · iterate 9 refine getLsbD_append_low (by omega) ?_
    rfl
  · iterate 8 refine getLsbD_append_low (by omega) ?_
    exact getLsbD_append_high (by omega) (getLsbD_ofBool_of_eq (by omega))
  · iterate 7 refine getLsbD_append_low (by omega) ?_
    exact getLsbD_append_high (by omega) (getLsbD_ofBool_of_eq (by omega))
  · iterate 6 refine getLsbD_append_low (by omega) ?_
    exact getLsbD_append_high (by omega) (getLsbD_ofBool_of_eq (by omega))
  · iterate 5 refine getLsbD_append_low (by omega) ?_
    exact getLsbD_append_high (by omega) (getLsbD_ofBool_of_eq (by omega))
  · iterate 4 refine getLsbD_append_low (by omega) ?_
    exact getLsbD_append_high (by omega) rfl
  · iterate 3 refine getLsbD_append_low (by omega) ?_
    exact getLsbD_append_high (by omega) rfl
  · iterate 2 refine getLsbD_append_low (by omega) ?_
    exact getLsbD_append_high (by omega) rfl
  · refine getLsbD_append_low (by omega) ?_
    exact getLsbD_append_high (by omega) BitVec.getLsbD_zero
  · exact getLsbD_append_high (by omega) rfl

/-- A field cut out of a word, from its bits. -/
theorem extractLsb'_eq_of_bits {n a w : Nat} {x : BitVec n} {v : BitVec w}
    (h : ∀ k < w, x.getLsbD (a + k) = v.getLsbD k) : x.extractLsb' a w = v := by
  apply BitVec.eq_of_getLsbD_eq
  intro i hi
  simp [hi, h]

/-- The fields read back from the packed word (R85). -/
theorem Record.ofWord_pack (r : Record) : Record.ofWord r.pack = r := by
  have h1 : r.pack.extractLsb' 0 4 = r.op.tag :=
    extractLsb'_eq_of_bits (fun k hk => by rw [Record.getLsbD_pack, if_pos (by omega), Nat.zero_add])
  have h2 : r.pack.extractLsb' 8 6 = r.rd.value := by
    refine extractLsb'_eq_of_bits (fun k hk => ?_)
    rw [Record.getLsbD_pack]
    repeat' split
    all_goals first | omega | rw [Nat.add_sub_cancel_left]
  have h3 : r.pack.extractLsb' 14 6 = r.rs1.value := by
    refine extractLsb'_eq_of_bits (fun k hk => ?_)
    rw [Record.getLsbD_pack]
    repeat' split
    all_goals first | omega | rw [Nat.add_sub_cancel_left]
  have h4 : r.pack.extractLsb' 20 6 = r.rs2.value := by
    refine extractLsb'_eq_of_bits (fun k hk => ?_)
    rw [Record.getLsbD_pack]
    repeat' split
    all_goals first | omega | rw [Nat.add_sub_cancel_left]
  have h5 : r.pack.extractLsb' 32 64 = r.imm.value := by
    refine extractLsb'_eq_of_bits (fun k hk => ?_)
    rw [Record.getLsbD_pack]
    repeat' split
    all_goals first | omega | rw [Nat.add_sub_cancel_left]
  have b4 : r.pack.getLsbD 4 = r.rd.present := by rw [Record.getLsbD_pack]; rfl
  have b5 : r.pack.getLsbD 5 = r.rs1.present := by rw [Record.getLsbD_pack]; rfl
  have b6 : r.pack.getLsbD 6 = r.rs2.present := by rw [Record.getLsbD_pack]; rfl
  have b7 : r.pack.getLsbD 7 = r.imm.present := by rw [Record.getLsbD_pack]; rfl
  rw [Record.ofWord, h1, h2, h3, h4, h5, b4, b5, b6, b7, Op.ofTag_tag]

/-- A header with nothing but presence bits (in the order rd, rs1, rs2, imm) and a tag. -/
def bareHeader (p : Bool × Bool × Bool × Bool) (o : Op) : BitVec 32 :=
  (BitVec.ofBool p.2.2.2 ++ (BitVec.ofBool p.2.2.1 ++
    (BitVec.ofBool p.2.1 ++ (BitVec.ofBool p.1 ++ o.tag)))).setWidth 32

/-- The header's tag, presence and reserved bits: no operand reaches them. -/
theorem Record.header_pack_masked (r : Record) : header r.pack &&& 0xFC0000FF#32 = bareHeader r.presence r.op := by
  apply BitVec.eq_of_getLsbD_eq
  intro k hk
  simp only [BitVec.getLsbD_and, header, BitVec.getLsbD_extractLsb', hk, decide_true, Bool.true_and, Nat.zero_add,
    Record.getLsbD_pack, bareHeader, Record.presence, BitVec.getLsbD_setWidth, BitVec.getLsbD_append,
    BitVec.getLsbD_ofBool]
  interval_cases k <;> simp

/-- The bare headers of the fourteen operations are the match values of R87. -/
theorem bareHeader_of_shape {o : Op} {p : Bool × Bool × Bool × Bool} (h : o.shape = some p) :
    bareHeader p o = headerMatch o := by
  cases o <;> simp only [Op.shape, Option.some.injEq, reduceCtorEq] at h <;> subst h <;> decide

end Sys2Proof
end

