-- ==== Sys2Proof/Laws/Memory.lean ====
section
/-! SUPPORT. What the data-memory port can do (20_memory.md R60 to R62), and that every memory operation keeps the canonical form. -/

namespace Sys2Proof.Machine

/-- Looking up after setting a cell. -/
theorem lookup_insert (m : Memory) (a b : Nat) (v : Word) :
    (m.insert a v).lookup b = if a = b then some v else m.lookup b := by
  induction m with
  | nil => simp [Memory.insert, Memory.lookup]
  | cons c rest ih =>
    obtain ⟨k, w⟩ := c
    simp only [Memory.insert]
    split
    · simp [Memory.lookup]
    · split
      · rename_i h
        subst h
        by_cases hab : a = b <;> simp [Memory.lookup, hab]
      · rename_i h1 h2
        simp only [Memory.lookup, ih]
        by_cases hkb : k = b
        · subst hkb
          simp [h2]
        · simp [hkb]

/-- The addresses of a memory after setting a cell. -/
theorem mem_insert_fst {m : Memory} {a : Nat} {v : Word} {c : Nat × Word} (h : c ∈ m.insert a v) :
    c.1 = a ∨ c ∈ m := by
  induction m with
  | nil => simp_all [Memory.insert]
  | cons d rest ih =>
    obtain ⟨k, w⟩ := d
    simp only [Memory.insert] at h
    split at h
    · rcases List.mem_cons.1 h with rfl | h'
      · exact .inl rfl
      · exact .inr h'
    · split at h
      · rcases List.mem_cons.1 h with rfl | h'
        · exact .inl rfl
        · exact .inr (List.mem_cons_of_mem _ h')
      · rcases List.mem_cons.1 h with rfl | h'
        · exact .inr (List.mem_cons_self ..)
        · rcases ih h' with hr | hr
          · exact .inl hr
          · exact .inr (List.mem_cons_of_mem _ hr)

/-- Setting a cell at an address below 2^64 keeps the canonical form. -/
theorem insert_wf {m : Memory} (h : m.wf) {a : Nat} (ha : a < 2 ^ 64) (v : Word) : (m.insert a v).wf := by
  obtain ⟨hs, hb⟩ := h
  refine ⟨?_, fun c hc => ?_⟩
  · induction m with
    | nil => simp [Memory.insert]
    | cons d rest ih =>
      obtain ⟨k, w⟩ := d
      obtain ⟨hk, hrest⟩ := List.pairwise_cons.1 hs
      simp only [Memory.insert]
      split
      · rename_i hak
        refine List.pairwise_cons.2 ⟨fun c hc => ?_, hs⟩
        rcases List.mem_cons.1 hc with rfl | hc'
        · exact hak
        · exact Nat.lt_trans hak (hk c hc')
      · split
        · rename_i hak
          subst hak
          exact List.pairwise_cons.2 ⟨hk, hrest⟩
        · rename_i h1 h2
          refine List.pairwise_cons.2 ⟨fun c hc => ?_, ih hrest (fun c hc => hb c (List.mem_cons_of_mem _ hc))⟩
          rcases mem_insert_fst hc with hca | hc'
          · simp only [hca]; omega
          · exact hk c hc'
  · rcases mem_insert_fst hc with hca | hc'
    · omega
    · exact hb c hc'

/-- `MemWrite` keeps the canonical form. -/
theorem memWrite_wf {m : Memory} (h : m.wf) (a v : Word) : (memWrite m a v).wf := insert_wf h a.isLt v

/-- A `MemRead` after a `MemWrite`. -/
theorem memRead_memWrite (m : Memory) (a b v : Word) :
    memRead (memWrite m a v) b = if a = b then v else memRead m b := by
  simp only [memRead, memWrite, lookup_insert]
  by_cases hab : a = b
  · simp [hab]
  · have : a.toNat ≠ b.toNat := fun h => hab (BitVec.eq_of_toNat_eq h)
    simp [hab, this]

/-- What the memory stage leaves keeps the canonical form. -/
theorem memoryEffect_wf {m : Memory} (h : m.wf) (e : Option ExMem) : (memoryEffect m e).wf := by
  cases e with
  | none => exact h
  | some l =>
    simp only [memoryEffect]
    split
    · exact memWrite_wf h ..
    · exact h

/-- The host's store keeps the canonical form. -/
theorem hostStore_wf {s : State} (h : s.mem.wf) (a v : Word) : (s.hostStore a v).mem.wf := memWrite_wf h a v

/-- The memory after reset is in canonical form. -/
theorem reset_mem_wf : State.reset.mem.wf := by decide

/-- Everything the memory stage can do to memory: nothing, or one cell set by a STORE. -/
theorem memoryEffect_cases (m : Memory) (e : Option ExMem) :
    (∃ l, e = some l ∧ l.op = .store ∧ memoryEffect m e = memWrite m l.addr.value l.storeVal.value) ∨
      ((∀ l, e = some l → l.op ≠ .store) ∧ memoryEffect m e = m) := by
  cases e with
  | none => right; simp [memoryEffect]
  | some l =>
    by_cases hl : l.op = .store
    · left; exact ⟨l, rfl, hl, by simp [memoryEffect, hl]⟩
    · right; simp [memoryEffect, hl]

/-- The memory image carries every EX/MEM field unchanged. -/
@[simp] theorem memoryImage_toExMem (m : Memory) (l : ExMem) : (memoryImage m l).toExMem = l := rfl

/-- The write value of the memory image: the loaded value for a LOAD, the EX/MEM write value otherwise. -/
theorem memoryImage_writeValue (m : Memory) (l : ExMem) :
    (memoryImage m l).writeValue = if l.op = .load then some (memRead m l.addr.value) else l.writeValue := by
  by_cases hl : l.op = .load
  · simp [MemWb.writeValue, memoryImage, hl, Op.writesRF, Opt.of, Opt.toOption]
  · simp [MemWb.writeValue, ExMem.writeValue, memoryImage, hl]

end Sys2Proof.Machine
end

