-- ==== Sys2Proof/Laws/Registers.lean ====
section
/-! SUPPORT. What the register-file ports can do (10_state.md R21 to R23). -/

namespace Sys2Proof.Machine

/-- An index of the register file. -/
theorem regIdx_zero_of_toNat {i : RegIdx} (h : i.toNat = 0) : i = 0#6 := by
  apply BitVec.eq_of_toNat_eq; simpa using h

@[simp] theorem regRead_zero (rf : RegFile) : regRead rf 0#6 = some 0#64 := by
  simp [regRead, Config.maxRegIdx]

/-- A read outside [0,31] has no value. -/
theorem regRead_eq_none_iff (rf : RegFile) (i : RegIdx) : regRead rf i = none ↔ 31 < i.toNat := by
  unfold regRead
  split
  · simp_all [Config.maxRegIdx]
  · split
    · simp_all [Config.maxRegIdx]
    · simp only [Config.maxRegIdx] at *
      constructor
      · intro h
        rw [Vector.getElem?_eq_none_iff] at h
        omega
      · omega

/-- A read within [0,31] has a value. -/
theorem regRead_isSome {rf : RegFile} {i : RegIdx} (h : i.toNat ≤ 31) : ∃ v, regRead rf i = some v := by
  cases hr : regRead rf i with
  | some v => exact ⟨v, rfl⟩
  | none => exact absurd ((regRead_eq_none_iff rf i).1 hr) (by omega)

@[simp] theorem regWrite_zero (rf : RegFile) (v : Word) : regWrite rf 0#6 v = some rf := by
  simp [regWrite]

/-- A write fails exactly outside [0,31]. -/
theorem regWrite_eq_none_iff (rf : RegFile) (i : RegIdx) (v : Word) : regWrite rf i v = none ↔ 31 < i.toNat := by
  unfold regWrite
  split
  · simp_all
  · split <;> simp_all [Config.maxRegIdx]

theorem regWrite_isSome {rf : RegFile} {i : RegIdx} {v : Word} (h : i.toNat ≤ 31) :
    ∃ rf', regWrite rf i v = some rf' := by
  cases hw : regWrite rf i v with
  | some rf' => exact ⟨rf', rfl⟩
  | none => exact absurd ((regWrite_eq_none_iff rf i v).1 hw) (by omega)

/-- Everything a write can do: nothing for index 0, or one place set. -/
theorem regWrite_cases {rf rf' : RegFile} {i : RegIdx} {v : Word} (h : regWrite rf i v = some rf') :
    (i = 0#6 ∧ rf' = rf) ∨ (i ≠ 0#6 ∧ i.toNat ≤ 31 ∧ rf' = rf.setIfInBounds i.toNat v) := by
  unfold regWrite at h
  split at h
  · left; exact ⟨‹_›, by simpa using h.symm⟩
  · split at h
    · cases h
    · right; exact ⟨‹_›, by simp_all [Config.maxRegIdx], by simpa using h.symm⟩

/-- A read after a write: the value written, or what was there. -/
theorem regRead_regWrite {rf rf' : RegFile} {i : RegIdx} {v : Word} (h : regWrite rf i v = some rf') (j : RegIdx) :
    regRead rf' j = if j = i ∧ i ≠ 0#6 then some v else regRead rf j := by
  obtain ⟨hi, rfl⟩ | ⟨hi, hle, rfl⟩ := regWrite_cases h
  · simp [hi]
  · by_cases hj : j = i
    · subst hj
      have : j.toNat < 32 := by omega
      simp [regRead, Config.maxRegIdx, hi, Nat.not_lt.2 hle, this]
    · have hne : i.toNat ≠ j.toNat := fun he => hj (BitVec.eq_of_toNat_eq he.symm)
      simp [regRead, hj, Vector.getElem?_setIfInBounds_ne hne]

/-- A write keeps the place of x0. -/
theorem regWrite_x0 {rf rf' : RegFile} {i : RegIdx} {v : Word} (h : regWrite rf i v = some rf') :
    rf'[0] = rf[0] := by
  obtain ⟨-, rfl⟩ | ⟨hi, hle, rfl⟩ := regWrite_cases h
  · rfl
  · have : i.toNat ≠ 0 := fun h0 => hi (regIdx_zero_of_toNat h0)
    rw [Vector.getElem_setIfInBounds_ne]
    exact this

@[simp] theorem supplied_x0 (rf : RegFile) : rf.supplied[0] = 0#64 := by
  simp [RegFile.supplied]

/-- The host's register file reads as it was supplied. -/
theorem regRead_supplied (rf : RegFile) (i : RegIdx) : regRead rf.supplied i = regRead rf i := by
  by_cases hi : i = 0#6
  · simp [hi]
  · have : 0 ≠ i.toNat := fun h0 => hi (regIdx_zero_of_toNat h0.symm)
    simp [regRead, RegFile.supplied, Vector.getElem?_setIfInBounds_ne this]

/-- Supplying a file whose x0 place holds 0 leaves it as it is. -/
theorem supplied_of_x0 {rf : RegFile} (h : rf[0] = 0#64) : rf.supplied = rf := by
  apply Vector.ext
  intro k hk
  by_cases h0 : k = 0
  · subst h0; simp [h]
  · rw [RegFile.supplied, Vector.getElem_setIfInBounds_ne]
    omega

end Sys2Proof.Machine
end

