-- ==== Sys2Proof/Laws/State.lean ====
section
/-! SUPPORT. One lemma per field per state update, and what latches and instructions say of each other: no later proof
unfolds a record update. -/

namespace Sys2Proof.Machine

/-! ### `State.presenting` -/

@[simp] theorem presenting_regs (s : State) (d : IdEx) : (s.presenting d).regs = s.regs := rfl
@[simp] theorem presenting_mem (s : State) (d : IdEx) : (s.presenting d).mem = s.mem := rfl
@[simp] theorem presenting_prog (s : State) (d : IdEx) : (s.presenting d).prog = s.prog := rfl
@[simp] theorem presenting_pc (s : State) (d : IdEx) : (s.presenting d).pc = s.pc := rfl
@[simp] theorem presenting_ifid (s : State) (d : IdEx) : (s.presenting d).ifid = s.ifid := rfl
@[simp] theorem presenting_idex (s : State) (d : IdEx) :
    (s.presenting d).idex = some d := rfl
@[simp] theorem presenting_exmem (s : State) (d : IdEx) : (s.presenting d).exmem = s.exmem := rfl
@[simp] theorem presenting_memwb (s : State) (d : IdEx) : (s.presenting d).memwb = s.memwb := rfl
@[simp] theorem presenting_cycleCount (s : State) (d : IdEx) : (s.presenting d).cycleCount = s.cycleCount := rfl
@[simp] theorem presenting_fetchExhausted (s : State) (d : IdEx) :
    (s.presenting d).fetchExhausted = s.fetchExhausted := rfl
@[simp] theorem presenting_halted (s : State) (d : IdEx) : (s.presenting d).halted = s.halted := rfl
@[simp] theorem presenting_log (s : State) (d : IdEx) : (s.presenting d).log = s.log := rfl
@[simp] theorem presenting_memwbNext (s : State) (d : IdEx) : (s.presenting d).memwbNext = s.memwbNext := rfl
@[simp] theorem presenting_memNext (s : State) (d : IdEx) : (s.presenting d).memNext = s.memNext := rfl

/-! ### `State.completed` -/

section completed
variable (s : State) (regs : RegFile) (x : Executed) (idex' : Option IdEx)

@[simp] theorem completed_regs : (s.completed regs x idex').regs = regs := rfl
@[simp] theorem completed_mem : (s.completed regs x idex').mem = s.memNext := rfl
@[simp] theorem completed_prog : (s.completed regs x idex').prog = s.prog := rfl
@[simp] theorem completed_pc : (s.completed regs x idex').pc = (s.fetched x).pc := rfl
@[simp] theorem completed_ifid : (s.completed regs x idex').ifid = (s.fetched x).ifid := rfl
@[simp] theorem completed_idex : (s.completed regs x idex').idex = idex' := rfl
@[simp] theorem completed_exmem : (s.completed regs x idex').exmem = x.exmem := rfl
@[simp] theorem completed_memwb : (s.completed regs x idex').memwb = s.memwbNext := rfl
@[simp] theorem completed_cycleCount : (s.completed regs x idex').cycleCount = s.cycleCount + 1 := rfl
@[simp] theorem completed_fetchExhausted :
    (s.completed regs x idex').fetchExhausted = (s.fetched x).fetchExhausted := rfl
@[simp] theorem completed_halted :
    (s.completed regs x idex').halted =
      drained (s.fetched x).fetchExhausted (s.fetched x).ifid idex' x.exmem s.memwbNext := rfl
@[simp] theorem completed_log : (s.completed regs x idex').log = s.log := rfl

end completed

/-! ### `State.fresh`, `State.restored`, `State.snapshot` -/

section call
variable (prog : List PackedWord) (rf : RegFile) (mem : Memory)

@[simp] theorem fresh_regs : (State.fresh prog rf mem).regs = rf.supplied := rfl
@[simp] theorem fresh_mem : (State.fresh prog rf mem).mem = mem := rfl
@[simp] theorem fresh_prog : (State.fresh prog rf mem).prog = prog := rfl
@[simp] theorem fresh_pc : (State.fresh prog rf mem).pc = 0#64 := rfl
@[simp] theorem fresh_ifid : (State.fresh prog rf mem).ifid = none := rfl
@[simp] theorem fresh_idex : (State.fresh prog rf mem).idex = none := rfl
@[simp] theorem fresh_exmem : (State.fresh prog rf mem).exmem = none := rfl
@[simp] theorem fresh_memwb : (State.fresh prog rf mem).memwb = none := rfl
@[simp] theorem fresh_cycleCount : (State.fresh prog rf mem).cycleCount = 0 := rfl
@[simp] theorem fresh_fetchExhausted : (State.fresh prog rf mem).fetchExhausted = false := rfl
@[simp] theorem fresh_halted : (State.fresh prog rf mem).halted = false := rfl
@[simp] theorem fresh_log : (State.fresh prog rf mem).log = [] := rfl

variable (snap : Snapshot)

@[simp] theorem restored_regs : (State.restored prog rf mem snap).regs = rf.supplied := rfl
@[simp] theorem restored_mem : (State.restored prog rf mem snap).mem = mem := rfl
@[simp] theorem restored_prog : (State.restored prog rf mem snap).prog = prog := rfl
@[simp] theorem restored_pc : (State.restored prog rf mem snap).pc = snap.pc := rfl
@[simp] theorem restored_ifid : (State.restored prog rf mem snap).ifid = snap.ifid := rfl
@[simp] theorem restored_idex : (State.restored prog rf mem snap).idex = snap.idex := rfl
@[simp] theorem restored_exmem : (State.restored prog rf mem snap).exmem = snap.exmem := rfl
@[simp] theorem restored_memwb : (State.restored prog rf mem snap).memwb = snap.memwb := rfl
@[simp] theorem restored_cycleCount : (State.restored prog rf mem snap).cycleCount = snap.cycleCount := rfl
@[simp] theorem restored_fetchExhausted :
    (State.restored prog rf mem snap).fetchExhausted = snap.fetchExhausted := rfl
@[simp] theorem restored_halted : (State.restored prog rf mem snap).halted = snap.halted := rfl
@[simp] theorem restored_log : (State.restored prog rf mem snap).log = [] := rfl

end call

@[simp] theorem snapshot_pc (s : State) : s.snapshot.pc = s.pc := rfl
@[simp] theorem snapshot_ifid (s : State) : s.snapshot.ifid = s.ifid := rfl
@[simp] theorem snapshot_idex (s : State) : s.snapshot.idex = s.idex := rfl
@[simp] theorem snapshot_exmem (s : State) : s.snapshot.exmem = s.exmem := rfl
@[simp] theorem snapshot_memwb (s : State) : s.snapshot.memwb = s.memwb := rfl
@[simp] theorem snapshot_cycleCount (s : State) : s.snapshot.cycleCount = s.cycleCount := rfl
@[simp] theorem snapshot_fetchExhausted (s : State) : s.snapshot.fetchExhausted = s.fetchExhausted := rfl
@[simp] theorem snapshot_halted (s : State) : s.snapshot.halted = s.halted := rfl
@[simp] theorem snapshot_log (s : State) : s.snapshot.log = s.log := rfl

/-- Restoring a state's own snapshot over its own registers, memory and program gives the state back, but for the log, if
its x0 place holds 0. -/
theorem restored_snapshot (s : State) (h : s.regs.supplied = s.regs) :
    State.restored s.prog s.regs s.mem s.snapshot = { s with log := [] } := by
  cases s
  simp only [State.restored, State.snapshot, State.mk.injEq, and_self, and_true]
  exact h

/-! ### Host updates -/

@[simp] theorem hostStore_mem (s : State) (a v : Word) : (s.hostStore a v).mem = memWrite s.mem a v := rfl
@[simp] theorem hostStore_regs (s : State) (a v : Word) : (s.hostStore a v).regs = s.regs := rfl

/-! ### Latches and the instructions they carry -/

/-- Presenting the instruction that a latch carries changes nothing. -/
theorem IdEx.withInstr_instr (d : IdEx) : d.withInstr d.instr = d := by
  obtain ⟨op, ⟨rdP, rd⟩, rs1, rs2, v1, v2, ⟨immP, imm⟩, pc⟩ := d
  cases op <;> cases rdP <;> cases immP <;> rfl

/-- The operation of the instruction that a latch carries. -/
@[simp] theorem IdEx.instr_op (d : IdEx) : d.instr.op = d.op := by
  obtain ⟨op, rd, rs1, rs2, v1, v2, imm, pc⟩ := d
  cases op <;> rfl

/-- The destination of the instruction that a latch carries is the latch's `rd` for the members of WRITES_RF. -/
theorem IdEx.instr_destination (d : IdEx) :
    d.instr.destination = if d.op.writesRF then some d.rd.value else none := by
  obtain ⟨op, rd, rs1, rs2, v1, v2, imm, pc⟩ := d
  cases op <;> rfl

/-- Presenting the latch that stands in ID/EX leaves the state as it is. -/
theorem presenting_self {s : State} {d : IdEx} (h : s.idex = some d) : s.presenting d = s := by
  simp only [State.presenting, ← h]

/-- The instruction in ID/EX executes in its own latch. -/
theorem standing_self {s : State} {d : IdEx} (h : s.idex = some d) : s.standing d.instr = .ok d := by
  simp [State.standing, h, IdEx.withInstr_instr]

/-- An instruction that ID/EX carries executes in that latch. -/
theorem standing_of {s : State} {d : IdEx} {i : Instr} (h : s.idex = some d) (hi : d.withInstr i = d) :
    s.standing i = .ok d := by
  simp [State.standing, h, hi]

end Sys2Proof.Machine
end

