-- ==== Sys2Proof/Laws/Stages.lean ====
section
/-! SUPPORT. What each stage unit can do: one lemma per unit that says everything, and the facts later proofs cite. -/

namespace Sys2Proof.Machine

/-! ### Write-back -/

/-- Everything write-back can do when it raises nothing. -/
theorem writeBack_cases {regs regs' : RegFile} {m : Option MemWb} (h : writeBack regs m = .ok regs') :
    (regs' = regs ∧ ∀ l, m = some l → l.op.writesRF = false) ∨
      ∃ l v, m = some l ∧ l.op.writesRF = true ∧ l.writeValue = some v ∧
        regWrite regs l.rd.value v = some regs' := by
  cases m with
  | none => left; simp_all [writeBack]
  | some l =>
    simp only [writeBack] at h
    split at h
    · rename_i hw
      right
      simp only [writeBackLatch] at h
      split at h
      · cases h
      · rename_i v hv
        split at h
        · rename_i r hr
          exact ⟨l, v, rfl, hw, hv, by simp_all⟩
        · cases h
    · rename_i hw
      left; simp_all

/-- Everything write-back can raise (R203). -/
theorem writeBack_error {regs : RegFile} {m : Option MemWb} {e : FatalError} (h : writeBack regs m = .error e) :
    ∃ l, m = some l ∧ l.op.writesRF = true ∧
      ((l.writeValue = none ∧ e = .missingWriteValue l.pc l.op .writeBack) ∨
        (l.writeValue ≠ none ∧ 31 < l.rd.value.toNat ∧ e = .outOfRange l.rd.value .write l.pc)) := by
  cases m with
  | none => simp [writeBack] at h
  | some l =>
    simp only [writeBack] at h
    split at h
    · rename_i hw
      refine ⟨l, rfl, hw, ?_⟩
      simp only [writeBackLatch] at h
      split at h
      · rename_i hv
        left; exact ⟨hv, by simpa using h.symm⟩
      · rename_i v hv
        split at h
        · cases h
        · rename_i hr
          right
          exact ⟨by simp [hv], (regWrite_eq_none_iff ..).1 hr, by simpa using h.symm⟩
    · cases h

/-- Write-back raises nothing when it is ready. -/
theorem writeBack_ok {regs : RegFile} {m : Option MemWb}
    (h : ∀ l, m = some l → l.op.writesRF = true → l.writeValue ≠ none ∧ l.rd.value.toNat ≤ 31) :
    ∃ regs', writeBack regs m = .ok regs' := by
  cases hw : writeBack regs m with
  | ok r => exact ⟨r, rfl⟩
  | error e =>
    obtain ⟨l, hm, hop, ⟨hv, -⟩ | ⟨-, hr, -⟩⟩ := writeBack_error hw
    · exact absurd hv (h l hm hop).1
    · have := (h l hm hop).2; omega

/-- Write-back keeps the place of x0. -/
theorem writeBack_x0 {regs regs' : RegFile} {m : Option MemWb} (h : writeBack regs m = .ok regs') :
    regs'[0] = regs[0] := by
  obtain ⟨rfl, -⟩ | ⟨l, v, -, -, -, hw⟩ := writeBack_cases h
  · rfl
  · exact regWrite_x0 hw

/-! ### The decode bypass -/

/-- Everything a bypass or register read of R192 can answer. -/
theorem resolve_cases {c p : Option ExMem} {m : Option MemWb} {regs : RegFile} {pc : Word} {r : RegIdx}
    {res : Except FatalError Word} (h : resolve c p m regs pc r = res) :
    (∃ x, c = some x ∧ r ≠ 0#6 ∧ x.writesReg r = true ∧ res = bypassed x.pc x.op x.writeValue) ∨
      ((∀ x, c = some x → r ≠ 0#6 → x.writesReg r = false) ∧
        ((∃ y, p = some y ∧ r ≠ 0#6 ∧ y.writesReg r = true ∧
            res = bypassed y.pc y.op (m.bind MemWb.writeValue)) ∨
          ((∀ y, p = some y → r ≠ 0#6 → y.writesReg r = false) ∧ res = readSource regs pc r))) := by
  have hprev : ∀ {res}, resolvePrevious p m regs pc r = res →
      (∃ y, p = some y ∧ r ≠ 0#6 ∧ y.writesReg r = true ∧ res = bypassed y.pc y.op (m.bind MemWb.writeValue)) ∨
        ((∀ y, p = some y → r ≠ 0#6 → y.writesReg r = false) ∧ res = readSource regs pc r) := by
    intro res h
    cases p with
    | none => right; simp_all [resolvePrevious]
    | some y =>
      simp only [resolvePrevious] at h
      split at h
      · rename_i hy
        left; exact ⟨y, rfl, hy.1, hy.2, h.symm⟩
      · rename_i hy
        right
        refine ⟨fun y' hy' hr => ?_, h.symm⟩
        cases hy'
        simpa [hr] using hy
  cases c with
  | none => right; exact ⟨by simp, hprev h⟩
  | some x =>
    simp only [resolve] at h
    split at h
    · rename_i hx
      left; exact ⟨x, rfl, hx.1, hx.2, h.symm⟩
    · rename_i hx
      right
      refine ⟨fun x' hx' hr => ?_, hprev h⟩
      cases hx'
      simpa [hr] using hx

@[simp] theorem bypassed_ok_iff {pc : Word} {op : Op} {o : Option Word} {v : Word} :
    bypassed pc op o = .ok v ↔ o = some v := by
  cases o <;> simp [bypassed]

@[simp] theorem bypassed_error_iff {pc : Word} {op : Op} {o : Option Word} {e : FatalError} :
    bypassed pc op o = .error e ↔ o = none ∧ e = .missingWriteValue pc op .decodeBypass := by
  cases o <;> simp [bypassed, eq_comm]

@[simp] theorem readSource_ok_iff {regs : RegFile} {pc : Word} {r : RegIdx} {v : Word} :
    readSource regs pc r = .ok v ↔ regRead regs r = some v := by
  unfold readSource; cases regRead regs r <;> simp

@[simp] theorem readSource_error_iff {regs : RegFile} {pc : Word} {r : RegIdx} {e : FatalError} :
    readSource regs pc r = .error e ↔ regRead regs r = none ∧ e = .outOfRange r .read pc := by
  unfold readSource; cases regRead regs r <;> simp [eq_comm]

/-- Index 0 resolves to 0, whatever the latches hold (R174). -/
theorem resolve_zero (c p : Option ExMem) (m : Option MemWb) (regs : RegFile) (pc : Word) :
    resolve c p m regs pc 0#6 = .ok 0#64 := by
  obtain ⟨x, -, h, -⟩ | ⟨-, ⟨y, -, h, -⟩ | ⟨-, h⟩⟩ := resolve_cases (rfl : resolve c p m regs pc 0#6 = _)
  · exact absurd rfl h
  · exact absurd rfl h
  · rw [h]; simp

/-! ### Decode -/

/-- Everything decode can produce: the bubble, an empty latch, or the decoded record with both sources resolved. -/
theorem decodeStage_cases {bubble : Bool} {f : Option IfId} {c p : Option ExMem} {m : Option MemWb} {regs : RegFile}
    {o : Option IdEx} (h : decodeStage bubble f c p m regs = .ok o) :
    ((bubble = true ∨ f = none) ∧ o = none) ∨
      ∃ g v1 v2, bubble = false ∧ f = some g ∧
        resolve c p m regs g.pc (srcIdx g.record.rs1) = .ok v1 ∧
        resolve c p m regs g.pc (srcIdx g.record.rs2) = .ok v2 ∧
        o = some { op := g.record.op, rd := g.record.rd, rs1 := srcIdx g.record.rs1, rs2 := srcIdx g.record.rs2,
                   rs1Val := v1, rs2Val := v2, imm := g.record.imm, pc := g.pc } := by
  unfold decodeStage at h
  split at h
  · left; exact ⟨.inl ‹_›, by simpa using h.symm⟩
  · rename_i hb
    split at h
    · left; exact ⟨.inr rfl, by simpa using h.symm⟩
    · rename_i g
      unfold decodeRecord at h
      cases h1 : resolve c p m regs g.pc (srcIdx g.record.rs1) with
      | error e => simp [h1] at h
      | ok v1 =>
        cases h2 : resolve c p m regs g.pc (srcIdx g.record.rs2) with
        | error e => simp [h1, h2] at h
        | ok v2 =>
          right
          simp only [h1, h2, Except.ok.injEq] at h
          exact ⟨g, v1, v2, by simpa using hb, rfl, h1, h2, h.symm⟩

/-- Everything decode can raise: its first source, or its second once the first is resolved (R268). -/
theorem decodeStage_error {bubble : Bool} {f : Option IfId} {c p : Option ExMem} {m : Option MemWb} {regs : RegFile}
    {e : FatalError} (h : decodeStage bubble f c p m regs = .error e) :
    ∃ g, bubble = false ∧ f = some g ∧
      (resolve c p m regs g.pc (srcIdx g.record.rs1) = .error e ∨
        ∃ v, resolve c p m regs g.pc (srcIdx g.record.rs1) = .ok v ∧
          resolve c p m regs g.pc (srcIdx g.record.rs2) = .error e) := by
  unfold decodeStage at h
  split at h
  · cases h
  · rename_i hb
    split at h
    · cases h
    · rename_i g
      refine ⟨g, by simpa using hb, rfl, ?_⟩
      unfold decodeRecord at h
      cases h1 : resolve c p m regs g.pc (srcIdx g.record.rs1) with
      | error e1 => left; simpa [h1] using h
      | ok v1 =>
        right
        cases h2 : resolve c p m regs g.pc (srcIdx g.record.rs2) with
        | error e2 => exact ⟨v1, rfl, by simpa [h1, h2] using h⟩
        | ok v2 => simp [h1, h2] at h

/-- A bubble raises nothing. -/
@[simp] theorem decodeStage_bubble (f : Option IfId) (c p : Option ExMem) (m : Option MemWb) (regs : RegFile) :
    decodeStage true f c p m regs = .ok none := by simp [decodeStage]

/-- An empty IF/ID decodes to an empty ID/EX and raises nothing (R193). -/
@[simp] theorem decodeStage_empty (b : Bool) (c p : Option ExMem) (m : Option MemWb) (regs : RegFile) :
    decodeStage b none c p m regs = .ok none := by cases b <;> simp [decodeStage]

/-! ### The forwarding multiplexer -/

/-- What the select of R171 says of the latches. -/
theorem fwdSrc_cases (p : Option ExMem) (m : Option MemWb) (r : RegIdx) :
    (fwdSrc p m r = .none ∧ (r = 0#6 ∨ ∀ y, p = some y → y.op.fwdWriter = true → y.rd.value ≠ r)) ∨
      (∃ y, p = some y ∧ r ≠ 0#6 ∧ y.op.fwdWriter = true ∧ y.rd.value = r ∧ fwdSrc p m r = .fromExMem) ∨
      (∃ z v, m = some z ∧ r ≠ 0#6 ∧ z.op.fwdWriter = true ∧ z.rd.value = r ∧ z.writeValue = some v ∧
        fwdSrc p m r = .fromMemWb ∧ ∀ y, p = some y → y.op.fwdWriter = true → y.rd.value ≠ r) := by
  unfold fwdSrc
  split
  · left; exact ⟨rfl, .inl ‹_›⟩
  · rename_i hr
    split
    · rename_i hp
      right; left
      cases p with
      | none => simp at hp
      | some y =>
        simp only [Option.any_some, Bool.and_eq_true, beq_iff_eq] at hp
        exact ⟨y, rfl, hr, hp.1, hp.2, rfl⟩
    · rename_i hp
      have hne : ∀ y, p = some y → y.op.fwdWriter = true → y.rd.value ≠ r := by
        intro y hy hw he
        subst hy
        exact hp (by simp [hw, he])
      split
      · rename_i hm
        right; right
        cases m with
        | none => simp at hm
        | some z =>
          simp only [Option.any_some, Bool.and_eq_true, beq_iff_eq] at hm
          obtain ⟨⟨h1, h2⟩, h3⟩ := hm
          obtain ⟨v, hv⟩ := Option.isSome_iff_exists.1 h3
          exact ⟨z, v, rfl, hr, h1, h2, hv, rfl, hne⟩
      · left; exact ⟨rfl, .inr hne⟩

/-! ### Fetch -/

/-- Everything fetch can do (R190). -/
theorem fetchStage_cases (prog : List PackedWord) (stall : Bool) (front : Front) :
    (stall = true ∧ fetchStage prog stall front = front) ∨
      (stall = false ∧ front.fetchExhausted = true ∧ fetchStage prog stall front = { front with ifid := none }) ∨
      (∃ w, stall = false ∧ front.fetchExhausted = false ∧ prog[front.pc.toNat]? = some w ∧
        fetchStage prog stall front =
          ⟨front.pc + 1#64, some ⟨Record.ofWord w, front.pc⟩, false⟩) ∨
      (stall = false ∧ front.fetchExhausted = false ∧ prog[front.pc.toNat]? = none ∧
        fetchStage prog stall front = ⟨front.pc, none, true⟩) := by
  obtain ⟨pc, ifid, ex⟩ := front
  cases stall with
  | true => exact .inl ⟨rfl, rfl⟩
  | false =>
    cases ex with
    | true => exact .inr (.inl ⟨rfl, rfl, rfl⟩)
    | false =>
      cases hw : prog[pc.toNat]? with
      | some w => exact .inr (.inr (.inl ⟨w, rfl, rfl, rfl, by simp [fetchStage, fetchRecord, hw]⟩))
      | none => exact .inr (.inr (.inr ⟨rfl, rfl, rfl, by simp only [fetchStage, fetchRecord, hw]; rfl⟩))

/-! ### Load-use detection -/

/-- What a load-use hazard is (R175). -/
theorem loadUse_iff (f : Option IfId) (o : Option IdEx) :
    loadUse f o = true ↔ ∃ d g, o = some d ∧ f = some g ∧ d.op = .load ∧ d.rd.value ≠ 0#6 ∧
      (d.rd.value = srcIdx g.record.rs1 ∨ d.rd.value = srcIdx g.record.rs2) := by
  cases o <;> cases f <;> simp [loadUse, and_assoc]

@[simp] theorem loadUse_none_right (f : Option IfId) : loadUse f none = false := by simp [loadUse]
@[simp] theorem loadUse_none_left (o : Option IdEx) : loadUse none o = false := by cases o <;> simp [loadUse]

end Sys2Proof.Machine
end

