-- ==== Sys2Proof/Laws/Cycle.lean ====
section
/-! SUPPORT. What a cycle, a meaning and a step can do, said once: later proofs cite these and unfold none of them. -/

namespace Sys2Proof.Machine

/-! ### The operation of each instruction -/

/-- What each meaning does with the selected operands: the table that `exec_eq` reads off the meanings. -/
def operationOf : Instr → ExecuteIn → Except FatalError Executed
  | .add _ _ _, x      => .ok (x.result (x.a + x.b))
  | .sub _ _ _, x      => .ok (x.result (x.a - x.b))
  | .and _ _ _, x      => .ok (x.result (x.a &&& x.b))
  | .or _ _ _, x       => .ok (x.result (x.a ||| x.b))
  | .xor _ _ _, x      => .ok (x.result (x.a ^^^ x.b))
  | .addi _ _ imm, x   => .ok (x.result (x.a + imm))
  | .load _ _ imm, x   => .ok (x.loadFrom (effectiveAddress x.a imm))
  | .store _ _ imm, x  => .ok (x.storeTo (effectiveAddress x.a imm) x.b)
  | .beq _ _ imm, x    => .ok (x.branch (x.a == x.b) (relativeTarget x.pc imm))
  | .bne _ _ imm, x    => .ok (x.branch (x.a != x.b) (relativeTarget x.pc imm))
  | .jal _ imm, x      => .ok (x.jump (linkValue x.pc) (relativeTarget x.pc imm))
  | .jalr _ _ imm, x   => .ok (x.jump (linkValue x.pc) (registerTarget x.a imm))
  | .lui _ imm, x      => .ok (x.result (upperImmediate imm))
  | .auipc _ imm, x    => .ok (x.result (pcUpperImmediate x.pc imm))
  | .unsupported tag _ _ _ _, x => .error (.unsupportedOperation tag.op.tag x.pc)

/-- Every meaning is the cycle of its operation. -/
theorem exec_eq (i : Instr) (s : State) : exec i s = executeCycle i (operationOf i) s := by
  cases i <;> rfl

/-- Every operation but the unsupported one answers, and copies the latch's fields into EX/MEM (R198). -/
theorem operationOf_ok {i : Instr} {x : ExecuteIn} {y : Executed} (h : operationOf i x = .ok y) :
    ∃ e, y.exmem = some e ∧ e.op = x.latch.op ∧ e.rd = x.latch.rd ∧ e.rs1 = x.latch.rs1 ∧ e.rs2 = x.latch.rs2 ∧
      e.imm = x.latch.imm ∧ e.pc = x.latch.pc := by
  cases i <;> simp only [operationOf, reduceCtorEq, Except.ok.injEq] at h <;> subst h <;>
    exact ⟨_, rfl, rfl, rfl, rfl, rfl, rfl, rfl⟩

/-- Only the operations of CTRL_SET have a transfer (R199). -/
theorem operationOf_transfer {i : Instr} {x : ExecuteIn} {y : Executed} (h : operationOf i x = .ok y)
    (hc : i.op.ctrlSet = false) : y.transfer = none := by
  cases i <;> simp only [operationOf, reduceCtorEq, Except.ok.injEq] at h <;> first | (subst h; rfl) | cases hc

/-- The control-transfer outputs of an operation that answers are those of `controlOutputs`. -/
theorem controlOutputs_eq {i : Instr} {x : ExecuteIn} {y : Executed} (h : operationOf i x = .ok y) :
    controlOutputs i x = y.transfer := by
  cases i <;> simp only [operationOf, reduceCtorEq, Except.ok.injEq] at h <;> subst h <;> rfl

/-- An operation that answers is supported. -/
theorem operationOf_supported {i : Instr} {x : ExecuteIn} {y : Executed} (h : operationOf i x = .ok y) :
    i.op.supported = true := by
  cases i <;> first | rfl | simp [operationOf] at h

/-- A supported operation answers. -/
theorem operationOf_isOk {i : Instr} (h : i.op.supported = true) (x : ExecuteIn) : ∃ y, operationOf i x = .ok y := by
  cases i
  case unsupported tag _ _ _ _ => cases tag <;> cases h
  all_goals exact ⟨_, rfl⟩

/-- An operation of WRITES_RF other than LOAD leaves its result in EX/MEM (R198). -/
theorem operationOf_result {i : Instr} {x : ExecuteIn} {y : Executed} (h : operationOf i x = .ok y)
    (hw : i.op.writesRF = true) (hl : i.op ≠ .load) : ∃ e, y.exmem = some e ∧ e.aluResult.present = true := by
  cases i <;> simp only [operationOf, reduceCtorEq, Except.ok.injEq] at h <;>
    first
      | (subst h; exact ⟨_, rfl, rfl⟩)
      | exact absurd rfl hl
      | cases hw

/-! ### A cycle -/

/-- Everything a cycle that answers a next state does. -/
theorem cycle_next {ex : Except FatalError Executed} {s t : State} (h : cycle ex s = .next t) :
    ∃ regs x o, writeBack s.regs s.memwb = .ok regs ∧ ex = .ok x ∧ s.decoded x regs = .ok o ∧
      t = s.completed regs x o := by
  unfold cycle at h
  cases hw : writeBack s.regs s.memwb with
  | error e => simp [hw, abort] at h
  | ok regs =>
    cases ex with
    | error e => simp [hw, abort] at h
    | ok x =>
      cases hd : s.decoded x regs with
      | error e => simp [hw, hd, abort] at h
      | ok o =>
        simp only [hw, hd, Host.Outcome.next.injEq] at h
        exact ⟨regs, x, o, rfl, rfl, hd, h.symm⟩

/-- A cycle whose three raising steps raise nothing answers the completed state. -/
theorem cycle_of_ok {s : State} {regs : RegFile} {x : Executed} {o : Option IdEx}
    (hw : writeBack s.regs s.memwb = .ok regs) (hd : s.decoded x regs = .ok o) :
    cycle (.ok x) s = .next (s.completed regs x o) := by
  simp [cycle, hw, hd]

/-- Everything a cycle can fault with, in the order of the steps (R265, R268). -/
theorem cycle_fault {ex : Except FatalError Executed} {s : State} {f : Fault} (h : cycle ex s = .fault f) :
    (∃ e, writeBack s.regs s.memwb = .error e ∧ f = e.fault ⟨s.regs, s.mem⟩) ∨
      ∃ regs, writeBack s.regs s.memwb = .ok regs ∧
        ((∃ e, ex = .error e ∧ f = e.fault ⟨regs, s.memNext⟩) ∨
          ∃ x e, ex = .ok x ∧ s.decoded x regs = .error e ∧ f = e.fault ⟨regs, s.memNext⟩) := by
  unfold cycle at h
  cases hw : writeBack s.regs s.memwb with
  | error e => left; exact ⟨e, rfl, by simpa [hw, abort, eq_comm] using h⟩
  | ok regs =>
    right
    refine ⟨regs, rfl, ?_⟩
    cases ex with
    | error e => left; exact ⟨e, rfl, by simpa [hw, abort, eq_comm] using h⟩
    | ok x =>
      right
      cases hd : s.decoded x regs with
      | error e => exact ⟨x, e, rfl, hd, by simpa [hw, hd, abort, eq_comm] using h⟩
      | ok o => simp [hw, hd] at h

/-- A cycle refuses nothing. -/
theorem cycle_ne_refused (ex : Except FatalError Executed) (s : State) (r : Refusal) : cycle ex s ≠ .refused r := by
  unfold cycle
  repeat' split
  all_goals simp [abort]

/-! ### Execute -/

/-- What execute makes of ID/EX in the cycle a step runs. -/
def State.executedNow (s : State) : Except FatalError Executed :=
  match s.idex with
  | none   => .ok ⟨none, none⟩
  | some d => s.executed (operationOf d.instr)

/-- The meaning of the instruction in ID/EX is the cycle of the state. -/
theorem exec_self {s : State} {d : IdEx} (h : s.idex = some d) : exec d.instr s = cycle s.executedNow s := by
  rw [exec_eq, executeCycle, standing_self h]
  simp only [presenting_self h, State.executedNow, h]

/-- The meaning of any instruction, when it does not stop before the cycle, is the cycle of its operation in the latch it
stands in. -/
theorem exec_next {i : Instr} {s t : State} (h : exec i s = .next t) :
    ∃ d, s.standing i = .ok d ∧ cycle ((s.presenting d).executed (operationOf i)) (s.presenting d) = .next t := by
  rw [exec_eq, executeCycle] at h
  split at h
  · cases h
  · exact ⟨_, ‹_›, h⟩

/-- Execute for an occupied ID/EX: operand selection, then the operation. -/
theorem executed_some {s : State} {d : IdEx} (h : s.idex = some d)
    (operation : ExecuteIn → Except FatalError Executed) :
    s.executed operation =
      match s.operands d with
      | .error e => .error e
      | .ok (a, b) => operation ⟨d, a, b⟩ := by
  rw [State.executed, h]; rfl

/-- Everything execute can answer. -/
theorem executedNow_ok {s : State} {x : Executed} (h : s.executedNow = .ok x) :
    (s.idex = none ∧ x = ⟨none, none⟩) ∨
      ∃ d a b, s.idex = some d ∧ s.operands d = .ok (a, b) ∧ operationOf d.instr ⟨d, a, b⟩ = .ok x := by
  unfold State.executedNow at h
  split at h
  · left; exact ⟨‹_›, by simpa using h.symm⟩
  · rename_i d hd
    right
    rw [executed_some hd] at h
    split at h
    · cases h
    · rename_i a b hab
      exact ⟨d, a, b, hd, hab, h⟩

/-! ### A step -/

/-- A running machine's step is a cycle. -/
theorem step_running {s : State} (h : s.Running) : step s = cycle s.executedNow s := by
  obtain ⟨hp, hh⟩ := h
  unfold step
  simp only [hp, hh, Bool.false_eq_true, ↓reduceIte]
  cases hd : s.idex with
  | none => simp [bubbleCycle, State.executedNow, hd]
  | some d => exact exec_self hd

/-- Everything a step that answers a next state does: nothing when halted, one cycle otherwise. -/
theorem step_next {s t : State} (h : step s = .next t) :
    programDefect s.prog = none ∧
      ((s.halted = true ∧ t = s) ∨
        (s.halted = false ∧ ∃ regs x o, writeBack s.regs s.memwb = .ok regs ∧ s.executedNow = .ok x ∧
          s.decoded x regs = .ok o ∧ t = s.completed regs x o)) := by
  cases hp : programDefect s.prog with
  | some q => obtain ⟨k, d⟩ := q; simp [step, hp] at h
  | none =>
    refine ⟨rfl, ?_⟩
    cases hh : s.halted with
    | true =>
      left
      refine ⟨rfl, ?_⟩
      simp only [step, hp, hh, ↓reduceIte, Host.Outcome.next.injEq] at h
      exact h.symm
    | false =>
      right
      rw [step_running ⟨hp, hh⟩] at h
      exact ⟨rfl, cycle_next h⟩

/-- A step faults only in a cycle. -/
theorem step_fault {s : State} {f : Fault} (h : step s = .fault f) :
    s.Running ∧ cycle s.executedNow s = .fault f := by
  cases hp : programDefect s.prog with
  | some q => obtain ⟨k, d⟩ := q; simp [step, hp] at h
  | none =>
    cases hh : s.halted with
    | true => simp [step, hp, hh] at h
    | false => exact ⟨⟨hp, hh⟩, by rwa [step_running ⟨hp, hh⟩] at h⟩

/-- A cycle takes a transfer exactly when the instruction in ID/EX does (R140 to R144). -/
theorem executedNow_taken {s : State} {x : Executed} (h : s.executedNow = .ok x) : x.taken = s.redirects := by
  obtain ⟨hd, rfl⟩ | ⟨d, a, b, hd, hop, hx⟩ := executedNow_ok h
  · simp [State.redirects, hd, Executed.taken]
  · simp only [State.redirects, hd, Option.any_some]
    have hbr : d.op = .beq ∨ d.op = .bne → a = d.rs1Val ∧ b = d.rs2Val := by
      intro h
      simp only [State.operands, selectOperands, h, ↓reduceIte, Except.ok.injEq, Prod.mk.injEq] at hop
      exact ⟨hop.1.symm, hop.2.symm⟩
    obtain ⟨op, rd, rs1, rs2, v1, v2, imm, pc⟩ := d
    cases op <;> simp only [IdEx.instr, operationOf, reduceCtorEq, Except.ok.injEq] at hx <;> subst hx <;>
      simp only [IdEx.takes, Executed.taken, ExecuteIn.result, ExecuteIn.loadFrom, ExecuteIn.storeTo, ExecuteIn.branch,
        ExecuteIn.jump]
    all_goals
      obtain ⟨rfl, rfl⟩ := hbr (by simp)
      rfl

/-! ### The control unit and the front end -/

/-- Execute's select never is FROM_MEM_WB inside the block, because `MEMWB'` is the image of EX/MEM (R179). -/
theorem fwdSrc_image (s : State) (r : RegIdx) : fwdSrc s.exmem s.memwbNext r ≠ .fromMemWb := by
  obtain ⟨h, -⟩ | ⟨y, -, -, -, -, h⟩ | ⟨z, v, hz, -, hw, hrd, -, -, hne⟩ := fwdSrc_cases s.exmem s.memwbNext r
  · simp [h]
  · simp [h]
  · cases hp : s.exmem with
    | none => simp [State.memwbNext, hp] at hz
    | some p =>
      simp only [State.memwbNext, hp, Option.map_some, Option.some.injEq] at hz
      subst hz
      exact absurd hrd (hne p hp hw)

@[simp] theorem signals_bubble (s : State) : s.signals.bubbleExecute = loadUse s.ifid s.idex := rfl
@[simp] theorem signals_stallFetch (s : State) : s.signals.stallFetch = loadUse s.ifid s.idex := rfl
@[simp] theorem signals_stallDecode (s : State) : s.signals.stallDecode = loadUse s.ifid s.idex := rfl

/-- Without a taken transfer the front end of decode is the one of the cycle's start. -/
theorem front_not_taken {s : State} {x : Executed} (h : x.taken = false) :
    s.front x = ⟨s.pc, s.ifid, s.fetchExhausted⟩ := by
  unfold State.front redirect
  unfold Executed.taken at h
  cases hx : x.transfer with
  | none => rfl
  | some t => simp [hx] at h; simp [h]

/-- A taken transfer empties IF/ID and sets the program counter to its target (R233). -/
theorem front_taken {s : State} {x : Executed} {t : Transfer} (ht : x.transfer = some t) (h : t.taken = true) :
    s.front x = ⟨t.nextPc, none, false⟩ := by
  simp [State.front, redirect, ht, h]

/-- A taken transfer and a load-use stall never meet (R231). -/
theorem not_taken_of_loadUse {s : State} {x : Executed} (hx : s.executedNow = .ok x)
    (h : loadUse s.ifid s.idex = true) : x.taken = false := by
  obtain ⟨d, g, hd, -, hop, -⟩ := (loadUse_iff ..).1 h
  obtain ⟨hn, -⟩ | ⟨d', a, b, hd', -, ho⟩ := executedNow_ok hx
  · simp [hn] at hd
  · rw [hd] at hd'
    cases hd'
    have : x.transfer = none := operationOf_transfer ho (by simp [hop, Op.ctrlSet])
    simp [Executed.taken, this]

/-! ### The ports -/

/-- The data port while write-back raises nothing. -/
theorem dmem_of_ok {b : Block} {regs : RegFile} (hb : b.busy = true)
    (hw : writeBack b.core.regs b.core.memwb = .ok regs) : b.dmem = dmemPort b.core.exmem := by
  simp [Block.dmem, hb, hw]

/-- The data port while write-back raises: no access. -/
theorem dmem_of_error {b : Block} {e : FatalError} (hb : b.busy = true)
    (hw : writeBack b.core.regs b.core.memwb = .error e) : b.dmem = dmemPort none := by
  simp [Block.dmem, hb, hw]

/-- `imem_addr` in a cycle whose execute answers: the program counter after step 5. -/
theorem imemAddr_of_ok {b : Block} {x : Executed} (hb : b.busy = true) (hx : b.core.executedNow = .ok x) :
    b.imemAddr = (b.core.front x).pc := by
  simp only [Block.imemAddr, hb, if_true, State.fetchSlot]
  obtain ⟨hn, rfl⟩ | ⟨d, a, c, hd, hop, hxx⟩ := executedNow_ok hx
  · simp [hn, State.front, redirect]
  · simp only [hd, hop, controlOutputs_eq hxx]
    rfl

end Sys2Proof.Machine
end

