-- ==== Sys2Proof/Laws/PerInstr.lean ====
section
/-! SUPPORT. A fact about every instruction as syntax, one lemma per constructor: its packed word has the header of the table of
30_encoding.md R87. -/

namespace Sys2Proof.Laws.HeaderMatch

/-- R87: the masked header of the encoded instruction is the match value of its operation. -/
def Statement (i : Instr) : Prop := header (encode i) &&& headerMask i.op = headerMatch i.op

theorem add (rd rs1 rs2 : RegIdx) : Statement (.add rd rs1 rs2) :=
  (Record.header_pack_masked _).trans (bareHeader_of_shape rfl)
theorem sub (rd rs1 rs2 : RegIdx) : Statement (.sub rd rs1 rs2) :=
  (Record.header_pack_masked _).trans (bareHeader_of_shape rfl)
theorem and (rd rs1 rs2 : RegIdx) : Statement (.and rd rs1 rs2) :=
  (Record.header_pack_masked _).trans (bareHeader_of_shape rfl)
theorem or (rd rs1 rs2 : RegIdx) : Statement (.or rd rs1 rs2) :=
  (Record.header_pack_masked _).trans (bareHeader_of_shape rfl)
theorem xor (rd rs1 rs2 : RegIdx) : Statement (.xor rd rs1 rs2) :=
  (Record.header_pack_masked _).trans (bareHeader_of_shape rfl)
theorem addi (rd rs1 : RegIdx) (imm : Word) : Statement (.addi rd rs1 imm) :=
  (Record.header_pack_masked _).trans (bareHeader_of_shape rfl)
theorem load (rd rs1 : RegIdx) (imm : Word) : Statement (.load rd rs1 imm) :=
  (Record.header_pack_masked _).trans (bareHeader_of_shape rfl)
theorem store (rs1 rs2 : RegIdx) (imm : Word) : Statement (.store rs1 rs2 imm) :=
  (Record.header_pack_masked _).trans (bareHeader_of_shape rfl)
theorem beq (rs1 rs2 : RegIdx) (imm : Word) : Statement (.beq rs1 rs2 imm) :=
  (Record.header_pack_masked _).trans (bareHeader_of_shape rfl)
theorem bne (rs1 rs2 : RegIdx) (imm : Word) : Statement (.bne rs1 rs2 imm) :=
  (Record.header_pack_masked _).trans (bareHeader_of_shape rfl)
theorem jal (rd : RegIdx) (imm : Word) : Statement (.jal rd imm) :=
  (Record.header_pack_masked _).trans (bareHeader_of_shape rfl)
theorem jalr (rd rs1 : RegIdx) (imm : Word) : Statement (.jalr rd rs1 imm) :=
  (Record.header_pack_masked _).trans (bareHeader_of_shape rfl)
theorem lui (rd : RegIdx) (imm : Word) : Statement (.lui rd imm) :=
  (Record.header_pack_masked _).trans (bareHeader_of_shape rfl)
theorem auipc (rd : RegIdx) (imm : Word) : Statement (.auipc rd imm) :=
  (Record.header_pack_masked _).trans (bareHeader_of_shape rfl)

theorem unsupported (tag : UnsupportedTag) (rd rs1 rs2 : Option RegIdx) (imm : Option Word) :
    Statement (.unsupported tag rd rs1 rs2 imm) := by
  have h := congrArg (· &&& 0xFC00000E#32)
    (Record.header_pack_masked (Instr.unsupported tag rd rs1 rs2 imm).toRecord)
  have hm : ∀ p : Bool × Bool × Bool × Bool, bareHeader p tag.op &&& 0xFC00000E#32 = 0x0000000E#32 := by
    cases tag <;> decide
  rw [Instr.toRecord_op, BitVec.and_assoc, show (0xFC0000FF#32 &&& 0xFC00000E#32) = 0xFC00000E#32 by decide] at h
  have hs := h.trans (hm _)
  cases tag <;> exact hs

end Sys2Proof.Laws.HeaderMatch
end

