-- ==== Sys2Proof/Tests/Slice0.lean ====
section
/-! SUPPORT. The model's own tests. Expected values are those of spec/95_test_vectors.md (section numbers in the comments) or are
written out from the tables of spec/30_encoding.md; then, for every statement with hypotheses, a witness that they can be met. -/

namespace Sys2Proof.Tests

open Sys2Proof.Machine

/-! ### Helpers -/

/-- What a step that answers a next state leaves in a place. -/
def after {α : Type} (place : State → α) : StepResult → Option α
  | .next t    => some (place t)
  | .fault _   => none
  | .refused _ => none

/-- The next state, the state itself where there is none. -/
def nextOf (s : State) : State :=
  match step s with
  | .next t    => t
  | .fault _   => s
  | .refused _ => s

/-- The fault of a step. -/
def faultOf : StepResult → Option Fault
  | .fault f   => some f
  | .next _    => none
  | .refused _ => none

/-- The refusal of a step. -/
def refusalOf : StepResult → Option Refusal
  | .refused r => some r
  | .next _    => none
  | .fault _   => none

/-- ADDI x1,x0,5 (95, section 2.1). -/
def addi5 : PackedWord := 0x0000000000000005000001B5#96

/-- x1 = 100 and x2 = 7. -/
def twoRegs : RegFile := (RegFile.unloaded.setIfInBounds 1 100#64).setIfInBounds 2 7#64

/-- A fresh start with one record, two preloaded registers and Mem[100] = 9. -/
def small : State := State.fresh [addi5] twoRegs [(100, 9#64)]

/-- The ID/EX latch of an instruction with its captured operand values. -/
def holding (i : Instr) (pc a b : Word) : IdEx where
  op := i.op
  rd := i.toRecord.rd
  rs1 := i.src1
  rs2 := i.src2
  rs1Val := a
  rs2Val := b
  imm := i.toRecord.imm
  pc := pc

/-- `small` with an instruction in ID/EX and the other latches empty. -/
def inExecute (i : Instr) (pc a b : Word) : State := { small with idex := some (holding i pc a b) }

/-- The `alu_result` the executed instruction leaves. -/
def aluAfter (i : Instr) (pc a b : Word) : Option (Option (Opt Word)) :=
  after (fun t => t.exmem.map (·.aluResult)) (exec i (inExecute i pc a b))

/-- The address and the store data the executed instruction leaves. -/
def accessAfter (i : Instr) (pc a b : Word) : Option (Option (Opt Word × Opt Word)) :=
  after (fun t => t.exmem.map fun e => (e.addr, e.storeVal)) (exec i (inExecute i pc a b))

/-- The program counter after the cycle, and the slot in IF/ID: the next fetch. -/
def fetchAfter (i : Instr) (pc a b : Word) : Option (Word × Option Word) :=
  after (fun t => (t.pc, t.ifid.map (·.pc)))
    (exec i { inExecute i pc a b with prog := List.replicate 10 addi5, pc := pc + 2#64 })

/-! ### Decoding: words written out from the tables of R85 to R87 -/

-- ADD x3,x1,x2: tag 0, presence 0111 (imm? rs2? rs1? rd?), rd 3 in bits 13..8, rs1 1 in 19..14, rs2 2 in 25..20 (2.1)
theorem test_decode_add : decodeWord 0x000000000000000000204370#96 = .instr (.add 3 1 2) := by decide
-- SUB x9,x0,x1 (program P3): bits 0001, 0111, rd 001001, rs1 000000, rs2 000001
theorem test_decode_sub : decodeWord 0b00000100000000100101110001#96 = .instr (.sub 9 0 1) := by decide
theorem test_decode_and : decodeWord 0b11111111111010001101110010#96 = .instr (.and 35 62 63) := by decide
theorem test_decode_or : decodeWord 0b00001000000100001101110011#96 = .instr (.or 3 1 2) := by decide
theorem test_decode_xor : decodeWord 0b00001000000100001101110100#96 = .instr (.xor 3 1 2) := by decide
theorem test_decode_addi : decodeWord 0xFFFFFFFFFFFFFFFF000041B5#96 = .instr (.addi 1 1 (-1)) := by decide
theorem test_decode_load : decodeWord 0x0000000000000000000043B6#96 = .instr (.load 3 1 0) := by decide
theorem test_decode_store : decodeWord 0x0000000000000000002040E7#96 = .instr (.store 1 2 0) := by decide
theorem test_decode_beq : decodeWord 0x0000000000000002002040E8#96 = .instr (.beq 1 2 2) := by decide
theorem test_decode_bne : decodeWord 0xFFFFFFFFFFFFFFFE000040E9#96 = .instr (.bne 1 0 (-2)) := by decide
theorem test_decode_jal : decodeWord 0x00000000000000030000059A#96 = .instr (.jal 5 3) := by decide
-- JALR x7,1(x5): tag 1011, presence 1011, rd 000111, rs1 000101, imm 1 in bits 95..32
theorem test_decode_jalr : decodeWord 0x0000000000000001000147BB#96 = .instr (.jalr 7 5 1) := by decide
theorem test_decode_lui : decodeWord 0x00000000000000010000019C#96 = .instr (.lui 1 1) := by decide
theorem test_decode_auipc : decodeWord 0x00000000000000000000029D#96 = .instr (.auipc 2 0) := by decide
theorem test_decode_tag14 :
    decodeWord 0x00000000000000000000000E#96 = .instr (.unsupported .tag14 none none none none) := by decide
theorem test_decode_tag15 :
    decodeWord 0x0000000000000000000000FF#96 = .instr (.unsupported .tag15 (some 0) (some 0) (some 0) (some 0)) := by
  decide
/-- Indices above 31 are legal in a record (2.1). -/
theorem test_decode_high_index :
    decodeWord 0x0000000000000002000028B5#96 = .instr (.addi 40 0 2) ∧
      decodeWord 0x000000000000000000084270#96 = .instr (.add 2 33 0) := by decide
/-- The encoder writes the words of 2.1. -/
theorem test_encode_words :
    encode (.addi 1 0 5) = 0x0000000000000005000001B5#96 ∧ encode (.jal 5 3) = 0x00000000000000030000059A#96 ∧
      encode (.store 1 2 0) = 0x0000000000000000002040E7#96 := by decide

/-! ### WellFormed: each check refuses an ill-formed term -/

theorem smoke_reserved_bits : decodeWord 0x0000000000000005040001B5#96 = .refused .reservedBits := by decide
theorem smoke_missing_immediate : decodeWord 0x000000000000000000000135#96 = .refused .badShape := by decide
theorem smoke_extra_field : decodeWord 0x0000000000000000000001F5#96 = .refused .badShape := by decide
theorem smoke_shape : Record.wellShaped ⟨.store, .of 1, .of 1, .of 2, .of 0⟩ = false := by decide
theorem smoke_shape_unsupported : Record.wellShaped ⟨.tag15, .absent, .of 1, .absent, .of 0⟩ = true := by decide
theorem smoke_program : programDefect [addi5, 0x000000000000000000000135#96] = some (1, .badShape) := by decide
theorem smoke_program_length (n : Nat) (h : n = 2 ^ 64) : ¬ ProgramLengthOk (List.replicate n addi5) := by
  intro hp
  unfold ProgramLengthOk at hp
  rw [List.length_replicate] at hp
  omega
/-- R88: refused before anything runs. -/
theorem smoke_step_refuses :
    refusalOf (step (State.fresh [addi5, 0x000000000000000000000135#96] twoRegs [])) =
      some (.malformedRecord 1 .badShape) := by decide

/-! ### The host's two questions -/

theorem test_decodeTableWord : decodeTableWord 96 0x0000000000000005000001B5 = some (.addi 1 0 5) := by decide
/-- Bits above `nbits` are 0: a header alone has the immediate 0. -/
theorem test_decodeTableWord_short : decodeTableWord 32 0x0000000000000005000001B5 = some (.addi 1 0 0) := by decide
theorem test_decodeTableWord_refuses : decodeTableWord 96 0x0000000000000005040001B5 = none := by decide
/-- The placed word is the very next instruction to execute: its result stands in EX/MEM after one step (E4). -/
theorem test_withFetchWord_runs :
    after (fun t => t.exmem) (step (State.reset.withFetchWord 96 0x000000000000000A000001B5)) =
      some (some { op := .addi, rd := .of 1, rs1 := 0, rs2 := 0, imm := .of 10, pc := 0, aluResult := .of 10,
                   addr := .absent, storeVal := .absent }) := by decide
/-- Placing the word gives the ID/EX that two cycles from reset give of the program with that word (R293). -/
theorem test_withFetchWord_is_two_cycles :
    (State.reset.withFetchWord 96 0x000000000000000A000001B5).idex =
      (nextOf (nextOf (State.fresh [0x000000000000000A000001B5#96] RegFile.unloaded []))).idex := by decide
/-- A placed unsupported record faults in execute in the next step (E9). -/
theorem test_withFetchWord_unsupported :
    faultOf (step (State.reset.withFetchWord 96 0x0E)) = some (.unsupportedOperation 14 0 ⟨RegFile.unloaded, []⟩) := by
  decide

/-! ### One step of each instruction (95, sections 2.2 to 2.7) -/

theorem test_add_wraps : aluAfter (.add 3 1 2) 0 0xFFFFFFFFFFFFFFFF#64 1#64 = some (some (.of 0)) := by decide
theorem test_add : aluAfter (.add 3 1 2) 0 0x123456789ABCDEF0#64 0x0FEDCBA987654321#64 =
    some (some (.of 0x2222222222222211#64)) := by decide
theorem test_sub_borrows : aluAfter (.sub 3 1 2) 0 1#64 2#64 = some (some (.of 0xFFFFFFFFFFFFFFFF#64)) := by decide
theorem test_sub : aluAfter (.sub 3 1 2) 0 0xFF00#64 0x0FF0#64 = some (some (.of 0xEF10#64)) := by decide
theorem test_and : aluAfter (.and 3 1 2) 0 0xFF00#64 0x0FF0#64 = some (some (.of 0x0F00#64)) := by decide
theorem test_or : aluAfter (.or 3 1 2) 0 0xFF00#64 0x0FF0#64 = some (some (.of 0xFFF0#64)) := by decide
theorem test_xor : aluAfter (.xor 3 1 2) 0 0xFF00#64 0x0FF0#64 = some (some (.of 0xF0F0#64)) := by decide
theorem test_addi_negative : aluAfter (.addi 3 1 (-100)) 0 100#64 55#64 = some (some (.of 0)) := by decide
theorem test_addi_wide_immediate : aluAfter (.addi 3 1 0x8000000000000000#64) 0 5#64 0#64 =
    some (some (.of 0x8000000000000005#64)) := by decide
theorem test_load_address : accessAfter (.load 3 1 3) 0 100#64 0#64 = some (some (.of 103, .absent)) := by decide
theorem test_load_address_wraps : accessAfter (.load 3 1 1) 0 0xFFFFFFFFFFFFFFFF#64 0#64 = some (some (.of 0, .absent)) := by
  decide
theorem test_store_address_and_data : accessAfter (.store 1 2 (-1)) 0 0#64 5#64 =
    some (some (.of 0xFFFFFFFFFFFFFFFF#64, .of 5)) := by decide
theorem test_beq_taken : fetchAfter (.beq 1 2 2) 2 5#64 5#64 = some (5, some 4) := by decide
theorem test_beq_not_taken : fetchAfter (.beq 1 2 2) 2 5#64 6#64 = some (5, some 4) := by decide
theorem test_bne_taken : fetchAfter (.bne 1 2 (-2)) 4 2#64 0#64 = some (3, some 2) := by decide
/-- BNE at slot 1 to slot -1: out of range, the pipeline drains (2.5). -/
theorem test_bne_out_of_range : fetchAfter (.bne 1 2 (-2)) 1 1#64 0#64 = some (0xFFFFFFFFFFFFFFFF#64, none) := by decide
theorem test_jal_link : aluAfter (.jal 5 3) 2 0 0 = some (some (.of 6)) := by decide
theorem test_jal_target : fetchAfter (.jal 5 3) 2 0 0 = some (6, some 5) := by decide
theorem test_jalr_link : aluAfter (.jalr 7 5 1) 5 6#64 0 = some (some (.of 9)) := by decide
/-- 4 + 1 = 5 with bit 0 cleared is 4 (2.6). -/
theorem test_jalr_clears_bit0 : fetchAfter (.jalr 7 5 1) 3 4#64 0 = some (5, some 4) := by decide
theorem test_lui_no_sign_extension : aluAfter (.lui 3 0x80000#64) 9 7 7 = some (some (.of 0x80000000#64)) := by decide
theorem test_lui_shifts_out : aluAfter (.lui 3 0x10000000000000#64) 9 7 7 = some (some (.of 0)) := by decide
theorem test_auipc : aluAfter (.auipc 3 (-1)) 5 0 0 = some (some (.of 0xFFFFFFFFFFFFF014#64)) := by decide
theorem test_auipc_wraps : aluAfter (.auipc 3 0) 0x4000000000000001#64 0 0 = some (some (.of 4)) := by decide
/-- E9: the error, its slot and its tag; nothing of the register file or the memory is touched. -/
theorem test_unsupported : faultOf (exec (.unsupported .tag15 none none none none)
    (inExecute (.unsupported .tag15 none none none none) 1 0 0)) =
      some (.unsupportedOperation 15 1 ⟨twoRegs, [(100, 9#64)]⟩) := by decide

/-! ### Memory access and write-back (95, sections 2.4 and 2.10) -/

/-- An EX/MEM latch of an instruction that has executed. -/
def passed (i : Instr) (pc : Word) (result addr data : Opt Word) : ExMem :=
  { (holding i pc 0 0).carried with aluResult := result, addr := addr, storeVal := data }

/-- LOAD x1,0(x1) with Mem[100] = 9: the loaded value waits in MEM/WB. -/
theorem test_load_reads : after (fun t => t.memwb.map (·.memData))
    (step { small with exmem := some (passed (.load 1 1 0) 0 .absent (.of 100) .absent) }) =
      some (some (.of 9)) := by decide
/-- A LOAD from an address never stored to gives 0. -/
theorem test_load_unmapped : after (fun t => t.memwb.map (·.memData))
    (step { small with exmem := some (passed (.load 1 1 0) 0 .absent (.of 101) .absent) }) =
      some (some (.of 0)) := by decide
theorem test_store_writes : after (fun t => t.mem)
    (step { small with exmem := some (passed (.store 1 2 0) 0 .absent (.of 100) (.of 5)) }) =
      some [(100, 5#64)] := by decide
/-- STORE x0: a stored 0 is mapped (R62, R74). -/
theorem test_store_zero_is_mapped : after (fun t => t.mem)
    (step { small with exmem := some (passed (.store 1 0 0) 0 .absent (.of 7) (.of 0)) }) =
      some [(7, 0#64), (100, 9#64)] := by decide
theorem test_write_back : after (fun t => regRead t.regs 2)
    (step { small with memwb := some ⟨passed (.addi 2 0 5) 0 (.of 5) .absent .absent, .absent⟩ }) =
      some (some 5) := by decide
/-- ADDI x0,x0,5 writes nothing (2.3). -/
theorem test_write_back_x0 : after (fun t => t.regs)
    (step { small with memwb := some ⟨passed (.addi 0 0 5) 0 (.of 5) .absent .absent, .absent⟩ }) =
      some twoRegs := by decide
/-- P6: OutOfRange(40, write, pc 1). -/
theorem test_write_back_out_of_range : faultOf
    (step { small with memwb := some ⟨passed (.addi 40 0 2) 1 (.of 2) .absent .absent, .absent⟩ }) =
      some (.outOfRange 40 .write 1 ⟨twoRegs, [(100, 9#64)]⟩) := by decide
/-- A foreign snapshot: ADD x1 in MEM/WB with no result (2.10). -/
theorem test_missing_write_value : faultOf
    (step { small with memwb := some ⟨passed (.add 1 2 3) 4 .absent .absent .absent, .absent⟩ }) =
      some (.missingWriteValue 4 .add .writeBack ⟨twoRegs, [(100, 9#64)]⟩) := by decide

/-! ### Decode and the control unit (95, sections 2.8 and 2.10) -/

/-- The IF/ID latch of an instruction. -/
def waiting (i : Instr) (pc : Word) : IfId := ⟨i.toRecord, pc⟩

/-- ADD x2,x33,x34: rs1 before rs2 (D27). -/
theorem test_decode_rs1_first : faultOf (step { small with ifid := some (waiting (.add 2 33 34) 0) }) =
    some (.outOfRange 33 .read 0 ⟨twoRegs, [(100, 9#64)]⟩) := by decide
theorem test_forward_priority : (forwardA (some (holding (.add 3 1 1) 2 0 0))
    (some (passed (.addi 1 0 5) 1 (.of 5) .absent .absent))
    (some ⟨passed (.addi 1 0 4) 0 (.of 4) .absent .absent, .absent⟩)) = .fromExMem := by decide
theorem test_forward_jal_is_no_producer : (forwardA (some (holding (.add 3 1 0) 2 0 0))
    (some (passed (.jal 1 4) 1 (.of 5) .absent .absent)) none) = .none := by decide
theorem test_forward_memwb : (forwardA (some (holding (.add 3 1 2) 2 0 0)) none
    (some ⟨passed (.load 1 0 4) 0 .absent (.of 4) .absent, .of 9⟩)) = .fromMemWb := by decide
theorem test_forwardB_not_for_addi : (forwardB (some (holding (.addi 3 1 4) 2 0 0))
    (some (passed (.addi 0 0 5) 1 (.of 5) .absent .absent)) none) = .none := by decide
theorem test_load_use_store_data :
    loadUse (some (waiting (.store 5 2 0) 1)) (some (holding (.load 2 1 0) 0 0 0)) = true := by decide
theorem test_load_use_jal :
    loadUse (some (waiting (.jal 2 1) 1)) (some (holding (.load 2 1 0) 0 0 0)) = false := by decide
theorem test_load_use_unsupported :
    loadUse (some (waiting (.unsupported .tag14 none (some 2) none none) 1)) (some (holding (.load 2 1 0) 0 0 0)) = true := by
  decide
theorem test_load_use_high_index :
    loadUse (some (waiting (.add 3 40 0) 1)) (some (holding (.load 40 1 0) 0 0 0)) = true := by decide

/-! ### Fetch and the host (95, sections 1 and 2.9) -/

theorem test_fetch_past_the_end : after (fun t => (t.pc, t.ifid, t.fetchExhausted)) (step { small with pc := 1 }) =
    some (1, none, true) := by decide
theorem test_fetch_held_by_stall : after (fun t => (t.pc, t.ifid.map (·.pc), t.idex))
    (step { inExecute (.load 2 1 0) 0 100 0 with ifid := some (waiting (.add 3 2 2) 1), pc := 2 }) =
      some (2, some 1, none) := by decide
/-- E1: the value is truncated to 64 bits; x0 discards; an index above 31 is OutOfRange. -/
theorem test_host_write_truncates :
    ((small.hostWrite 5 (2 ^ 64 + 3)).toOption.map fun s => regRead s.regs 5) = some (some 3) ∧
    ((small.hostWrite 5 (-1)).toOption.map fun s => regRead s.regs 5) = some (some 0xFFFFFFFFFFFFFFFF#64) := by decide
theorem test_host_write_x0 : ((small.hostWrite 0 42).toOption.map fun s => regRead s.regs 0) = some (some 0) := by decide
theorem test_host_out_of_range :
    (match small.hostWrite 32 1 with | .error e => some e | .ok _ => none) = some ⟨32, .write⟩ ∧
    (match small.hostRead 40 with | .error e => some e | .ok _ => none) = some ⟨40, .read⟩ := by decide

/-! ### Witnesses: the hypotheses of every statement can be met -/

/-- All stages occupied: ADDI x1,x0,5 writes back, ADDI x2,x0,7 passes the memory stage, an instruction executes, and
ADD x4,x2,x1 waits for decode. -/
def busy (i : Instr) (a b : Word) : State :=
  { small with
    prog := List.replicate 10 addi5, pc := 9
    ifid := some (waiting (.add 4 2 1) 8)
    idex := some (holding i 7 a b)
    exmem := some (passed (.addi 2 0 7) 6 (.of 7) .absent .absent)
    memwb := some ⟨passed (.addi 1 0 5) 5 (.of 5) .absent .absent, .absent⟩ }

theorem busy_running (i : Instr) (a b : Word) : (busy i a b).Running := by
  refine ⟨?_, rfl⟩
  show programDefect (List.replicate 10 addi5) = none
  decide

theorem busy_writeBackReady (i : Instr) (a b : Word) : (busy i a b).WriteBackReady := by
  intro l hl _
  cases hl
  decide

theorem busy_decodeReady (i : Instr) (a b : Word) : (busy i a b).DecodeReady := by
  intro f hf
  cases hf
  refine .inr ⟨.inr (.inr (.inl ⟨_, rfl, rfl, .inr rfl⟩)), .inr (.inr (.inr ⟨?_, ?_⟩))⟩
  · intro p hp; cases hp; rfl
  · decide

/-- What the completion statements ask, met with every stage occupied. -/
def Ready (i : Instr) (a b : Word) : Prop :=
  ∃ (s : State) (d : IdEx), s.idex = some d ∧ s.WriteBackReady ∧ s.operands d = .ok (a, b) ∧ s.DecodeReady ∧ d.instr = i

theorem ready_of_busy {i : Instr} {a b : Word} (ho : (busy i a b).operands (holding i 7 a b) = .ok (a, b))
    (hi : (holding i 7 a b).instr = i) : Ready i a b :=
  ⟨busy i a b, _, rfl, busy_writeBackReady i a b, ho, busy_decodeReady i a b, hi⟩

theorem witness_RegisterOperationsComplete :
    Ready (.add 3 1 2) 5 7 ∧ Ready (.sub 0 1 2) 5 7 ∧ Ready (.and 31 1 2) 5 7 ∧ Ready (.or 1 1 1) 5 5 ∧
      Ready (.xor 40 1 2) 5 7 :=
  ⟨ready_of_busy rfl rfl, ready_of_busy rfl rfl, ready_of_busy rfl rfl, ready_of_busy rfl rfl, ready_of_busy rfl rfl⟩

theorem witness_ImmediateOperationsComplete :
    Ready (.addi 3 2 (-1)) 7 0 ∧ Ready (.lui 0 1) 0 0 ∧ Ready (.auipc 3 1) 0 0 :=
  ⟨ready_of_busy rfl rfl, ready_of_busy rfl rfl, ready_of_busy rfl rfl⟩

/-- The LOAD's consumer waits in IF/ID: the first form of `DecodeReady`. -/
theorem witness_LoadAndStoreComputeTheirAddress : Ready (.load 2 1 (-1)) 5 0 ∧ Ready (.store 1 2 0) 5 7 :=
  ⟨ready_of_busy rfl rfl, ready_of_busy rfl rfl⟩

theorem witness_TakenBranchesRedirect :
    ∃ (s s' : State) (d d' : IdEx), (s.idex = some d ∧ s.WriteBackReady ∧ d.instr = .beq 1 2 4 ∧ d.rs1Val = d.rs2Val) ∧
      (s'.idex = some d' ∧ s'.WriteBackReady ∧ d'.instr = .bne 1 2 (-8) ∧ d'.rs1Val ≠ d'.rs2Val) :=
  ⟨busy (.beq 1 2 4) 7 7, busy (.bne 1 2 (-8)) 5 7, _, _, ⟨rfl, busy_writeBackReady _ _ _, rfl, rfl⟩,
    ⟨rfl, busy_writeBackReady _ _ _, rfl, by decide⟩⟩

theorem witness_UntakenBranchesFallThrough :
    ∃ (s s' : State) (d d' : IdEx),
      (s.idex = some d ∧ s.WriteBackReady ∧ s.DecodeReady ∧ d.instr = .beq 1 2 4 ∧ d.rs1Val ≠ d.rs2Val) ∧
      (s'.idex = some d' ∧ s'.WriteBackReady ∧ s'.DecodeReady ∧ d'.instr = .bne 1 1 (-8) ∧ d'.rs1Val = d'.rs2Val) :=
  ⟨busy (.beq 1 2 4) 5 7, busy (.bne 1 1 (-8)) 5 5, _, _,
    ⟨rfl, busy_writeBackReady _ _ _, busy_decodeReady _ _ _, rfl, by decide⟩,
    ⟨rfl, busy_writeBackReady _ _ _, busy_decodeReady _ _ _, rfl, rfl⟩⟩

theorem witness_JumpsLinkAndRedirect : Ready (.jal 5 3) 0 0 ∧ Ready (.jalr 2 2 0) 7 0 :=
  ⟨ready_of_busy rfl rfl, ready_of_busy rfl rfl⟩

theorem witness_UnsupportedRecordFaultsInExecute :
    ∃ (s : State) (d : IdEx) (a b : Word) (regs : RegFile), s.idex = some d ∧
      d.withInstr (.unsupported .tag14 none (some 1) (some 2) none) = d ∧ s.operands d = .ok (a, b) ∧
      writeBack s.regs s.memwb = .ok regs :=
  ⟨busy (.unsupported .tag14 none (some 1) (some 2) none) 5 7, _, 5, 7, _, rfl, rfl, rfl, rfl⟩

/-- The three outcomes of the reference model: a write, a store and an error (a destination above 31). -/
theorem witness_InstructionAloneMatchesSequentialModel :
    (∀ i ∈ [Instr.addi 2 1 5, .store 1 1 0, .addi 40 1 5], ∃ (s : State) (d : IdEx),
      s.Running ∧ s.ifid = none ∧ s.idex = some d ∧ s.exmem = none ∧ s.memwb = none ∧ d.op.supported = true ∧ d.instr = i ∧
      regRead s.regs d.instr.src1 = some d.rs1Val ∧ regRead s.regs d.instr.src2 = some d.rs2Val ∧
      (∀ w ∈ s.prog, (Record.ofWord w).op.supported = true ∧ (srcIdx (Record.ofWord w).rs1).toNat ≤ 31 ∧
        (srcIdx (Record.ofWord w).rs2).toNat ≤ 31)) ∧
    (SeqState.exec ⟨3, twoRegs, [(100, 9#64)]⟩ (.addi 2 1 5)).isOk = true ∧
    (SeqState.exec ⟨3, twoRegs, [(100, 9#64)]⟩ (.store 1 1 0)).isOk = true ∧
    (SeqState.exec ⟨3, twoRegs, [(100, 9#64)]⟩ (.addi 40 1 5)).isOk = false := by
  refine ⟨?_, by decide, by decide, by decide⟩
  have hw : ∀ w ∈ small.prog, (Record.ofWord w).op.supported = true ∧ (srcIdx (Record.ofWord w).rs1).toNat ≤ 31 ∧
      (srcIdx (Record.ofWord w).rs2).toNat ≤ 31 := by
    intro w hw
    obtain rfl : w = addi5 := List.mem_singleton.1 hw
    decide
  intro i hi
  simp only [List.mem_cons, List.not_mem_nil, or_false] at hi
  rcases hi with rfl | rfl | rfl
  · exact ⟨inExecute (.addi 2 1 5) 3 100 0, _, ⟨by decide, rfl⟩, rfl, rfl, rfl, rfl, rfl, rfl, by decide, by decide, hw⟩
  · exact ⟨inExecute (.store 1 1 0) 3 100 100, _, ⟨by decide, rfl⟩, rfl, rfl, rfl, rfl, rfl, rfl, by decide, by decide, hw⟩
  · exact ⟨inExecute (.addi 40 1 5) 3 100 0, _, ⟨by decide, rfl⟩, rfl, rfl, rfl, rfl, rfl, rfl, by decide, by decide, hw⟩

theorem witness_ExMemBuildFollowsItsTable :
    ∀ i ∈ [Instr.add 3 1 2, .load 2 1 8, .store 1 2 8, .bne 1 2 1, .jal 3 1], ∃ (s t : State) (d : IdEx) (a b : Word),
      s.idex = some d ∧ d.withInstr i = d ∧ s.operands d = .ok (a, b) ∧ exec i s = .next t := by
  intro i hi
  simp only [List.mem_cons, List.not_mem_nil, or_false] at hi
  rcases hi with rfl | rfl | rfl | rfl | rfl
  · exact ⟨busy (.add 3 1 2) 5 7, _, _, _, _, rfl, rfl, rfl, rfl⟩
  · exact ⟨busy (.load 2 1 8) 5 0, _, _, _, _, rfl, rfl, rfl, rfl⟩
  · exact ⟨busy (.store 1 2 8) 5 7, _, _, _, _, rfl, rfl, rfl, rfl⟩
  · exact ⟨busy (.bne 1 2 1) 5 7, _, _, _, _, rfl, rfl, rfl, rfl⟩
  · exact ⟨busy (.jal 3 1) 0 0, _, _, _, _, rfl, rfl, rfl, rfl⟩

theorem witness_ExecutingChangesNoOtherRegister :
    ∃ t, exec (.add 3 1 2) (busy (.add 3 1 2) 5 7) = .next t ∧
      (∀ l, (busy (.add 3 1 2) 5 7).memwb = some l → l.op.writesRF = true → l.rd.value ≠ 2#6) := by
  refine ⟨_, rfl, ?_⟩
  intro l hl _
  cases hl
  decide

theorem witness_ExecutingChangesNoOtherCell :
    ∃ (s t : State), exec (.jal 3 1) s = .next t ∧ (∃ p, s.exmem = some p ∧ p.op = .store) ∧
      (∀ p, s.exmem = some p → p.op = .store → p.addr.value ≠ 101#64) := by
  refine ⟨{ inExecute (.jal 3 1) 1 0 0 with exmem := some (passed (.store 1 2 0) 0 .absent (.of 100) (.of 5)) }, _, rfl,
    ⟨_, rfl, rfl⟩, ?_⟩
  intro p hp _
  cases hp
  decide

theorem witness_StepRunsTheInstructionInExecute :
    ((busy (.sub 3 1 2) 5 7).Running ∧ ∃ d, (busy (.sub 3 1 2) 5 7).idex = some d ∧ d.withInstr (.sub 3 1 2) = d) ∧
      (small.Running ∧ small.idex = none) :=
  ⟨⟨busy_running .., _, rfl, rfl⟩, ⟨by decide, rfl⟩, rfl⟩

/-- The program of E4, and its first cycles. -/
def e4 : State :=
  State.fresh [0x000000000000000A000001B5#96, 0x0000000000000014000002B5#96, 0x000000000000000000204370#96]
    RegFile.unloaded []

theorem witness_FetchedInstructionReachesExecute :
    e4.Running ∧ e4.fetchExhausted = false ∧ e4.prog[e4.pc.toNat]? = some 0x000000000000000A000001B5#96 ∧
      decodeWord 0x000000000000000A000001B5#96 = .instr (.addi 1 0 10) ∧
      loadUse e4.ifid e4.idex = false ∧ e4.redirects = false ∧ step e4 = .next (nextOf e4) ∧
      loadUse (nextOf e4).ifid (nextOf e4).idex = false ∧ (nextOf e4).redirects = false ∧
      step (nextOf e4) = .next (nextOf (nextOf e4)) :=
  ⟨⟨by decide, rfl⟩, rfl, rfl, by decide, rfl, rfl, rfl, rfl, rfl, rfl⟩

/-- A stall, an exhausted fetch, a fetch, a fetch past the end, a taken branch and a JALR. -/
theorem witness_FetchFollowsItsRule :
    (∃ s t, s.Running ∧ step s = .next t ∧ s.redirects = false ∧ loadUse s.ifid s.idex = true) ∧
    (∃ s t, s.Running ∧ step s = .next t ∧ s.redirects = false ∧ loadUse s.ifid s.idex = false ∧
      s.fetchExhausted = true) ∧
    (∃ s t, s.Running ∧ step s = .next t ∧ s.redirects = false ∧ loadUse s.ifid s.idex = false ∧
      s.fetchExhausted = false ∧ s.pc.toNat < s.prog.length) ∧
    (∃ s t, s.Running ∧ step s = .next t ∧ s.redirects = false ∧ loadUse s.ifid s.idex = false ∧
      s.fetchExhausted = false ∧ s.pc.toNat = s.prog.length) ∧
    (∃ s t d, s.Running ∧ step s = .next t ∧ s.idex = some d ∧ d.takes = true ∧ d.op = .beq) ∧
    (∃ s t d a b, s.Running ∧ step s = .next t ∧ s.idex = some d ∧ d.takes = true ∧ d.op = .jalr ∧
      s.operands d = .ok (a, b)) :=
  ⟨⟨busy (.load 2 1 0) 5 0, _, busy_running .., rfl, rfl, rfl⟩,
    ⟨{ small with fetchExhausted := true }, _, ⟨by decide, rfl⟩, rfl, rfl, rfl, rfl⟩,
    ⟨small, _, ⟨by decide, rfl⟩, rfl, rfl, rfl, rfl, by decide⟩,
    ⟨{ small with pc := 1 }, _, ⟨by decide, rfl⟩, rfl, rfl, rfl, rfl, by decide⟩,
    ⟨busy (.beq 1 2 1) 7 7, _, _, busy_running .., rfl, rfl, rfl, rfl⟩,
    ⟨busy (.jalr 2 1 1) 5 0, _, _, _, _, busy_running .., rfl, rfl, rfl, rfl, rfl⟩⟩

theorem witness_ProgramCounterHasNoOtherWriter :
    (∃ t, step (busy (.add 3 1 2) 5 7) = .next t) ∧ (busy (.add 3 1 2) 5 7).redirects = false := ⟨⟨_, rfl⟩, rfl⟩

/-- An empty IF/ID, a taken transfer, a stall, and a record to decode. -/
theorem witness_DecodeResolvesSources :
    (∃ s t, s.Running ∧ step s = .next t ∧ s.ifid = none) ∧
    (∃ s t, s.Running ∧ step s = .next t ∧ s.redirects = true) ∧
    (∃ s t, s.Running ∧ step s = .next t ∧ loadUse s.ifid s.idex = true) ∧
    (∃ s t f, s.Running ∧ step s = .next t ∧ s.redirects = false ∧ loadUse s.ifid s.idex = false ∧ s.ifid = some f) :=
  ⟨⟨small, _, ⟨by decide, rfl⟩, rfl, rfl⟩, ⟨busy (.jal 1 1) 0 0, _, busy_running .., rfl, rfl⟩,
    ⟨busy (.load 1 1 0) 5 0, _, busy_running .., rfl, rfl⟩, ⟨busy (.add 1 1 2) 5 7, _, _, busy_running .., rfl, rfl, rfl, rfl⟩⟩

/-- P13's shape: ADDI x0 executes while a consumer of x0 is decoded. -/
theorem witness_ZeroRegisterNeverLeaks :
    ∃ (s t : State) (d : IdEx), s.Running ∧ step s = .next t ∧ t.idex = some d ∧ d.rs1 = 0#6 ∧ d.rs2 = 0#6 :=
  ⟨{ inExecute (.addi 0 0 5) 0 0 0 with ifid := some (waiting (.add 3 0 0) 1) }, _, _, ⟨by decide, rfl⟩, rfl, rfl, rfl, rfl⟩

/-- E6: LOAD x2,0(x1) executes and ADD x3,x2,x2 waits. -/
def e6 : State := { inExecute (.load 2 1 0) 0 100 0 with ifid := some (waiting (.add 3 2 2) 1), pc := 2 }

/-- The consumer names the LOAD's destination in both fields, and a record that names it in neither raises no stall. -/
theorem test_load_use_needs_a_consumer :
    loadUse e6.ifid e6.idex = true ∧ loadUse (some (waiting (.add 3 4 5) 1)) e6.idex = false ∧
      loadUse (some (waiting (.add 3 0 0) 1)) (some (holding (.load 0 1 0) 0 100 0)) = false := by decide

theorem witness_LoadUseStallLastsOneCycle :
    e6.Running ∧ loadUse e6.ifid e6.idex = true ∧ step e6 = .next (nextOf e6) := ⟨⟨by decide, rfl⟩, rfl, rfl⟩

theorem witness_ConsumerGetsTheLoadedValue :
    e6.Running ∧ e6.idex = some (holding (.load 2 1 0) 0 100 0) ∧ e6.ifid = some (waiting (.add 3 2 2) 1) ∧
      loadUse e6.ifid e6.idex = true ∧ e6.operands (holding (.load 2 1 0) 0 100 0) = .ok (100, 0) ∧
      step e6 = .next (nextOf e6) ∧ step (nextOf e6) = .next (nextOf (nextOf e6)) ∧
      srcIdx (waiting (.add 3 2 2) 1).record.rs1 = (holding (.load 2 1 0) 0 100 0).rd.value :=
  ⟨⟨by decide, rfl⟩, rfl, rfl, rfl, rfl, rfl, rfl, rfl⟩

/-- The destination x31, an instruction that writes nothing, a missing value, and index 32. -/
theorem witness_WriteBackFollowsItsRule :
    (∃ (s t : State) (l : MemWb), s.Running ∧ step s = .next t ∧ s.memwb = some l ∧ l.op.writesRF = true ∧
      l.rd.value = 31#6) ∧
    (∃ (s t : State), s.Running ∧ step s = .next t ∧ (∀ l, s.memwb = some l → l.op.writesRF = false)) ∧
    (∃ (s : State) (l : MemWb), s.Running ∧ s.memwb = some l ∧ l.op.writesRF = true ∧ l.writeValue = none) ∧
    (∃ (s : State) (l : MemWb) (v : Word), s.Running ∧ s.memwb = some l ∧ l.op.writesRF = true ∧
      l.writeValue = some v ∧ l.rd.value = 32#6 ∧ 31 < l.rd.value.toNat) := by
  refine ⟨⟨{ small with memwb := some ⟨passed (.addi 31 0 5) 0 (.of 5) .absent .absent, .absent⟩ }, _, _, ⟨by decide, rfl⟩,
    rfl, rfl, rfl, rfl⟩, ⟨{ small with memwb := some ⟨passed (.beq 1 1 0) 0 .absent .absent .absent, .absent⟩ }, _,
    ⟨by decide, rfl⟩, rfl, ?_⟩,
    ⟨{ small with memwb := some ⟨passed (.add 1 2 3) 4 .absent .absent .absent, .absent⟩ }, _, ⟨by decide, rfl⟩, rfl, rfl,
      rfl⟩,
    ⟨{ small with memwb := some ⟨passed (.addi 32 0 2) 1 (.of 2) .absent .absent, .absent⟩ }, _, _, ⟨by decide, rfl⟩, rfl,
      rfl, rfl, rfl, by decide⟩⟩
  intro l hl
  cases hl
  rfl

theorem witness_MemoryStageAccesses :
    ∀ i ∈ [Instr.load 3 1 0, .store 1 2 0, .jal 1 1], ∃ (s t : State) (p : ExMem),
      s.Running ∧ step s = .next t ∧ s.exmem = some p ∧ p.op = i.op := by
  intro i _
  have key : ∀ j : Instr, ∃ (s t : State) (p : ExMem), s.Running ∧ step s = .next t ∧ s.exmem = some p ∧ p.op = j.op :=
    fun j => ⟨{ small with exmem := some (passed j 0 (.of 1) (.of 100) (.of 5)) }, _, _, ⟨rfl, rfl⟩, rfl, rfl, rfl⟩
  exact key i

theorem witness_DataPortMakesAtMostOneAccess :
    ∀ i ∈ [Instr.load 3 1 0, .store 1 2 0, .jal 1 1], ∃ (s t : State) (p : ExMem),
      s.Running ∧ step s = .next t ∧ s.exmem = some p ∧ p.op = i.op :=
  witness_MemoryStageAccesses

/-- An empty ID/EX, an operation with a second register operand and one without. -/
theorem witness_ForwardSelectFollowsItsRule :
    small.idex = none ∧ (∃ d, (busy (.store 1 2 0) 5 7).idex = some d ∧ d.op ∈ [Op.add, .sub, .and, .or, .xor, .store, .beq, .bne]) ∧
      (∃ d, (busy (.addi 1 2 0) 7 0).idex = some d ∧ d.op ∉ [Op.add, .sub, .and, .or, .xor, .store, .beq, .bne]) :=
  ⟨rfl, ⟨_, rfl, by decide⟩, ⟨_, rfl, by decide⟩⟩

/-- A BEQ, an ADD that takes its second operand from EX/MEM, and (a foreign state) a consumer behind a LOAD without its value. -/
theorem witness_ForwardingMultiplexerSupplies :
    (∃ d, (busy (.beq 1 2 1) 5 5).idex = some d ∧ (d.op = .beq ∨ d.op = .bne)) ∧
    (∃ (s : State) (d : IdEx), s.idex = some d ∧ d.op ≠ .beq ∧ d.op ≠ .bne ∧ s.signals.forwardB = .fromExMem ∧
      s.Supplies d.rs1Val s.signals.forwardA 5 ∧ s.Supplies d.rs2Val s.signals.forwardB 7) ∧
    (∃ (s : State) (d : IdEx) (regs : RegFile), s.idex = some d ∧ d.op ≠ .beq ∧ d.op ≠ .bne ∧ s.Running ∧ writeBack s.regs s.memwb = .ok regs ∧
      ¬ ∃ a, s.Supplies d.rs1Val s.signals.forwardA a) :=
  ⟨⟨_, rfl, .inl rfl⟩,
    ⟨busy (.add 3 1 2) 5 0, _, rfl, by decide, by decide, rfl, rfl, _, rfl, rfl, by decide, rfl⟩,
    ⟨{ inExecute (.addi 3 2 1) 1 0 0 with exmem := some (passed (.load 2 1 0) 0 .absent (.of 100) .absent) }, _, _, rfl,
      by decide, by decide, ⟨by decide, rfl⟩, rfl, by
        rintro ⟨a, p, hp, -, hl, -⟩
        cases hp
        exact hl rfl⟩⟩

/-- E4 at the end of cycle 4: ADDI x2 in EX/MEM is selected for the ADD in ID/EX. -/
def e4cycle4 : State := nextOf (nextOf (nextOf (nextOf e4)))

theorem e4cycle4_inv : e4cycle4.Inv where
  x0_zero := by decide
  mem_wf := by decide
  fetch_live := by decide
  halted_drained := by decide
  exmem_done := by intro p hp; cases hp; decide
  memwb_done := by intro l hl; cases hl; decide
  load_apart := by intro p d hp hd; cases hp; cases hd; decide
  captured := by intro p d v hp hd hv; cases hp; cases hd; cases hv; decide
  zero_captured := by intro d hd; cases hd; decide

theorem witness_ForwardingNeverChangesAnOperand :
    e4cycle4.Inv ∧ (∃ d, e4cycle4.idex = some d) ∧ e4cycle4.signals.forwardB = .fromExMem :=
  ⟨e4cycle4_inv, ⟨_, rfl⟩, rfl⟩

theorem witness_MissingWriteValueIsUnreachable : e4cycle4.Inv := e4cycle4_inv

theorem witness_EveryStepKeepsTheInvariants : e4cycle4.Inv ∧ step e4cycle4 = .next (nextOf e4cycle4) :=
  ⟨e4cycle4_inv, rfl⟩

/-- A cycle that halts and one that does not. -/
theorem witness_DrainCheckDecidesHalted :
    (∃ (s t : State), s.Running ∧ step s = .next t ∧ t.halted = true) ∧
      (∃ (s t : State), s.Running ∧ step s = .next t ∧ t.halted = false) :=
  ⟨⟨State.fresh [] twoRegs [], _, ⟨by decide, rfl⟩, rfl, rfl⟩, ⟨small, _, ⟨by decide, rfl⟩, rfl, rfl⟩⟩

theorem witness_CycleCountCountsCompletedCycles :
    (∃ (s t : State), step s = .next t ∧ s.halted = false) ∧ (∃ (s t : State), step s = .next t ∧ s.halted = true) :=
  ⟨⟨small, _, rfl, rfl⟩, ⟨{ small with halted := true }, _, rfl, rfl⟩⟩

/-- P7's ADD x2,x33,x0 with nothing executing, a first source of 32 (the first index out of range) with an instruction executing,
and a second source of 63 behind a first source that the executing instruction supplies. -/
theorem witness_OutOfRangeSourceFaultsAtDecode :
    ∀ c ∈ [({ small with ifid := some (waiting (.add 2 33 0) 1) }, 33#6, true),
        ({ busy (.add 3 1 2) 5 7 with ifid := some (waiting (.add 2 32 0) 8) }, 32#6, true),
        ({ busy (.add 3 1 2) 5 7 with ifid := some (waiting (.store 3 63 0) 8) }, 63#6, false)],
      ∃ (f : IfId) (regs : RegFile), c.1.Running ∧ c.1.ifid = some f ∧ loadUse c.1.ifid c.1.idex = false ∧
        c.1.redirects = false ∧ writeBack c.1.regs c.1.memwb = .ok regs ∧
        (∀ d, c.1.idex = some d → d.op.supported = true ∧ ∃ a b, c.1.operands d = .ok (a, b)) ∧
        c.1.NotBypassed c.2.1 ∧ 31 < c.2.1.toNat ∧
        (if c.2.2 then srcIdx f.record.rs1 = c.2.1
          else srcIdx f.record.rs2 = c.2.1 ∧ c.1.SourceReady (srcIdx f.record.rs1)) := by
  intro c hc
  simp only [List.mem_cons, List.not_mem_nil, or_false] at hc
  rcases hc with rfl | rfl | rfl
  · exact ⟨_, _, ⟨by decide, rfl⟩, rfl, rfl, rfl, rfl, (by intro d hd; cases hd),
      ⟨(by intro d hd; cases hd), (by intro p hp; cases hp)⟩, by decide, rfl⟩
  · exact ⟨_, _, ⟨by decide, rfl⟩, rfl, rfl, rfl, rfl, (by intro d hd; cases hd; exact ⟨rfl, _, _, rfl⟩),
      ⟨(by intro d hd; cases hd; decide), (by intro p hp; cases hp; decide)⟩, by decide, rfl⟩
  · exact ⟨_, _, ⟨by decide, rfl⟩, rfl, rfl, rfl, rfl, (by intro d hd; cases hd; exact ⟨rfl, _, _, rfl⟩),
      ⟨(by intro d hd; cases hd; decide), (by intro p hp; cases hp; decide)⟩, by decide,
      rfl, .inr (.inl ⟨_, rfl, rfl, rfl⟩)⟩

/-- A write-back error, and a decode error after a write-back. -/
theorem witness_FaultLeavesEarlierStepsDone :
    (∃ (s : State) (f : Fault) (e : FatalError), step s = .fault f ∧ writeBack s.regs s.memwb = .error e) ∧
      (∃ (s : State) (f : Fault) (regs : RegFile), step s = .fault f ∧ writeBack s.regs s.memwb = .ok regs ∧
        regs ≠ s.regs) :=
  ⟨⟨{ small with memwb := some ⟨passed (.addi 40 0 2) 1 (.of 2) .absent .absent, .absent⟩ }, _, _, rfl, rfl⟩,
    ⟨{ busy (.add 3 1 2) 5 7 with ifid := some (waiting (.add 2 33 0) 1) }, _, _, rfl, rfl, by decide⟩⟩

theorem witness_FreshStartMeetsTheInvariants : Memory.wf [(0, 0#64), (100, 9#64), (2 ^ 64 - 1, 1#64)] := by decide

/-- One record, from the start to the halt. -/
theorem witness_HaltedRunMatchesSequentialModel :
    ProgramLengthOk small.prog ∧
      (stepsTo 5 (State.fresh [addi5] twoRegs [(100, 9#64)])).map (·.halted) = some true := by decide

theorem witness_RunningStateIsAPrefixOfTheSequentialModel :
    ProgramLengthOk small.prog ∧
      ((tallyTo 4 (State.fresh [addi5] twoRegs [(100, 9#64)]) Tally.zero).map fun p =>
        (p.2.retired, p.2.accessed, (after (·.halted) (step p.1)).isSome)) = some (0, 1, true) := by decide

/-- Both clauses: no instruction, and one. -/
theorem witness_HaltingCycleFormula :
    ((tallyTo 1 (State.fresh [] twoRegs []) Tally.zero).map fun p => (p.1.halted, p.2.executed)) = some (true, 0) ∧
      ((tallyTo 5 (State.fresh [addi5] twoRegs []) Tally.zero).map fun p => (p.1.halted, p.2.executed)) =
        some (true, 1) := by decide

/-- A fresh call and a resumed one. -/
theorem witness_ResumedCallsEndAsOneCall :
    2 ≤ 4 ∧ (∃ t, run [addi5] twoRegs [] 4 none = .next t) ∧
      ∃ t, run e4.prog e4.regs [] 4 (some ⟨(nextOf e4).snapshot, e4.prog⟩) = .next t :=
  ⟨by decide, ⟨_, rfl⟩, _, rfl⟩

theorem witness_SingleStepCallRunsOneCycle : e4cycle4.snapshot.halted = false := by decide

theorem witness_CallStopsAtTheBoundOrHalted :
    (∃ t, run [addi5] twoRegs [] 2 none = .next t ∧ t.halted = false) ∧
      (∃ t, run [] twoRegs [] 2 none = .next t ∧ t.halted = true) ∧
      (∃ t, run e4.prog e4.regs [] 5 (some ⟨e4cycle4.snapshot, e4.prog⟩) = .next t) ∧
      (programDefect e4.prog = none ∧ 4 ≤ e4cycle4.snapshot.cycleCount) ∧
      (programDefect [] = none ∧ (nextOf (State.fresh [] twoRegs [])).snapshot.halted = true) :=
  ⟨⟨_, rfl, rfl⟩, ⟨_, rfl, rfl⟩, ⟨_, rfl⟩, ⟨by decide, by decide⟩, ⟨by decide, by decide⟩⟩

theorem witness_HostRegisterWritesReadBack :
    (∃ t, [((5 : RegIdx), (7 : Int)), (5, 9), (0, 42), (31, 1)].foldlM (fun u w => u.hostWrite w.1 w.2) small =
      (.ok t : Except HostOutOfRange State)) ∧
      (1#6 ≠ 0#6 ∧ (1#6).toNat ≤ 31) ∧ (31#6 ≠ 0#6 ∧ (31#6).toNat ≤ 31) ∧ 31 < (32#6).toNat :=
  ⟨⟨_, rfl⟩, by decide, by decide, by decide⟩

/-- A mapped and an unmapped address, a stored 0 through the host and through a STORE in EX/MEM, and a step without a STORE. -/
theorem witness_MemoryDumpListsTheMappedCells :
    small.mem.wf ∧ ((100#64).toNat, 9#64) ∈ small.hostMemory ∧ (∀ w, ((7#64).toNat, w) ∉ small.hostMemory) ∧
      (∃ c, c ∈ (small.hostStore 7 0).hostMemory ∧ c.2 = 0#64) ∧
      (∃ (s t : State) (p : ExMem), s.mem.wf ∧ step s = .next t ∧ s.halted = false ∧ s.exmem = some p ∧ p.op = .store ∧
        p.storeVal.value = 0#64 ∧ (7, 0#64) ∈ t.hostMemory) ∧
      ∃ t, step small = .next t ∧ ∀ p, small.exmem = some p → p.op ≠ .store := by
  refine ⟨by decide, by decide, ?_, ⟨(7, 0#64), by decide, rfl⟩,
    ⟨{ small with exmem := some (passed (.store 1 2 0) 0 .absent (.of 7) (.of 0)) }, _, _, by decide, rfl, rfl, rfl, rfl, rfl,
      by decide⟩, ⟨_, rfl, by intro p hp; cases hp⟩⟩
  intro w hw
  obtain ⟨h, -⟩ := Prod.mk.inj (List.mem_singleton.1 hw)
  exact absurd h (by decide)

theorem witness_DecoderFollowsItsTable :
    decodeWord addi5 = .instr (.addi 1 0 5) ∧ header addi5 &&& headerMask .addi = headerMatch .addi ∧
      header 0xFF#96 &&& headerMask .tag14 = headerMatch .tag14 := by decide

/-- ADDI x1,x0,5 with its rs2 don't-care bits 0 and all ones. -/
theorem witness_DecoderIgnoresDontCareBits :
    let w := addi5
    let w' := 0x000000000000000503F001B5#96
    w ≠ w' ∧ w.extractLsb' 0 8 = w'.extractLsb' 0 8 ∧ reservedBits w = reservedBits w' ∧
      (w.getLsbD 4 = true → w.extractLsb' 8 6 = w'.extractLsb' 8 6) ∧
      (w.getLsbD 5 = true → w.extractLsb' 14 6 = w'.extractLsb' 14 6) ∧
      (w.getLsbD 6 = true → w.extractLsb' 20 6 = w'.extractLsb' 20 6) ∧
      (w.getLsbD 7 = true → w.extractLsb' 32 64 = w'.extractLsb' 32 64) := by decide

/-- The program is malformed in slot 1, and resumed under another program: the malformed record is what is refused. -/
theorem test_malformed_before_changed :
    run [addi5, 0x135#96] twoRegs [] 4 (some ⟨small.snapshot, [addi5]⟩) = .refused (.malformedRecord 1 .badShape) ∧
      run [addi5, addi5] twoRegs [] 4 (some ⟨small.snapshot, [addi5]⟩) = .refused .programChanged := ⟨rfl, rfl⟩

theorem witness_MalformedProgramIsRefusedWhole :
    ∃ w ∈ [addi5, 0x000000000000000000000135#96, addi5], ∃ r, decodeWord w = .refused r :=
  ⟨0x000000000000000000000135#96, by decide, .badShape, by decide⟩

/-- No port driven. -/
def quiet : PortsIn where
  start := false
  resume := false
  snapIn := State.reset.snapshot
  maxCycles := 0
  rfHostIdx := 0
  rfHostWe := false
  rfHostWdata := 0

/-- A call that halts, one that ends with a fatal error (a tag 14 record in slot 0), and a resumed one. -/
theorem witness_CallAtThePortsMatchesRun :
    (∃ b' b'', (Block.idleWith [] twoRegs []).edge { quiet with start := true, maxCycles := 100 } = .next b' ∧
      Block.edges quiet 1 b' = .next b'' ∧ b''.busy = false ∧ b''.fault = none) ∧
    (∃ b' b'' e, (Block.idleWith [0x0E#96] twoRegs []).edge { quiet with start := true, maxCycles := 100 } = .next b' ∧
      Block.edges quiet 3 b' = .next b'' ∧ b''.busy = false ∧ b''.fault = some e) ∧
    (∃ b' b'', (Block.idleWith e4.prog twoRegs []).edge
        { quiet with start := true, resume := true, snapIn := (nextOf e4).snapshot, maxCycles := 3 } = .next b' ∧
      Block.edges quiet 2 b' = .next b'' ∧ b''.busy = false ∧ b''.fault = none) :=
  ⟨⟨_, _, rfl, rfl, rfl, rfl⟩, ⟨_, _, _, rfl, rfl, rfl, rfl⟩, ⟨_, _, rfl, rfl, rfl, rfl⟩⟩

/-- A busy block around a state. -/
def busyBlock (s : State) : Block := { core := s, busy := true, maxCycles := 100, fault := none }

/-- ADDI x40 in MEM/WB and a STORE in EX/MEM: write-back raises and the port writes nothing (R265). -/
def storeBehindBadWriteBack : State :=
  { small with
    exmem := some (passed (.store 1 2 0) 1 .absent (.of 100) (.of 5))
    memwb := some ⟨passed (.addi 40 0 2) 0 (.of 2) .absent .absent, .absent⟩ }

theorem test_no_port_write_behind_a_write_back_error :
    (busyBlock storeBehindBadWriteBack).dmem.we = false ∧
      (match (busyBlock storeBehindBadWriteBack).edge quiet with
        | .next b => some (b.faultCode, b.core.mem)
        | .fault _ => none
        | .refused _ => none) = some (1, small.mem) := by decide

/-- A write-back error, and a LOAD and a STORE in EX/MEM with nothing raised. -/
theorem witness_DataPortWritesWhatTheEdgeCommits :
    (∃ (b b' : Block) (e : FatalError), b.busy = true ∧ b.core.Running ∧ b.edge quiet = .next b' ∧
      writeBack b.core.regs b.core.memwb = .error e) ∧
    ∀ i ∈ [Instr.load 3 1 0, .store 1 2 0], ∃ (b b' : Block) (regs : RegFile) (l : ExMem),
      b.busy = true ∧ b.core.Running ∧ b.edge quiet = .next b' ∧ writeBack b.core.regs b.core.memwb = .ok regs ∧
      b.core.exmem = some l ∧ l.op = i.op := by
  refine ⟨⟨busyBlock storeBehindBadWriteBack, _, _, rfl, ⟨by decide, rfl⟩, rfl, rfl⟩, ?_⟩
  intro i _
  exact ⟨busyBlock { small with exmem := some (passed i 0 (.of 1) (.of 100) (.of 5)) }, _, _, _, rfl, ⟨rfl, rfl⟩, rfl, rfl,
    rfl, rfl⟩

/-- A taken jump to a slot of the program, no transfer with the program counter at the end, and none within the program. -/
theorem witness_InstructionPortCarriesTheFetch :
    ∀ c ∈ [(busy (.jal 1 (-4)) 0 0, 3#64), ({ small with pc := 1 }, 1#64), (small, 0#64)],
      ∃ t, c.1.Running ∧ step c.1 = .next t ∧ loadUse c.1.ifid c.1.idex = false ∧ c.1.fetchExhausted = false ∧
        (busyBlock c.1).imemAddr = c.2 := by
  intro c hc
  simp only [List.mem_cons, List.not_mem_nil, or_false] at hc
  rcases hc with rfl | rfl | rfl
  · exact ⟨_, busy_running .., rfl, rfl, rfl, rfl⟩
  · exact ⟨_, ⟨by decide, rfl⟩, rfl, rfl, rfl, rfl⟩
  · exact ⟨_, ⟨by decide, rfl⟩, rfl, rfl, rfl, rfl⟩

end Sys2Proof.Tests
end

