-- ==== Sys2Proof/Proofs/Invariants.lean ====
section
/-! PROOF. The invariants of the state at a cycle boundary (10_state.md R44): every fresh start meets them (O43) and every step
keeps them (O42). Each invariant that a cycle has to establish afresh is one lemma about the stage that establishes it. -/

namespace Sys2Proof.Machine

/-! ### A fresh start -/

/-- A state with four empty latches that is not halted meets the invariants if its registers and its memory do. -/
theorem State.Inv.of_empty {s : State} (hx0 : s.regs[0] = 0#64) (hmem : s.mem.wf) (hhalt : s.halted = false)
    (hf : s.ifid = none) (hd : s.idex = none) (hp : s.exmem = none) (hl : s.memwb = none) : s.Inv where
  x0_zero := hx0
  mem_wf := hmem
  fetch_live h := absurd hf h
  halted_drained h := by simp [hhalt] at h
  exmem_done p h := by simp [hp] at h
  memwb_done l h := by simp [hl] at h
  load_apart p d h := by simp [hp] at h
  captured p d v h := by simp [hp] at h
  zero_captured d h := by simp [hd] at h

theorem fresh_inv (prog : List PackedWord) (rf : RegFile) {mem : Memory} (h : mem.wf) :
    (State.fresh prog rf mem).Inv :=
  .of_empty (supplied_x0 rf) h rfl rfl rfl rfl rfl

/-- State.reset supplies no program, registers of 0 and no cell. -/
theorem reset_eq_fresh : State.reset = State.fresh [] RegFile.unloaded [] := by
  have h : RegFile.unloaded.supplied = RegFile.unloaded := supplied_of_x0 rfl
  simp only [State.fresh, h]
  rfl

/-! ### Execute and the memory stage -/

/-- An instruction in `EXMEM'` is the one in ID/EX: its operation is supported, and it has its result unless it is a LOAD
(R197, R198). -/
theorem executedNow_exmem {s : State} {x : Executed} {e : ExMem} (h : s.executedNow = .ok x) (he : x.exmem = some e) :
    ∃ d, s.idex = some d ∧ e.op = d.op ∧ e.rd = d.rd ∧ e.op.supported = true ∧
      (e.op.writesRF = true → e.op ≠ .load → e.aluResult.present = true) := by
  obtain ⟨-, rfl⟩ | ⟨d, a, b, hd, -, hop⟩ := executedNow_ok h
  · cases he
  · obtain ⟨e', he', hope, hrd, -⟩ := operationOf_ok hop
    obtain rfl : e' = e := by simpa [he'] using he
    refine ⟨d, hd, hope, hrd, ?_, fun hw hl => ?_⟩
    · simpa [hope] using operationOf_supported hop
    · obtain ⟨e'', he'', hres⟩ := operationOf_result hop (by simpa [hope] using hw) (by simpa [hope] using hl)
      obtain rfl : e'' = e' := by simpa [he''] using he'
      exact hres

/-- The write value of an EX/MEM latch that has its result (R37). -/
theorem ExMem.writeValue_ne_none {p : ExMem} (hw : p.op.writesRF = true) (hl : p.op ≠ .load)
    (hres : p.aluResult.present = true) : p.writeValue ≠ none := by
  simp [ExMem.writeValue, hw, hl, Opt.toOption, hres]

/-- A latch that has a write value writes the register its `rd` names. -/
theorem ExMem.writesReg_of_writeValue {p : ExMem} {v : Word} (h : p.writeValue = some v) :
    p.writesReg p.rd.value = true := by
  unfold ExMem.writeValue at h
  split at h
  · simpa [ExMem.writesReg]
  · cases h

/-- The memory stage completes the write value of an instruction that has passed execute (R263). -/
theorem memoryImage_writeValue_ne_none {p : ExMem} (mem : Memory) (hw : p.op.writesRF = true)
    (hres : p.op ≠ .load → p.aluResult.present = true) : (memoryImage mem p).writeValue ≠ none := by
  rw [memoryImage_writeValue]
  split
  · simp
  · exact ExMem.writeValue_ne_none hw ‹_› (hres ‹_›)

/-! ### Decode -/

/-- A record that decode sees after step 5 was in IF/ID at the start of a cycle without a taken transfer (R233). -/
theorem front_ifid_some {s : State} {x : Executed} {g : IfId} (h : (s.front x).ifid = some g) :
    x.taken = false ∧ s.ifid = some g := by
  cases hx : x.taken with
  | false => exact ⟨rfl, by simpa [front_not_taken hx] using h⟩
  | true =>
    cases ht : x.transfer with
    | none => simp [Executed.taken, ht] at hx
    | some t =>
      rw [front_taken ht (by simpa [Executed.taken, ht] using hx)] at h
      cases h

/-- What decode leaves in ID/EX is the record of IF/ID, in a cycle with neither a load-use stall nor a taken transfer, with both
sources resolved (R191 to R193). -/
theorem decoded_some {s : State} {x : Executed} {regs : RegFile} {d : IdEx} (h : s.decoded x regs = .ok (some d)) :
    ∃ g, loadUse s.ifid s.idex = false ∧ x.taken = false ∧ s.ifid = some g ∧
      d.rs1 = srcIdx g.record.rs1 ∧ d.rs2 = srcIdx g.record.rs2 ∧
      resolve x.exmem s.exmem s.memwbNext regs g.pc d.rs1 = .ok d.rs1Val ∧
      resolve x.exmem s.exmem s.memwbNext regs g.pc d.rs2 = .ok d.rs2Val := by
  obtain ⟨-, ho⟩ | ⟨g, v1, v2, hb, hg, h1, h2, ho⟩ := decodeStage_cases h
  · cases ho
  · cases ho
    obtain ⟨hx, hf⟩ := front_ifid_some hg
    exact ⟨g, hb, hx, hf, rfl, rfl, h1, h2⟩

/-- A source that names the destination of the instruction executed in the cycle resolves to its write value (R192 (a)). -/
theorem resolve_executed {c : ExMem} {p : Option ExMem} {m : Option MemWb} {regs : RegFile} {pc v w : Word}
    (h : resolve (some c) p m regs pc c.rd.value = .ok w) (hv : c.writeValue = some v) (h0 : c.rd.value ≠ 0#6) :
    w = v := by
  obtain ⟨c', hc, -, -, hb⟩ | ⟨hno, -⟩ := resolve_cases h
  · cases hc
    have hw := bypassed_ok_iff.1 hb.symm
    simpa [hv] using hw.symm
  · simp [ExMem.writesReg_of_writeValue hv, h0] at hno

/-- A source of index 0 resolves to 0 (R174). -/
theorem resolve_zero_value {c p : Option ExMem} {m : Option MemWb} {regs : RegFile} {pc w : Word} {r : RegIdx}
    (h : resolve c p m regs pc r = .ok w) (h0 : r = 0#6) : w = 0#64 := by
  subst h0
  simpa [resolve_zero] using h.symm

/-- The record that decode takes in a cycle names no destination of the LOAD that executes in it (R175, R180). -/
theorem sources_ne_of_loadUse_false {d : IdEx} {g : IfId} (h : loadUse (some g) (some d) = false) (hop : d.op = .load)
    (h0 : d.rd.value ≠ 0#6) : srcIdx g.record.rs1 ≠ d.rd.value ∧ srcIdx g.record.rs2 ≠ d.rd.value := by
  refine ⟨fun he => ?_, fun he => ?_⟩ <;>
    exact absurd ((loadUse_iff ..).2 ⟨d, g, rfl, rfl, hop, h0, by simp [he]⟩) (by simp [h])

/-! ### Fetch -/

/-- A record in IF/ID after step 5 means that fetch is not exhausted, if it did before. -/
theorem front_live {s : State} (hinv : s.ifid ≠ none → s.fetchExhausted = false) {x : Executed}
    (h : (s.front x).ifid ≠ none) : (s.front x).fetchExhausted = false := by
  obtain ⟨g, hg⟩ := Option.ne_none_iff_exists'.1 h
  obtain ⟨hx, hf⟩ := front_ifid_some hg
  simpa [front_not_taken hx] using hinv (by simp [hf])

/-- A record in IF/ID after fetch means that fetch is not exhausted (R44 (2), R190). -/
theorem fetched_live {s : State} (hinv : s.ifid ≠ none → s.fetchExhausted = false) {x : Executed}
    (h : (s.fetched x).ifid ≠ none) : (s.fetched x).fetchExhausted = false := by
  unfold State.fetched at h ⊢
  obtain ⟨-, he⟩ | ⟨-, -, he⟩ | ⟨w, -, -, -, he⟩ | ⟨-, -, -, he⟩ :=
    fetchStage_cases s.prog s.signals.stallFetch (s.front x)
  · rw [he] at h ⊢
    exact front_live hinv h
  · exact absurd (by rw [he]) h
  · rw [he]
  · exact absurd (by rw [he]) h

/-! ### The step -/

/-- The drain check (R236). -/
theorem drained_iff {ex : Bool} {f : Option IfId} {d : Option IdEx} {p : Option ExMem} {l : Option MemWb} :
    drained ex f d p l = true ↔ f = none ∧ d = none ∧ p = none ∧ l = none ∧ ex = true := by
  simp only [drained, Bool.and_eq_true, Option.isNone_iff_eq_none]
  tauto

/-- A completed cycle keeps the invariants. -/
theorem completed_inv {s : State} {regs : RegFile} {x : Executed} {o : Option IdEx} (hinv : s.Inv)
    (hw : writeBack s.regs s.memwb = .ok regs) (hx : s.executedNow = .ok x) (ho : s.decoded x regs = .ok o) :
    (s.completed regs x o).Inv where
  x0_zero := (writeBack_x0 hw).trans hinv.x0_zero
  mem_wf := memoryEffect_wf hinv.mem_wf s.exmem
  fetch_live := fetched_live hinv.fetch_live
  halted_drained := drained_iff.1
  exmem_done p hp := by
    obtain ⟨d, -, -, -, hsup, hres⟩ := executedNow_exmem hx hp
    exact ⟨hsup, hres⟩
  memwb_done l hl := by
    obtain ⟨p, hp, rfl⟩ := Option.map_eq_some_iff.1 hl
    obtain ⟨hsup, hres⟩ := hinv.exmem_done p hp
    exact ⟨hsup, fun hwr => memoryImage_writeValue_ne_none s.mem hwr (hres hwr)⟩
  load_apart p d hp hd hop h0 := by
    obtain ⟨d₀, hd₀, hope, hrd, -⟩ := executedNow_exmem hx hp
    obtain ⟨g, hlu, -, hg, hrs1, hrs2, -⟩ := decoded_some (ho.trans (congrArg _ hd))
    rw [hg, hd₀] at hlu
    rw [hrs1, hrs2, hrd]
    exact sources_ne_of_loadUse_false hlu (hope ▸ hop) (hrd ▸ h0)
  captured p d v hp hd hv h0 := by
    obtain ⟨g, -, -, -, -, -, h1, h2⟩ := decoded_some (ho.trans (congrArg _ hd))
    rw [show x.exmem = some p from hp] at h1 h2
    exact ⟨fun he => resolve_executed (he ▸ h1) hv h0, fun he => resolve_executed (he ▸ h2) hv h0⟩
  zero_captured d hd := by
    obtain ⟨g, -, -, -, -, -, h1, h2⟩ := decoded_some (ho.trans (congrArg _ hd))
    exact ⟨resolve_zero_value h1, resolve_zero_value h2⟩

/-- A step keeps the invariants: a halted state stays, and otherwise one cycle completes. -/
theorem step_inv {s t : State} (hinv : s.Inv) (h : step s = .next t) : t.Inv := by
  obtain ⟨-, ⟨-, rfl⟩ | ⟨-, regs, x, o, hw, hx, ho, rfl⟩⟩ := step_next h
  · exact hinv
  · exact completed_inv hinv hw hx ho

end Sys2Proof.Machine

namespace Sys2Proof.Proofs

open Sys2Proof.Machine

/-- Settles O42: the cycle lemma `completed_inv`, one stage lemma per invariant. -/
theorem everyStepKeepsTheInvariants : Obligations.EveryStepKeepsTheInvariants :=
  fun _ _ => step_inv

/-- Settles O37: the registers of the reset state hold 0 in x0's place already. -/
theorem resetStateIsAFreshStartWithNothingSupplied : Obligations.ResetStateIsAFreshStartWithNothingSupplied :=
  reset_eq_fresh

/-- Settles O43: the latches of a fresh start are empty, and reset is a fresh start. -/
theorem freshStartMeetsTheInvariants : Obligations.FreshStartMeetsTheInvariants :=
  ⟨reset_eq_fresh ▸ fresh_inv [] _ reset_mem_wf, fun prog rf _ h => fresh_inv prog rf h⟩

end Sys2Proof.Proofs
end

