-- ==== Sys2Proof/Proofs/StateFrame.lean ====
section
/-! PROOF. Who writes the state and what the host sees of it: the program counter (O20), the register file between calls (O50)
and the values a fresh start begins from (O36). -/

namespace Sys2Proof.Machine

/-! ### The program counter -/

/-- Fetch leaves the program counter, or moves it by one past a slot of the program (R190). -/
theorem fetchStage_pc (prog : List PackedWord) (stall : Bool) (front : Front) :
    (fetchStage prog stall front).pc = front.pc ∨
      ((fetchStage prog stall front).pc = front.pc + 1#64 ∧ front.pc.toNat < prog.length) := by
  obtain ⟨-, he⟩ | ⟨-, -, he⟩ | ⟨w, -, -, hw, he⟩ | ⟨-, -, -, he⟩ := fetchStage_cases prog stall front
  · exact .inl (by rw [he])
  · exact .inl (by rw [he])
  · obtain ⟨hlt, -⟩ := List.getElem?_eq_some_iff.1 hw
    exact .inr ⟨by rw [he], hlt⟩
  · exact .inl (by rw [he])

/-- Without a taken transfer fetch starts from the program counter of the cycle's start. -/
theorem fetched_pc_not_taken {s : State} {x : Executed} (h : x.taken = false) :
    (s.fetched x).pc = s.pc ∨ ((s.fetched x).pc = s.pc + 1#64 ∧ s.pc.toNat < s.prog.length) := by
  rw [State.fetched, front_not_taken h]
  exact fetchStage_pc ..

/-! ### The registers between calls -/

theorem hostRead_ok {s : State} {i : RegIdx} {v : Word} (h : regRead s.regs i = some v) : s.hostRead i = .ok v := by
  simp [State.hostRead, h]

/-- Index 0 reads 0 to the host (R21, R26). -/
@[simp] theorem hostRead_zero (s : State) : s.hostRead 0#6 = .ok 0#64 := hostRead_ok (regRead_zero _)

/-- A host write that answers has written the register file through `regWrite` (R26). -/
theorem hostWrite_ok {s u : State} {i : RegIdx} {v : Int} (h : s.hostWrite i v = .ok u) :
    regWrite s.regs i (BitVec.ofInt 64 v) = some u.regs := by
  unfold State.hostWrite at h
  split at h
  · cases h
    assumption
  · cases h

/-- A host read after a host write: the truncated value, or what was there. -/
theorem hostRead_hostWrite {s u : State} {i : RegIdx} {v : Int} (h : s.hostWrite i v = .ok u) {j : RegIdx}
    (hj : j ≠ 0#6) : u.hostRead j = if i = j then .ok (BitVec.ofInt 64 v) else s.hostRead j := by
  have hread := regRead_regWrite (hostWrite_ok h) j
  by_cases hij : i = j
  · subst hij
    simpa [hj] using hostRead_ok (hread.trans (by simp [hj]))
  · simp only [State.hostRead, hread, Ne.symm hij, false_and, ↓reduceIte, hij]

/-- An index above 31 is OutOfRange to the host's read (R22). -/
theorem hostRead_outOfRange (s : State) {i : RegIdx} (h : 31 < i.toNat) : s.hostRead i = .error ⟨i, .read⟩ := by
  simp [State.hostRead, (regRead_eq_none_iff s.regs i).2 h]

/-- An index above 31 is OutOfRange to the host's write (R23). -/
theorem hostWrite_outOfRange (s : State) {i : RegIdx} (v : Int) (h : 31 < i.toNat) :
    s.hostWrite i v = .error ⟨i, .write⟩ := by
  simp [State.hostWrite, (regWrite_eq_none_iff s.regs i _).2 h]

/-- The host's writes one after another, from the first of the list. -/
def State.hostWrites (s : State) (writes : List (RegIdx × Int)) : Except HostOutOfRange State :=
  writes.foldlM (fun u w => u.hostWrite w.1 w.2) s

/-- A sequence of host writes that answers has made its first write and then the others. -/
theorem hostWrites_cons {s t : State} {w : RegIdx × Int} {ws : List (RegIdx × Int)}
    (h : s.hostWrites (w :: ws) = .ok t) : ∃ u, s.hostWrite w.1 w.2 = .ok u ∧ u.hostWrites ws = .ok t := by
  rw [State.hostWrites, List.foldlM_cons] at h
  cases hu : s.hostWrite w.1 w.2 with
  | error e => simp [hu, bind, Except.bind] at h
  | ok u => exact ⟨u, rfl, by rwa [hu] at h⟩

/-- After a sequence of host writes a register holds the last value written to it, or what it held before. -/
theorem hostRead_hostWrites {i : RegIdx} (hi : i ≠ 0#6) (writes : List (RegIdx × Int)) {s t : State}
    (h : s.hostWrites writes = .ok t) :
    t.hostRead i =
      match writes.reverse.find? (fun w => w.1 = i) with
      | some w => .ok (BitVec.ofInt 64 w.2)
      | none   => s.hostRead i := by
  induction writes generalizing s with
  | nil =>
    cases h
    rfl
  | cons w ws ih =>
    obtain ⟨u, hu, ht⟩ := hostWrites_cons h
    rw [ih ht, List.reverse_cons, List.find?_append]
    cases hlast : ws.reverse.find? (fun w => w.1 = i) with
    | some w' => simp
    | none =>
      rw [hostRead_hostWrite hu hi]
      by_cases hw : w.1 = i <;> simp [hw]

/-! ### What nothing was supplied for -/

/-- A register file into which nothing was preloaded reads 0 throughout (R43; D16). -/
theorem regRead_unloaded {r : RegIdx} (h : r.toNat ≤ 31) : regRead RegFile.unloaded r = some 0#64 := by
  have hlt : r.toNat < 32 := by omega
  simp [regRead, RegFile.unloaded, Nat.not_lt.2 h, hlt]

/-- An address that is not mapped reads 0 (R61; D17). -/
theorem memRead_unmapped {m : Memory} {a : Word} (h : m.lookup a.toNat = none) : memRead m a = 0#64 := by
  simp [memRead, h]

end Sys2Proof.Machine

namespace Sys2Proof.Proofs

open Sys2Proof.Machine

/-- Settles O20: without a taken transfer fetch alone writes the program counter. -/
theorem programCounterHasNoOtherWriter : Obligations.ProgramCounterHasNoOtherWriter := by
  intro s t h hred
  obtain ⟨-, ⟨-, rfl⟩ | ⟨-, regs, x, o, -, hx, -, rfl⟩⟩ := step_next h
  · exact .inl rfl
  · exact fetched_pc_not_taken ((executedNow_taken hx).trans hred)

/-- Settles O50, by induction on the sequence of writes. -/
theorem hostRegisterWritesReadBack : Obligations.HostRegisterWritesReadBack :=
  ⟨fun _ t writes h => ⟨hostRead_zero t, fun _ hi _ => hostRead_hostWrites hi writes h⟩,
    fun s _ v h => ⟨hostRead_outOfRange s h, hostWrite_outOfRange s v h⟩⟩

/-- Settles O36. -/
theorem freshStartBeginsFromTheResetValues : Obligations.FreshStartBeginsFromTheResetValues :=
  ⟨fun _ rf _ r _ => ⟨rfl, rfl, rfl, rfl, rfl, rfl, rfl, rfl, rfl, rfl, rfl, regRead_supplied rf r, memRead_unmapped⟩,
    fun _ _ _ h => (regRead_supplied _ _).trans (regRead_unloaded h)⟩

end Sys2Proof.Proofs
end

