-- ==== Sys2Proof/Proofs/DataMemory.lean ====
section
/-! PROOF. The data memory (20_memory.md): a cycle leaves in it what the memory stage makes of EX/MEM (O16), the data port shows
that one access (O27), and the host's dump lists the mapped cells (O51). -/

namespace Sys2Proof.Machine

/-! ### Reading and writing a cell -/

/-- A read gives the value of a mapped cell (R61). -/
theorem memRead_mapped {m : Memory} {a w : Word} (h : m.lookup a.toNat = some w) : memRead m a = w := by
  simp [memRead, h]

/-- A read depends on the addressed cell alone. -/
theorem memRead_congr {m m' : Memory} {a : Word} (h : m'.lookup a.toNat = m.lookup a.toNat) :
    memRead m' a = memRead m a := by
  simp only [memRead, h]

/-- A write leaves every cell at another address (R62). -/
theorem lookup_memWrite_ne (m : Memory) {a b : Word} (v : Word) (h : a ≠ b) :
    (memWrite m a v).lookup b.toNat = m.lookup b.toNat := by
  rw [memWrite, lookup_insert, if_neg (BitVec.toNat_inj.not.2 h)]

/-- The memory stage leaves every cell that no STORE in EX/MEM addresses. -/
theorem lookup_memoryEffect_of_not_addressed (m : Memory) {e : Option ExMem} {a : Word}
    (h : ∀ p, e = some p → p.op = .store → p.addr.value ≠ a) :
    (memoryEffect m e).lookup a.toNat = m.lookup a.toNat := by
  obtain ⟨p, hp, hop, hm⟩ | ⟨-, hm⟩ := memoryEffect_cases m e
  · rw [hm, lookup_memWrite_ne m _ (h p hp hop)]
  · rw [hm]

/-- A STORE in EX/MEM writes its cell (R201). -/
theorem memoryEffect_store (m : Memory) {p : ExMem} (h : p.op = .store) :
    memoryEffect m (some p) = memWrite m p.addr.value p.storeVal.value := by
  simp [memoryEffect, h]

/-- Without a STORE in EX/MEM the memory stage leaves the memory as it is (R200, R202). -/
theorem memoryEffect_of_no_store (m : Memory) {e : Option ExMem} (h : ∀ p, e = some p → p.op ≠ .store) :
    memoryEffect m e = m := by
  obtain ⟨p, hp, hop, -⟩ | ⟨-, hm⟩ := memoryEffect_cases m e
  · exact absurd hop (h p hp)
  · exact hm

/-! ### The memory after a cycle -/

/-- A cycle that completes leaves the memory and the MEM/WB latch of its memory stage. -/
theorem cycle_memory {ex : Except FatalError Executed} {s t : State} (h : cycle ex s = .next t) :
    t.mem = memoryEffect s.mem s.exmem ∧ t.memwb = s.exmem.map (memoryImage s.mem) := by
  obtain ⟨regs, x, o, -, -, -, rfl⟩ := cycle_next h
  exact ⟨rfl, rfl⟩

/-- Whatever instruction executes, the cycle leaves the memory of its memory stage. -/
theorem exec_mem {i : Instr} {s t : State} (h : exec i s = .next t) : t.mem = memoryEffect s.mem s.exmem := by
  obtain ⟨d, -, hc⟩ := exec_next h
  exact (cycle_memory hc).1

/-- A step of a running machine leaves the memory and the MEM/WB latch of its memory stage. -/
theorem step_memory {s t : State} (hr : s.Running) (h : step s = .next t) :
    t.mem = memoryEffect s.mem s.exmem ∧ t.memwb = s.exmem.map (memoryImage s.mem) :=
  cycle_memory (step_running hr ▸ h)

/-- A step leaves the memory of the memory stage, or that of the halted state (R230). -/
theorem step_mem_cases {s t : State} (h : step s = .next t) :
    (s.halted = true ∧ t.mem = s.mem) ∨ (s.halted = false ∧ t.mem = memoryEffect s.mem s.exmem) := by
  obtain ⟨hp, ⟨hh, rfl⟩ | ⟨hh, -⟩⟩ := step_next h
  · exact .inl ⟨hh, rfl⟩
  · exact .inr ⟨hh, (step_memory ⟨hp, hh⟩ h).1⟩

/-! ### The data port (R63, R249) -/

/-- The port reads exactly for a LOAD in EX/MEM. -/
theorem dmemPort_re_iff (e : Option ExMem) : (dmemPort e).re = true ↔ ∃ p, e = some p ∧ p.op = .load := by
  cases e <;> simp [dmemPort]

/-- The port writes exactly for a STORE in EX/MEM. -/
theorem dmemPort_we_iff (e : Option ExMem) : (dmemPort e).we = true ↔ ∃ p, e = some p ∧ p.op = .store := by
  cases e <;> simp [dmemPort]

/-- The memory stage's whole effect is the write the port shows. -/
theorem memoryEffect_eq_port (m : Memory) (e : Option ExMem) :
    memoryEffect m e = if (dmemPort e).we then memWrite m (dmemPort e).addr (dmemPort e).wdata else m := by
  cases e <;> simp [memoryEffect, dmemPort]

/-- A port that reads does not write (R75). -/
theorem dmemPort_we_of_re {e : Option ExMem} (h : (dmemPort e).re = true) : (dmemPort e).we = false := by
  obtain ⟨p, rfl, hop⟩ := (dmemPort_re_iff e).1 h
  simp [dmemPort, hop]

/-- The cell the port reads is delivered to MEM/WB (R200). -/
theorem memData_of_re (m : Memory) {e : Option ExMem} (h : (dmemPort e).re = true) :
    ∃ l, e.map (memoryImage m) = some l ∧ l.memData = .of (memRead m (dmemPort e).addr) := by
  obtain ⟨p, rfl, hop⟩ := (dmemPort_re_iff e).1 h
  exact ⟨_, rfl, by simp [memoryImage, dmemPort, hop]⟩

/-! ### The host's dump (R74) -/

@[simp] theorem hostMemory_eq_mem (s : State) : s.hostMemory = s.mem := rfl
@[simp] theorem hostLoad_eq_memRead (s : State) (a : Word) : s.hostLoad a = memRead s.mem a := rfl

/-- A memory with rising addresses lists a cell exactly when the lookup finds it. -/
theorem mem_iff_lookup {m : Memory} (h : m.wf) (n : Nat) (w : Word) : (n, w) ∈ m ↔ m.lookup n = some w := by
  obtain ⟨hs, -⟩ := h
  induction m with
  | nil => simp [Memory.lookup]
  | cons c rest ih =>
    obtain ⟨k, v⟩ := c
    obtain ⟨hk, hrest⟩ := List.pairwise_cons.1 hs
    simp only [List.mem_cons, Prod.mk.injEq, Memory.lookup]
    by_cases hkn : k = n
    · have hnot : (n, w) ∉ rest := fun hc => absurd (hk _ hc) (by simp [hkn])
      simp [hkn, hnot, eq_comm]
    · simp [hkn, Ne.symm hkn, ih hrest]

/-- An address is listed with no value exactly when it is unmapped. -/
theorem lookup_eq_none_of_not_listed {m : Memory} (h : m.wf) {n : Nat} (hn : ∀ w, (n, w) ∉ m) : m.lookup n = none :=
  Option.eq_none_iff_forall_ne_some.2 fun w hw => hn w ((mem_iff_lookup h n w).2 hw)

/-- A write lists its cell, with a value of 0 too, and keeps the others (R62). -/
theorem mem_memWrite_iff {m : Memory} (h : m.wf) (a v : Word) (n : Nat) (w : Word) :
    (n, w) ∈ memWrite m a v ↔ if n = a.toNat then w = v else (n, w) ∈ m := by
  rw [mem_iff_lookup (memWrite_wf h a v), mem_iff_lookup h, memWrite, lookup_insert]
  by_cases hn : n = a.toNat
  · simp [hn, eq_comm]
  · simp [hn, Ne.symm hn]

/-- A step with a STORE in EX/MEM writes its cell. -/
theorem step_mem_store {s t : State} {p : ExMem} (h : step s = .next t) (hh : s.halted = false) (hp : s.exmem = some p)
    (hop : p.op = .store) : t.mem = memWrite s.mem p.addr.value p.storeVal.value := by
  obtain ⟨hh', -⟩ | ⟨-, hm⟩ := step_mem_cases h
  · simp [hh] at hh'
  · rw [hm, hp, memoryEffect_store _ hop]

/-- A step without a STORE in EX/MEM leaves the memory as it was. -/
theorem step_mem_of_no_store {s t : State} (h : step s = .next t) (hno : ∀ p, s.exmem = some p → p.op ≠ .store) :
    t.mem = s.mem := by
  obtain ⟨-, hm⟩ | ⟨-, hm⟩ := step_mem_cases h
  · exact hm
  · rw [hm, memoryEffect_of_no_store _ hno]

end Sys2Proof.Machine

namespace Sys2Proof.Proofs

open Sys2Proof.Machine

/-- Settles O16: whatever executes, the memory after the cycle is the one of its memory stage. -/
theorem executingChangesNoOtherCell : Obligations.ExecutingChangesNoOtherCell := by
  intro i s t h a hno
  have hcell : t.mem.lookup a.toNat = s.mem.lookup a.toNat := by
    rw [exec_mem h, lookup_memoryEffect_of_not_addressed s.mem hno]
  exact ⟨memRead_congr hcell, hcell⟩

/-- Settles O27: the memory stage reads and writes what the port shows, and a step changes nothing else of the memory. -/
theorem dataPortMakesAtMostOneAccess : Obligations.DataPortMakesAtMostOneAccess := by
  intro s t hr h
  obtain ⟨hmem, hmemwb⟩ := step_memory hr h
  rw [memoryEffect_eq_port] at hmem
  refine ⟨dmemPort_re_iff _, dmemPort_we_iff _, fun hre => ⟨dmemPort_we_of_re hre, ?_⟩, fun hwe => ?_, fun hwe => ?_⟩
  · rw [hmemwb]
    exact memData_of_re s.mem hre
  · rw [hmem, if_pos hwe]
  · rw [hmem, hwe, if_neg Bool.false_ne_true]

/-- Settles O51: in canonical form the list of cells and the lookup agree, and every write keeps the form. -/
theorem memoryDumpListsTheMappedCells : Obligations.MemoryDumpListsTheMappedCells := by
  intro s hwf
  refine ⟨hwf.1, mem_iff_lookup hwf, fun a w hw => ?_, fun a hno => ?_, fun a v n w => mem_memWrite_iff hwf a v n w,
    fun t h => ⟨fun p hh hp hop n w => ?_, step_mem_of_no_store h⟩⟩
  · rw [hostLoad_eq_memRead, and_self]
    exact memRead_mapped ((mem_iff_lookup hwf _ w).1 hw)
  · rw [hostLoad_eq_memRead, and_self]
    exact memRead_unmapped (lookup_eq_none_of_not_listed hwf hno)
  · rw [hostMemory_eq_mem, step_mem_store h hh hp hop]
    exact mem_memWrite_iff hwf _ _ n w

end Sys2Proof.Proofs
end

