-- ==== Sys2Proof/Proofs/Encoding.lean ====
section
/-! PROOF. The packed record word (30_encoding.md section 2): which words the decoder accepts, what it makes of them and why it
refuses the others (O2), and the refusal of a program with a malformed record (O5). -/

namespace Sys2Proof

/-! ### Tags and shapes -/

/-- Every 4-bit value is the tag of the operation it spells (R86). -/
@[simp] theorem Op.tag_ofTag (t : BitVec 4) : (Op.ofTag t).tag = t := by
  revert t
  decide

theorem Op.tag_eq_iff {o : Op} {t : BitVec 4} : o.tag = t ↔ o = Op.ofTag t :=
  ⟨fun h => by rw [← h, Op.ofTag_tag], fun h => by rw [h, Op.tag_ofTag]⟩

theorem Op.tag_inj {o o' : Op} (h : o.tag = o'.tag) : o = o' := by
  rw [← Op.ofTag_tag o, h, Op.ofTag_tag]

/-- The operations with a row in R81 are those with a tag below 14. -/
theorem Op.tag_lt_iff (o : Op) : o.tag.toNat < 14 ↔ ∃ q, o.shape = some q := by
  cases o <;> simp [Op.tag, Op.shape]

theorem Record.wellShaped_iff (r : Record) : r.wellShaped = true ↔ ∀ q, r.op.shape = some q → r.presence = q := by
  unfold Record.wellShaped
  cases r.op.shape <;> simp

theorem Record.wellShaped_eq_false_iff (r : Record) :
    r.wellShaped = false ↔ ∃ q, r.op.shape = some q ∧ r.presence ≠ q := by
  rw [← Bool.not_eq_true, Record.wellShaped_iff]
  push Not
  rfl

/-! ### The record of a decoded instruction -/

theorem Opt.ofOption_toOption {w : Nat} (f : Opt (BitVec w)) :
    Opt.ofOption f.toOption = if f.present then .of f.value else .absent := by
  obtain ⟨p, v⟩ := f
  cases p <;> rfl

/-- The instruction of a well-shaped record carries the record's fields, its don't-care bits written as 0 (R85). -/
theorem Record.instr_toRecord {r : Record} (h : r.wellShaped = true) :
    r.instr.toRecord =
      ⟨r.op, .ofOption r.rd.toOption, .ofOption r.rs1.toOption, .ofOption r.rs2.toOption, .ofOption r.imm.toOption⟩ := by
  obtain ⟨op, ⟨p1, rd⟩, ⟨p2, rs1⟩, ⟨p3, rs2⟩, ⟨p4, imm⟩⟩ := r
  have hp := (Record.wellShaped_iff _).1 h
  cases op
  case tag14 | tag15 => rfl
  all_goals
    obtain ⟨rfl, rfl, rfl, rfl⟩ := by simpa [Op.shape, Record.presence] using hp
    rfl

/-! ### The three answers of the decoder (R87) -/

theorem decodeWord_reservedBits_iff (w : PackedWord) :
    decodeWord w = .refused .reservedBits ↔ reservedBits w ≠ 0#6 := by
  unfold decodeWord
  split
  · simp [*]
  · split <;> simp [*]

theorem decodeWord_badShape_iff (w : PackedWord) :
    decodeWord w = .refused .badShape ↔ reservedBits w = 0#6 ∧ (Record.ofWord w).wellShaped = false := by
  unfold decodeWord
  split
  · simp [*]
  · split <;> simp_all

theorem decodeWord_instr_iff (w : PackedWord) (i : Instr) :
    decodeWord w = .instr i ↔
      reservedBits w = 0#6 ∧ (Record.ofWord w).wellShaped = true ∧ (Record.ofWord w).instr = i := by
  unfold decodeWord
  split
  · simp [*]
  · split <;> simp_all

/-! ### The header's tag, presence and reserved bits -/

/-- Bits 7..4 of a header, from the presence bits rd, rs1, rs2, imm (R85). -/
def presenceBits (p : Bool × Bool × Bool × Bool) : BitVec 4 :=
  BitVec.ofBool p.2.2.2 ++ (BitVec.ofBool p.2.2.1 ++ (BitVec.ofBool p.2.1 ++ BitVec.ofBool p.1))

theorem presenceBits_inj : ∀ {p q : Bool × Bool × Bool × Bool}, presenceBits p = presenceBits q → p = q := by decide

theorem Record.presenceBits_ofWord (w : PackedWord) :
    presenceBits (Record.ofWord w).presence = w.extractLsb' 4 4 := by
  apply BitVec.eq_of_getLsbD_eq
  intro k hk
  simp only [presenceBits, Record.presence, Record.ofWord, BitVec.getLsbD_append, BitVec.getLsbD_ofBool,
    BitVec.getLsbD_extractLsb', hk, decide_true, Bool.true_and]
  interval_cases k <;> simp

theorem bareHeader_tag (p : Bool × Bool × Bool × Bool) (o : Op) : (bareHeader p o).extractLsb' 0 4 = o.tag := by
  revert p
  cases o <;> decide

theorem bareHeader_presence (p : Bool × Bool × Bool × Bool) (o : Op) :
    (bareHeader p o).extractLsb' 4 4 = presenceBits p := by
  revert p
  cases o <;> decide

/-- A bare header determines the presence bits and the operation. -/
theorem bareHeader_inj {p q : Bool × Bool × Bool × Bool} {x o : Op} (h : bareHeader p x = bareHeader q o) :
    p = q ∧ x = o := by
  have hp := congrArg (BitVec.extractLsb' 4 4) h
  have ht := congrArg (BitVec.extractLsb' 0 4) h
  rw [bareHeader_presence, bareHeader_presence] at hp
  rw [bareHeader_tag, bareHeader_tag] at ht
  exact ⟨presenceBits_inj hp, Op.tag_inj ht⟩

/-- Where the reserved bits are 0, the masked header holds the presence bits and the tag. -/
theorem header_masked {w : PackedWord} (h : reservedBits w = 0#6) :
    header w &&& 0xFC0000FF#32 = bareHeader (Record.ofWord w).presence (Record.ofWord w).op := by
  have hr : ∀ k (hk : k < 96), 26 ≤ k → k < 32 → w[k] = false := by
    intro k hk hlo hhi
    obtain ⟨j, rfl⟩ := Nat.exists_eq_add_of_le hlo
    simpa [reservedBits, show j < 6 by omega, hk] using congrArg (BitVec.getLsbD · j) h
  apply BitVec.eq_of_getLsbD_eq
  intro k hk
  simp only [BitVec.getLsbD_and, header, BitVec.getLsbD_extractLsb', hk, decide_true, Bool.true_and, Nat.zero_add,
    bareHeader, Record.presence, Record.ofWord, Op.tag_ofTag, BitVec.getLsbD_setWidth, BitVec.getLsbD_append,
    BitVec.getLsbD_ofBool]
  interval_cases k <;> simp [hr]

/-- Where the reserved bits are 0, a match test (R87) sees the presence bits and the tag alone. -/
theorem header_and_headerMask {w : PackedWord} (h : reservedBits w = 0#6) (o : Op) :
    header w &&& headerMask o = bareHeader (Record.ofWord w).presence (Record.ofWord w).op &&& headerMask o := by
  have hsub : headerMask o = 0xFC0000FF#32 &&& headerMask o := by cases o <;> rfl
  rw [← header_masked h, BitVec.and_assoc, ← hsub]

/-- Every mask covers the reserved bits and every match value has 0 there (R87). -/
theorem reservedBits_of_header_match {w : PackedWord} {o : Op} (h : header w &&& headerMask o = headerMatch o) :
    reservedBits w = 0#6 := by
  have hw : (header w).extractLsb' 26 6 = reservedBits w := BitVec.extractLsb'_extractLsb'_of_le (by decide)
  have hmask : (headerMask o).extractLsb' 26 6 = BitVec.allOnes 6 := by cases o <;> rfl
  have hmatch : (headerMatch o).extractLsb' 26 6 = 0#6 := by cases o <;> rfl
  have hb := congrArg (BitVec.extractLsb' 26 6) h
  rwa [BitVec.extractLsb'_and, hw, hmask, hmatch, BitVec.and_allOnes] at hb

/-! ### Match values and shapes -/

theorem headerMask_of_shape {o : Op} {q : Bool × Bool × Bool × Bool} (h : o.shape = some q) :
    headerMask o = 0xFC0000FF#32 := by
  cases o
  case tag14 | tag15 => cases h
  all_goals rfl

theorem headerMask_of_shape_none {o : Op} (h : o.shape = none) : headerMask o = 0xFC00000E#32 := by
  cases o
  case tag14 | tag15 => rfl
  all_goals cases h

theorem headerMatch_eq_unsupported_iff (o : Op) : headerMatch o = 0x0000000E#32 ↔ o.shape = none := by
  cases o <;> decide

theorem headerMatch_presence {o : Op} {q : Bool × Bool × Bool × Bool} (h : o.shape = some q) :
    (headerMatch o).extractLsb' 4 4 = presenceBits q := by
  rw [← bareHeader_of_shape h, bareHeader_presence]

theorem bareHeader_and_mask (p : Bool × Bool × Bool × Bool) (x : Op) :
    bareHeader p x &&& 0xFC0000FF#32 = bareHeader p x := by
  revert p
  cases x <;> decide

theorem bareHeader_unsupported_iff (p : Bool × Bool × Bool × Bool) (x : Op) :
    bareHeader p x &&& 0xFC00000E#32 = 0x0000000E#32 ↔ x.shape = none := by
  revert p
  cases x <;> decide

/-- A bare header meets the match value of an operation exactly when it has a good shape and spells that operation, where the
two unsupported tags count as one operation (R87). -/
theorem bareHeader_match_iff (p : Bool × Bool × Bool × Bool) (x o : Op) :
    bareHeader p x &&& headerMask o = headerMatch o ↔
      (∀ q, x.shape = some q → p = q) ∧ headerMatch x = headerMatch o := by
  cases ho : o.shape with
  | none =>
    rw [headerMask_of_shape_none ho, (headerMatch_eq_unsupported_iff o).2 ho, bareHeader_unsupported_iff,
      headerMatch_eq_unsupported_iff]
    exact ⟨fun hx => ⟨by simp [hx], hx⟩, And.right⟩
  | some q =>
    rw [headerMask_of_shape ho, bareHeader_and_mask, ← bareHeader_of_shape ho]
    constructor
    · intro h
      obtain ⟨rfl, rfl⟩ := bareHeader_inj h
      exact ⟨fun _ hq => Option.some.inj (ho.symm.trans hq), (bareHeader_of_shape ho).symm⟩
    · rintro ⟨hp, hm⟩
      cases hx : x.shape with
      | none =>
        rw [bareHeader_of_shape ho, (headerMatch_eq_unsupported_iff x).2 hx, eq_comm, headerMatch_eq_unsupported_iff, ho] at hm
        cases hm
      | some q' => rw [hp q' hx, bareHeader_of_shape hx, hm]

/-! ### A word and what it decodes to -/

/-- A word meets the match value of an operation exactly when it decodes to an instruction with that match value (R87). -/
theorem header_match_iff (w : PackedWord) (o : Op) :
    header w &&& headerMask o = headerMatch o ↔
      ∃ i, decodeWord w = .instr i ∧ headerMatch i.op = headerMatch o := by
  constructor
  · intro h
    have hr := reservedBits_of_header_match h
    rw [header_and_headerMask hr, bareHeader_match_iff] at h
    obtain ⟨hshape, hm⟩ := h
    exact ⟨_, (decodeWord_instr_iff w _).2 ⟨hr, (Record.wellShaped_iff _).2 hshape, rfl⟩, by rwa [Record.instr_op]⟩
  · rintro ⟨i, hi, hm⟩
    obtain ⟨hr, hshape, rfl⟩ := (decodeWord_instr_iff w i).1 hi
    rw [Record.instr_op] at hm
    rw [header_and_headerMask hr, bareHeader_match_iff]
    exact ⟨(Record.wellShaped_iff _).1 hshape, hm⟩

/-- A word's shape is bad exactly when its tag is supported and its presence bits are not those of the match value (R87). -/
theorem Record.ofWord_wellShaped_eq_false_iff (w : PackedWord) :
    (Record.ofWord w).wellShaped = false ↔
      (w.extractLsb' 0 4).toNat < 14 ∧
        ∀ o : Op, o.tag = w.extractLsb' 0 4 → w.extractLsb' 4 4 ≠ (headerMatch o).extractLsb' 4 4 := by
  have htag : (Record.ofWord w).op.tag = w.extractLsb' 0 4 := Op.tag_ofTag _
  rw [Record.wellShaped_eq_false_iff, ← Record.presenceBits_ofWord, ← htag, Op.tag_lt_iff]
  constructor
  · rintro ⟨q, hq, hne⟩
    refine ⟨⟨q, hq⟩, fun o ho h => hne (presenceBits_inj ?_)⟩
    rw [h, Op.tag_inj ho, headerMatch_presence hq]
  · rintro ⟨⟨q, hq⟩, h⟩
    refine ⟨q, hq, fun hp => h _ rfl ?_⟩
    rw [headerMatch_presence hq, hp]

/-- The record of the instruction a word decodes to has the word's fields, the absent ones with 0 bits (R85, R87). -/
theorem toRecord_of_decodeWord {w : PackedWord} {i : Instr} (h : decodeWord w = .instr i) :
    i.toRecord = ⟨Op.ofTag (w.extractLsb' 0 4),
      if w.getLsbD 4 then .of (w.extractLsb' 8 6) else .absent,
      if w.getLsbD 5 then .of (w.extractLsb' 14 6) else .absent,
      if w.getLsbD 6 then .of (w.extractLsb' 20 6) else .absent,
      if w.getLsbD 7 then .of (w.extractLsb' 32 64) else .absent⟩ := by
  obtain ⟨-, hshape, rfl⟩ := (decodeWord_instr_iff w i).1 h
  rw [Record.instr_toRecord hshape]
  simp only [Opt.ofOption_toOption]
  rfl

/-! ### A malformed record (R88) -/

theorem Record.reservedBits_pack (r : Record) : reservedBits r.pack = 0#6 := by
  refine extractLsb'_eq_of_bits (fun k hk => ?_)
  rw [Record.getLsbD_pack]
  interval_cases k <;> rfl

/-- A record in abstract form packs to a word the decoder refuses exactly when its shape is bad. -/
theorem decodeWord_pack_refused_iff (r : Record) : (∃ d, decodeWord r.pack = .refused d) ↔ r.wellShaped = false := by
  constructor
  · rintro ⟨d, hd⟩
    cases d with
    | reservedBits => exact absurd r.reservedBits_pack ((decodeWord_reservedBits_iff _).1 hd)
    | badShape =>
      obtain ⟨-, hshape⟩ := (decodeWord_badShape_iff _).1 hd
      rwa [Record.ofWord_pack] at hshape
  · intro h
    exact ⟨.badShape, (decodeWord_badShape_iff _).2 ⟨r.reservedBits_pack, by rwa [Record.ofWord_pack]⟩⟩

/-- A program with a refused word has a first one: the slot and the reason that the program's check answers. -/
theorem programDefectFrom_of_refused {prog : List PackedWord} (slot : Nat)
    (h : ∃ w ∈ prog, ∃ r, decodeWord w = .refused r) :
    ∃ k w r, prog[k]? = some w ∧ decodeWord w = .refused r ∧ programDefectFrom slot prog = some (slot + k, r) := by
  induction prog generalizing slot with
  | nil => simp at h
  | cons v rest ih =>
    cases hv : decodeWord v with
    | refused r => exact ⟨0, v, r, rfl, hv, by simp [programDefectFrom, hv]⟩
    | instr i =>
      have hrest : ∃ w ∈ rest, ∃ r, decodeWord w = .refused r := by simpa [hv] using h
      obtain ⟨k, w, r, hk, hw, hd⟩ := ih (slot + 1) hrest
      refine ⟨k + 1, w, r, hk, hw, ?_⟩
      simp only [programDefectFrom, hv, hd, Nat.add_assoc, Nat.add_comm 1 k]

namespace Machine

theorem step_malformed {s : State} {k : Nat} {r : RecordDefect} (h : programDefect s.prog = some (k, r)) :
    step s = .refused (.malformedRecord k r) := by
  simp [step, h]

theorem run_malformed {prog : List PackedWord} {k : Nat} {r : RecordDefect} (h : programDefect prog = some (k, r))
    (rf : RegFile) (mem : Memory) (n : Nat) (resume : Option Resume) :
    run prog rf mem n resume = .refused (.malformedRecord k r) := by
  simp [run, h]

end Machine

end Sys2Proof

namespace Sys2Proof.Proofs

open Sys2Proof.Machine

/-- Settles O2: the three answers of the decoder, by the reserved bits, the shape and the match value. -/
theorem decoderFollowsItsTable : Obligations.DecoderFollowsItsTable := by
  intro w
  refine ⟨header_match_iff w, decodeWord_reservedBits_iff w, ?_, fun i hi => ?_⟩
  · rw [decodeWord_badShape_iff, Record.ofWord_wellShaped_eq_false_iff]
    rfl
  · have hrec := toRecord_of_decodeWord hi
    have hop : i.op = Op.ofTag (w.extractLsb' 0 4) := by rw [← Instr.toRecord_op, hrec]
    rw [hrec, hop]
    exact ⟨Op.tag_ofTag _, rfl, rfl, rfl, rfl⟩

/-- Settles O5: a step and a call ask the program's check first, and it answers the first refused slot. -/
theorem malformedProgramIsRefusedWhole : Obligations.MalformedProgramIsRefusedWhole := by
  refine ⟨fun prog h => ?_, fun r => ?_⟩
  · obtain ⟨k, w, r, hk, hw, hd⟩ := programDefectFrom_of_refused 0 h
    rw [Nat.zero_add] at hd
    exact ⟨k, w, r, hk, hw, fun s hs => step_malformed (hs ▸ hd), run_malformed hd⟩
  · rw [decodeWord_pack_refused_iff, Record.wellShaped_eq_false_iff]

end Sys2Proof.Proofs
end

