-- ==== Sys2Proof/Proofs/Completion.lean ====
section
/-! PROOF. When a cycle completes and what it leaves: decode raises nothing on sources it can resolve (R192), and a cycle without
a taken transfer has the surroundings and the front end of 47_orchestrator.md R231. The completion statements cite these. -/

namespace Sys2Proof.Machine

/-! ### Decode raises nothing -/

theorem ExMem.writesReg_iff {l : ExMem} {r : RegIdx} :
    l.writesReg r = true ↔ l.op.writesRF = true ∧ l.rd.value = r := by
  simp [ExMem.writesReg]

/-- The executing instruction passes its destination on to `EXMEM'`, where the decode bypass sees it (R192 (a), R198). -/
theorem executedNow_writesReg {s : State} {x : Executed} {d : IdEx} (hx : s.executedNow = .ok x) (hd : s.idex = some d)
    (hw : d.op.writesRF = true) : ∃ c, x.exmem = some c ∧ c.writesReg d.rd.value = true := by
  obtain ⟨hn, -⟩ | ⟨d', a, b, hd', -, ho⟩ := executedNow_ok hx
  · simp [hn] at hd
  · obtain rfl : d' = d := by simpa [hd'] using hd
    obtain ⟨c, hc, hop, hrd, -⟩ := operationOf_ok ho
    exact ⟨c, hc, ExMem.writesReg_iff.2 ⟨hop ▸ hw, by rw [hrd]⟩⟩

/-- An executed instruction that writes a register other than the destination of an executing LOAD has its write value (R37,
R198). -/
theorem executedNow_writeValue {s : State} {x : Executed} {c : ExMem} (hx : s.executedNow = .ok x) (hc : x.exmem = some c)
    (hload : ∀ d, s.idex = some d → d.op = .load → d.rd.value ≠ c.rd.value) (hw : c.op.writesRF = true) :
    c.writeValue ≠ none := by
  obtain ⟨d, hd, hop, hrd, -, hdone⟩ := executedNow_exmem hx hc
  have hl : c.op ≠ .load := fun hl => hload d hd (hop ▸ hl) (by rw [hrd])
  exact ExMem.writeValue_ne_none hw hl (hdone hw hl)

/-- A source that is ready resolves, if it does not name the destination of an executing LOAD (R192, R175). -/
theorem resolve_of_sourceReady {s : State} {x : Executed} {r : RegIdx} (hx : s.executedNow = .ok x) (hr : s.SourceReady r)
    (hload : ∀ d, s.idex = some d → d.op = .load → d.rd.value ≠ 0#6 → r ≠ d.rd.value) (regs : RegFile) (pc : Word) :
    ∃ v, resolve x.exmem s.exmem s.memwbNext regs pc r = .ok v := by
  by_cases h0 : r = 0#6
  · exact ⟨0#64, h0 ▸ resolve_zero ..⟩
  cases hres : resolve x.exmem s.exmem s.memwbNext regs pc r with
  | ok v => exact ⟨v, rfl⟩
  | error e =>
    exfalso
    obtain ⟨c, hc, -, hcw, he⟩ | ⟨hno, hprev⟩ := resolve_cases hres
    · obtain ⟨hw, rfl⟩ := ExMem.writesReg_iff.1 hcw
      exact executedNow_writeValue hx hc (fun d hd hl he => hload d hd hl (he ▸ h0) he.symm) hw
        (bypassed_error_iff.1 he.symm).1
    obtain hzero | ⟨d, hd, hw, rfl⟩ | ⟨p, hp, hpw, hdone⟩ | ⟨hfree, hle⟩ := hr
    · exact h0 hzero
    · obtain ⟨c, hc, hcw⟩ := executedNow_writesReg hx hd hw
      simp [hno c hc h0] at hcw
    · obtain ⟨y, hy, -, -, he⟩ | ⟨hnone, -⟩ := hprev
      · obtain rfl : p = y := by simpa [hp] using hy
        obtain ⟨hw, -⟩ := ExMem.writesReg_iff.1 hpw
        refine memoryImage_writeValue_ne_none s.mem hw (fun hl => hdone.resolve_left hl) ?_
        simpa [State.memwbNext, hp] using (bypassed_error_iff.1 he.symm).1
      · simp [hnone p hp h0] at hpw
    · obtain ⟨y, hy, -, hyw, -⟩ | ⟨-, he⟩ := hprev
      · simp [hfree y hy] at hyw
      · obtain ⟨hread, -⟩ := readSource_error_iff.1 he.symm
        exact absurd ((regRead_eq_none_iff regs r).1 hread) (Nat.not_lt.2 hle)

/-- A cycle whose execute answers and whose IF/ID is ready raises nothing in decode. -/
theorem decoded_of_ready {s : State} {x : Executed} (hx : s.executedNow = .ok x) (hr : s.DecodeReady) (regs : RegFile) :
    ∃ o, s.decoded x regs = .ok o := by
  cases ho : s.decoded x regs with
  | ok o => exact ⟨o, rfl⟩
  | error e =>
    exfalso
    obtain ⟨g, hlu, hg, herr⟩ := decodeStage_error ho
    rw [signals_bubble] at hlu
    obtain ⟨-, hf⟩ := front_ifid_some hg
    obtain hstall | ⟨h1, h2⟩ := hr g hf
    · simp [hstall] at hlu
    · have hload : ∀ d, s.idex = some d → d.op = .load → d.rd.value ≠ 0#6 →
          srcIdx g.record.rs1 ≠ d.rd.value ∧ srcIdx g.record.rs2 ≠ d.rd.value := fun d hd =>
        sources_ne_of_loadUse_false (by rwa [hf, hd] at hlu)
      obtain ⟨v1, hv1⟩ := resolve_of_sourceReady hx h1 (fun d hd hl h0 => (hload d hd hl h0).1) regs g.pc
      obtain ⟨v2, hv2⟩ := resolve_of_sourceReady hx h2 (fun d hd hl h0 => (hload d hd hl h0).2) regs g.pc
      obtain he | ⟨-, -, he⟩ := herr
      · simp [hv1] at he
      · simp [hv2] at he

/-! ### What a completed cycle leaves -/

/-- The older instructions write back and pass the memory stage, whatever executes (R200 to R203). -/
theorem completed_around {s : State} {regs : RegFile} (hw : writeBack s.regs s.memwb = .ok regs) (x : Executed)
    (o : Option IdEx) : s.AroundExecute (s.completed regs x o) where
  regs := hw
  mem := rfl
  memwb := by
    refine ⟨fun hp => by simp [State.memwbNext, hp],
      fun p hp => ⟨memoryImage s.mem p, by simp [State.memwbNext, hp], rfl, ?_⟩⟩
    by_cases hop : p.op = .load <;> simp [memoryImage, hop, Opt.toOption, Opt.of, Opt.absent]
  prog := rfl
  cycleCount := rfl
  halted := rfl

/-- A cycle without a stall, in which fetching goes on after step 5, fetches at the program counter of step 5 (R190). -/
theorem completed_fetchedAt {s : State} {x : Executed} {pc : Word} {f : Option IfId} (hlu : loadUse s.ifid s.idex = false)
    (hf : s.front x = ⟨pc, f, false⟩) (regs : RegFile) (o : Option IdEx) :
    (s.completed regs x o).FetchedAt s.prog pc := by
  simp only [State.FetchedAt, completed_ifid, completed_pc, completed_fetchExhausted, State.fetched, signals_stallFetch,
    hlu, hf]
  obtain ⟨h, -⟩ | ⟨-, h, -⟩ | ⟨w, -, -, hw, he⟩ | ⟨-, -, hw, he⟩ := fetchStage_cases s.prog false ⟨pc, f, false⟩
  · cases h
  · cases h
  · simp [he, show s.prog[pc.toNat]? = some w from hw]
  · simp [he, show s.prog[pc.toNat]? = none from hw]

/-- A cycle without a taken transfer advances the front end: held by the stall, empty once fetch is exhausted, fetched at the
program counter otherwise (R190, R234). -/
theorem completed_frontAdvanced {s : State} {regs : RegFile} {x : Executed} {o : Option IdEx} (ht : x.taken = false)
    (ho : s.decoded x regs = .ok o) : s.FrontAdvanced (s.completed regs x o) := by
  have hfront := front_not_taken (s := s) ht
  refine ⟨fun hlu => ?_, fun hlu hex => ?_, fun hlu hex => completed_fetchedAt hlu (hex ▸ hfront) regs o⟩
  · have hidex : o = none := by simpa [State.decoded, hlu, eq_comm] using ho
    simp [State.fetched, fetchStage, hlu, hfront, hidex]
  · simp [State.fetched, fetchStage, hlu, hfront, hex]

/-! ### The cycle of the instruction in ID/EX -/

/-- With its operands selected, execute is the operation of the instruction in ID/EX. -/
theorem executedNow_eq {s : State} {d : IdEx} {a b : Word} (hd : s.idex = some d) (hop : s.operands d = .ok (a, b)) :
    s.executedNow = operationOf d.instr ⟨d, a, b⟩ := by
  simp only [State.executedNow, hd, executed_some hd, hop]

/-- An instruction in ID/EX whose operation answers without a taken transfer completes, under conditions on the state alone. -/
theorem exec_completes {s : State} {d : IdEx} {i : Instr} {a b : Word} {x : Executed} (hd : s.idex = some d)
    (hw : s.WriteBackReady) (hop : s.operands d = .ok (a, b)) (hr : s.DecodeReady) (hi : d.instr = i)
    (hx : operationOf i ⟨d, a, b⟩ = .ok x) (ht : x.taken = false) :
    ∃ t, exec i s = .next t ∧ t.exmem = x.exmem ∧ s.AroundExecute t ∧ s.FrontAdvanced t := by
  subst hi
  have hnow : s.executedNow = .ok x := (executedNow_eq hd hop).trans hx
  obtain ⟨regs, hregs⟩ := writeBack_ok (regs := s.regs) hw
  obtain ⟨o, ho⟩ := decoded_of_ready hnow hr regs
  refine ⟨s.completed regs x o, ?_, rfl, completed_around hregs x o, completed_frontAdvanced ht ho⟩
  rw [exec_self hd, hnow, cycle_of_ok hregs ho]

end Sys2Proof.Machine
end

