-- ==== Sys2Proof/Proofs/AluOperations.lean ====
section
/-! PROOF. The operations that leave an ALU result (41_alu_register.md, 44_upper_immediate.md): ADD, SUB, AND, OR and XOR (O6),
ADDI, LUI and AUIPC (O7). -/

namespace Sys2Proof.Machine

/-- An instruction in ID/EX whose operation leaves an ALU result completes with that result alone in EX/MEM (R198, first row). -/
theorem exec_result_completes {s : State} {d : IdEx} {i : Instr} {a b v : Word} (hd : s.idex = some d)
    (hw : s.WriteBackReady) (hop : s.operands d = .ok (a, b)) (hr : s.DecodeReady) (hi : d.instr = i)
    (hv : operationOf i ⟨d, a, b⟩ = .ok (ExecuteIn.result ⟨d, a, b⟩ v)) :
    ∃ t, exec i s = .next t ∧ t.ExMemBuilt d (some v) none none ∧ s.AroundExecute t ∧ s.FrontAdvanced t := by
  obtain ⟨t, ht, he, haround, hfront⟩ := exec_completes hd hw hop hr hi hv rfl
  exact ⟨t, ht, ⟨_, he, rfl, rfl, rfl, rfl, rfl, rfl, rfl, rfl, rfl⟩, haround, hfront⟩

end Sys2Proof.Machine

namespace Sys2Proof.Proofs

open Sys2Proof.Machine

/-- Settles O6: each of the five operations leaves its ALU result, so `exec_result_completes` says what its cycle does. -/
theorem registerOperationsComplete : Obligations.RegisterOperationsComplete := by
  intro s d rd rs1 rs2 a b hd hw hop hr
  refine ⟨?_, ?_, ?_, ?_, ?_⟩ <;> exact fun hi => exec_result_completes hd hw hop hr hi rfl

/-- Settles O7: as for the register operations; AUIPC reads the slot index of its own latch. -/
theorem immediateOperationsComplete : Obligations.ImmediateOperationsComplete := by
  intro s d rd rs1 imm a b hd hw hop hr
  refine ⟨?_, ?_, ?_⟩ <;> exact fun hi => exec_result_completes hd hw hop hr hi rfl

end Sys2Proof.Proofs
end

