-- ==== Sys2Proof/Proofs/LoadStore.lean ====
section
/-! PROOF. LOAD and STORE in execute (42_load_store.md sections 1 and 2): the address, and a STORE's data (O8). -/

namespace Sys2Proof.Machine

/-- What a LOAD leaves in EX/MEM: the address alone (R198). -/
theorem exMemBuilt_of_loadFrom {t : State} {x : ExecuteIn} {addr : Word} (h : t.exmem = (x.loadFrom addr).exmem) :
    t.ExMemBuilt x.latch none (some addr) none :=
  ⟨_, h, rfl, rfl, rfl, rfl, rfl, rfl, rfl, rfl, rfl⟩

/-- What a STORE leaves in EX/MEM: the address and the data (R198). -/
theorem exMemBuilt_of_storeTo {t : State} {x : ExecuteIn} {addr data : Word}
    (h : t.exmem = (x.storeTo addr data).exmem) : t.ExMemBuilt x.latch none (some addr) (some data) :=
  ⟨_, h, rfl, rfl, rfl, rfl, rfl, rfl, rfl, rfl, rfl⟩

end Sys2Proof.Machine

namespace Sys2Proof.Proofs

open Sys2Proof.Machine

/-- Settles O8: neither operation transfers control, so `exec_completes` says what the cycle does around execute, and the two
lemmas above say what it leaves in EX/MEM. -/
theorem loadAndStoreComputeTheirAddress : Obligations.LoadAndStoreComputeTheirAddress := by
  intro s d rd rs1 rs2 imm a b hd hw hop hr
  constructor
  · intro hi
    obtain ⟨t, ht, he, haround, hfront⟩ := exec_completes hd hw hop hr hi rfl rfl
    exact ⟨t, ht, exMemBuilt_of_loadFrom he, haround, hfront⟩
  · intro hi
    obtain ⟨t, ht, he, haround, hfront⟩ := exec_completes hd hw hop hr hi rfl rfl
    exact ⟨t, ht, exMemBuilt_of_storeTo he, haround, hfront⟩

end Sys2Proof.Proofs
end

