-- ==== Sys2Proof/Proofs/ControlTransfer.lean ====
section
/-! PROOF. BEQ, BNE, JAL and JALR (43_control_transfer.md section 2): the cycle of a taken transfer (47_orchestrator.md R233), the
branches taken (O9) and not taken (O10), and the jumps with their link (O11). -/

namespace Sys2Proof.Machine

/-! ### The cycle of a taken transfer -/

/-- Decode sees an empty IF/ID behind a taken transfer, so it raises nothing (R233, R193). -/
theorem decoded_taken {s : State} {x : Executed} {tr : Transfer} (htr : x.transfer = some tr) (ht : tr.taken = true)
    (regs : RegFile) : s.decoded x regs = .ok none := by
  simp [State.decoded, front_taken htr ht]

/-- A cycle with a taken transfer fetches its target: no stall holds fetch then (R231), and step 5 has resumed it (R233). -/
theorem completed_redirectedTo {s : State} {x : Executed} {tr : Transfer} (hx : s.executedNow = .ok x)
    (htr : x.transfer = some tr) (ht : tr.taken = true) (regs : RegFile) :
    s.RedirectedTo (s.completed regs x none) tr.nextPc := by
  have htaken : x.taken = true := by simp [Executed.taken, htr, ht]
  have hlu : loadUse s.ifid s.idex = false := by
    by_contra hstall
    simp [not_taken_of_loadUse hx (by simpa using hstall)] at htaken
  exact ⟨rfl, completed_fetchedAt hlu (front_taken htr ht) regs none⟩

/-- An instruction in ID/EX whose operation answers with a taken transfer completes and redirects, whatever waits in IF/ID: a
ready write-back is all it needs of the state. -/
theorem exec_redirects {s : State} {d : IdEx} {i : Instr} {a b : Word} {x : Executed} {tr : Transfer} (hd : s.idex = some d)
    (hw : s.WriteBackReady) (hop : s.operands d = .ok (a, b)) (hi : d.instr = i) (hx : operationOf i ⟨d, a, b⟩ = .ok x)
    (htr : x.transfer = some tr) (ht : tr.taken = true) :
    ∃ t, exec i s = .next t ∧ t.exmem = x.exmem ∧ s.AroundExecute t ∧ s.RedirectedTo t tr.nextPc := by
  subst hi
  have hnow : s.executedNow = .ok x := (executedNow_eq hd hop).trans hx
  obtain ⟨regs, hregs⟩ := writeBack_ok (regs := s.regs) hw
  refine ⟨s.completed regs x none, ?_, rfl, completed_around hregs x none, completed_redirectedTo hnow htr ht regs⟩
  rw [exec_self hd, hnow, cycle_of_ok hregs (decoded_taken htr ht regs)]

/-! ### Branches -/

/-- A branch compares the values decode resolved, past the forwarding multiplexer (R196). -/
theorem operands_of_branch (s : State) {d : IdEx} {i : Instr} (hi : d.instr = i) (hb : i.op = .beq ∨ i.op = .bne) :
    s.operands d = .ok (d.rs1Val, d.rs2Val) := by
  have hop : d.op = .beq ∨ d.op = .bne := by rwa [← hi, IdEx.instr_op] at hb
  simp [State.operands, selectOperands, hop]

/-- What a branch leaves in EX/MEM: no computed field (R198). -/
theorem exMemBuilt_of_branch {t : State} {x : ExecuteIn} {c : Bool} {target : Word}
    (h : t.exmem = (x.branch c target).exmem) : t.ExMemBuilt x.latch none none none :=
  ⟨_, h, rfl, rfl, rfl, rfl, rfl, rfl, rfl, rfl, rfl⟩

/-- A branch whose condition holds completes and redirects to its target. -/
theorem exec_branch_redirects {s : State} {d : IdEx} {i : Instr} {a b target : Word} {c : Bool} (hd : s.idex = some d)
    (hw : s.WriteBackReady) (hop : s.operands d = .ok (a, b)) (hi : d.instr = i)
    (hx : operationOf i ⟨d, a, b⟩ = .ok (ExecuteIn.branch ⟨d, a, b⟩ c target)) (hc : c = true) :
    ∃ t, exec i s = .next t ∧ t.ExMemBuilt d none none none ∧ s.AroundExecute t ∧ s.RedirectedTo t target := by
  subst hc
  obtain ⟨t, ht, he, haround, hto⟩ := exec_redirects hd hw hop hi hx rfl rfl
  exact ⟨t, ht, exMemBuilt_of_branch he, haround, hto⟩

/-- A branch whose condition fails completes and redirects nothing. -/
theorem exec_branch_completes {s : State} {d : IdEx} {i : Instr} {a b target : Word} {c : Bool} (hd : s.idex = some d)
    (hw : s.WriteBackReady) (hop : s.operands d = .ok (a, b)) (hr : s.DecodeReady) (hi : d.instr = i)
    (hx : operationOf i ⟨d, a, b⟩ = .ok (ExecuteIn.branch ⟨d, a, b⟩ c target)) (hc : c = false) :
    ∃ t, exec i s = .next t ∧ t.ExMemBuilt d none none none ∧ s.AroundExecute t ∧ s.FrontAdvanced t := by
  subst hc
  obtain ⟨t, ht, he, haround, hfront⟩ := exec_completes hd hw hop hr hi hx rfl
  exact ⟨t, ht, exMemBuilt_of_branch he, haround, hfront⟩

/-! ### Jumps -/

/-- A jump completes with its link alone in EX/MEM (R198) and redirects to its target. -/
theorem exec_jump_redirects {s : State} {d : IdEx} {i : Instr} {a b link target : Word} (hd : s.idex = some d)
    (hw : s.WriteBackReady) (hop : s.operands d = .ok (a, b)) (hi : d.instr = i)
    (hx : operationOf i ⟨d, a, b⟩ = .ok (ExecuteIn.jump ⟨d, a, b⟩ link target)) :
    ∃ t, exec i s = .next t ∧ t.ExMemBuilt d (some link) none none ∧ s.AroundExecute t ∧ s.RedirectedTo t target := by
  obtain ⟨t, ht, he, haround, hto⟩ := exec_redirects hd hw hop hi hx rfl rfl
  exact ⟨t, ht, ⟨_, he, rfl, rfl, rfl, rfl, rfl, rfl, rfl, rfl, rfl⟩, haround, hto⟩

end Sys2Proof.Machine

namespace Sys2Proof.Proofs

open Sys2Proof.Machine

/-- Settles O9: BEQ's condition holds on equal values and BNE's on different ones, so `exec_branch_redirects` says what the cycle
does. -/
theorem takenBranchesRedirect : Obligations.TakenBranchesRedirect := by
  intro s d rs1 rs2 imm hd hw
  constructor
  · intro hi heq
    exact exec_branch_redirects hd hw (operands_of_branch s hi (.inl rfl)) hi rfl (beq_iff_eq.2 heq)
  · intro hi hne
    exact exec_branch_redirects hd hw (operands_of_branch s hi (.inr rfl)) hi rfl (bne_iff_ne.2 hne)

/-- Settles O10: the conditions of O9 fail here, so `exec_branch_completes` says what the cycle does. -/
theorem untakenBranchesFallThrough : Obligations.UntakenBranchesFallThrough := by
  intro s d rs1 rs2 imm hd hw hr
  constructor
  · intro hi hne
    exact exec_branch_completes hd hw (operands_of_branch s hi (.inl rfl)) hr hi rfl (beq_eq_false_iff_ne.2 hne)
  · intro hi heq
    exact exec_branch_completes hd hw (operands_of_branch s hi (.inr rfl)) hr hi rfl (bne_eq_false_iff_eq.2 heq)

/-- Settles O11: both jumps leave the same link, and `exec_jump_redirects` takes each to its own target. -/
theorem jumpsLinkAndRedirect : Obligations.JumpsLinkAndRedirect := by
  intro s d rd rs1 imm a b hd hw hop
  constructor <;> exact fun hi => exec_jump_redirects hd hw hop hi rfl

end Sys2Proof.Proofs
end

