-- ==== Sys2Proof/Proofs/ControlUnit.lean ====
section
/-! PROOF. The control unit (45_control_unit.md): x0 is never supplied (O22), the load-use stall (O23), the forward selects (O30) and
why they change nothing inside the block (O32, O33). -/

namespace Sys2Proof.Machine

/-! ### Register x0 (R174) -/

/-- Index 0 matches no producer. -/
@[simp] theorem fwdSrc_zero (p : Option ExMem) (m : Option MemWb) : fwdSrc p m 0#6 = .none := by simp [fwdSrc]

/-! ### The load-use stall (R175, R176) -/

/-- A register other than x0 is the index of a source field exactly when the field is present and holds it (R84). -/
theorem eq_srcIdx_iff {r : RegIdx} (h0 : r ≠ 0#6) (f : Opt RegIdx) : r = srcIdx f ↔ f.present = true ∧ r = f.value := by
  cases hf : f.present <;> simp [srcIdx, hf, h0]

/-- The load-use hazard in terms of the record's present source fields. -/
theorem loadUse_iff_present (f : Option IfId) (o : Option IdEx) :
    loadUse f o = true ↔ ∃ d g, o = some d ∧ f = some g ∧ d.op = .load ∧ d.rd.value ≠ 0#6 ∧
      ((g.record.rs1.present = true ∧ d.rd.value = g.record.rs1.value) ∨
        (g.record.rs2.present = true ∧ d.rd.value = g.record.rs2.value)) := by
  rw [loadUse_iff]
  constructor
  · rintro ⟨d, g, hd, hg, hop, h0, hsrc⟩
    exact ⟨d, g, hd, hg, hop, h0, hsrc.imp (eq_srcIdx_iff h0 _).1 (eq_srcIdx_iff h0 _).1⟩
  · rintro ⟨d, g, hd, hg, hop, h0, hsrc⟩
    exact ⟨d, g, hd, hg, hop, h0, hsrc.imp (eq_srcIdx_iff h0 _).2 (eq_srcIdx_iff h0 _).2⟩

/-- The instruction in ID/EX goes on to `EXMEM'` (R198). -/
theorem executedNow_op {s : State} {x : Executed} {d : IdEx} (hx : s.executedNow = .ok x) (hd : s.idex = some d) :
    ∃ p, x.exmem = some p ∧ p.op = d.op := by
  obtain ⟨hn, -⟩ | ⟨d', a, b, hd', -, ho⟩ := executedNow_ok hx
  · simp [hn] at hd
  · obtain rfl : d' = d := by simpa [hd'] using hd
    obtain ⟨p, hp, hop, -⟩ := operationOf_ok ho
    exact ⟨p, hp, hop⟩

/-! ### The forward selects (R171 to R173) -/

/-- FROM_EX_MEM is selected exactly when EX/MEM holds a forwarding producer of the register. -/
theorem fwdSrc_eq_fromExMem_iff (p : Option ExMem) (m : Option MemWb) (r : RegIdx) :
    fwdSrc p m r = .fromExMem ↔ r ≠ 0#6 ∧ ∃ y, p = some y ∧ y.op.fwdWriter = true ∧ y.rd.value = r := by
  constructor
  · intro h
    obtain ⟨hn, -⟩ | ⟨y, hy, h0, hw, hrd, -⟩ | ⟨z, v, -, -, -, -, -, hm, -⟩ := fwdSrc_cases p m r
    · simp [hn] at h
    · exact ⟨h0, y, hy, hw, hrd⟩
    · simp [hm] at h
  · rintro ⟨h0, y, rfl, hw, hrd⟩
    simp [fwdSrc, h0, hw, hrd]

/-- FROM_MEM_WB is selected exactly when EX/MEM holds no forwarding producer of the register and `MEMWB'` holds one with a write
value. -/
theorem fwdSrc_eq_fromMemWb_iff (p : Option ExMem) (m : Option MemWb) (r : RegIdx) :
    fwdSrc p m r = .fromMemWb ↔
      r ≠ 0#6 ∧ (¬ ∃ y, p = some y ∧ y.op.fwdWriter = true ∧ y.rd.value = r) ∧
        ∃ z, m = some z ∧ z.op.fwdWriter = true ∧ z.rd.value = r ∧ z.writeValue ≠ none := by
  constructor
  · intro h
    obtain ⟨hn, -⟩ | ⟨y, -, -, -, -, he⟩ | ⟨z, v, hz, h0, hw, hrd, hv, -, hno⟩ := fwdSrc_cases p m r
    · simp [hn] at h
    · simp [he] at h
    · exact ⟨h0, fun ⟨y, hy, hyw, hyrd⟩ => hno y hy hyw hyrd, z, hz, hw, hrd, by simp [hv]⟩
  · rintro ⟨h0, hno, z, rfl, hw, hrd, hv⟩
    have hp : p.any (fun y => y.op.fwdWriter && y.rd.value == r) = false := by
      rw [Option.any_eq_false]
      exact fun y hy => Bool.eq_false_iff.2 fun hmatch => hno ⟨y, hy, by simpa using hmatch⟩
    simp [fwdSrc, h0, hp, hw, hrd, Option.isSome_iff_ne_none, hv]

/-- USES_RS2 (R172), listed. -/
theorem Op.usesRs2_iff_mem (o : Op) :
    o.usesRs2 = true ↔ o ∈ [Op.add, .sub, .and, .or, .xor, .store, .beq, .bne] := by
  cases o <;> decide

/-- An empty ID/EX selects nothing for either operand (R170). -/
theorem signals_forward_of_none {s : State} (h : s.idex = none) :
    s.signals.forwardA = .none ∧ s.signals.forwardB = .none := by
  simp [State.signals, computeSignals, forwardA, forwardB, h]

/-- The select of the first operand (R171). -/
theorem signals_forwardA {s : State} {d : IdEx} (h : s.idex = some d) :
    s.signals.forwardA = fwdSrc s.exmem s.memwbNext d.rs1 := by
  simp [State.signals, computeSignals, forwardA, h]

/-- The select of the second operand (R172). -/
theorem signals_forwardB {s : State} {d : IdEx} (h : s.idex = some d) :
    s.signals.forwardB = if d.op.usesRs2 then fwdSrc s.exmem s.memwbNext d.rs2 else .none := by
  simp [State.signals, computeSignals, forwardB, h]

/-! ### The override changes nothing (R179, R180) -/

/-- Under the invariants a forwarding producer in EX/MEM other than a LOAD has its write value there (R37, R198). -/
theorem State.Inv.writeValue_of_producer {s : State} (hinv : s.Inv) {p : ExMem} (hp : s.exmem = some p)
    (hw : p.op.fwdWriter = true) (hl : p.op ≠ .load) : ∃ v, p.writeValue = some v := by
  obtain ⟨-, hres⟩ := hinv.exmem_done p hp
  have hwr := Op.writesRF_of_fwdWriter hw
  exact Option.ne_none_iff_exists'.1 (ExMem.writeValue_ne_none hwr hl (hres hwr hl))

/-- What the multiplexer supplies for a source is the value captured for it, if no LOAD in EX/MEM writes the source and any other
producer there wrote that value. -/
theorem forwardMux_fwdSrc {s : State} (hinv : s.Inv) (d : IdEx) {r : RegIdx} {v0 : Word}
    (hload : ∀ p, s.exmem = some p → p.op = .load → p.rd.value ≠ 0#6 → r ≠ p.rd.value)
    (hcap : ∀ p v, s.exmem = some p → p.writeValue = some v → p.rd.value ≠ 0#6 → r = p.rd.value → v0 = v) :
    forwardMux s.exmem s.memwbNext d v0 (fwdSrc s.exmem s.memwbNext r) = .ok v0 := by
  obtain ⟨hsel, -⟩ | ⟨p, hp, h0, hw, rfl, hsel⟩ | ⟨_, _, -, -, -, -, -, hsel, -⟩ := fwdSrc_cases s.exmem s.memwbNext r
  · rw [hsel]
    rfl
  · obtain ⟨v, hv⟩ := hinv.writeValue_of_producer hp hw fun hop => hload p hp hop h0 rfl
    obtain rfl := hcap p v hp hv h0 rfl
    rw [hsel]
    simp [forwardMux, hp, hv, forwarded]
  · exact absurd hsel (fwdSrc_image s r)

/-- If both multiplexers supply the captured values, those are the operands of any operation; a branch takes them anyway (R196). -/
theorem selectOperands_of_mux {selA selB : Forward} {p : Option ExMem} {m : Option MemWb} {d : IdEx}
    (ha : forwardMux p m d d.rs1Val selA = .ok d.rs1Val) (hb : forwardMux p m d d.rs2Val selB = .ok d.rs2Val) :
    selectOperands selA selB p m d = .ok (d.rs1Val, d.rs2Val) := by
  unfold selectOperands
  split
  · rfl
  · simp only [ha, hb]

end Sys2Proof.Machine

namespace Sys2Proof.Proofs

open Sys2Proof.Machine

/-- Settles O22: the forward select tests for index 0 first, and decode resolves index 0 to 0. -/
theorem zeroRegisterNeverLeaks : Obligations.ZeroRegisterNeverLeaks := by
  refine ⟨fwdSrc_zero, fun s t d hr h hd => ?_⟩
  obtain ⟨regs, x, o, -, -, ho, rfl⟩ := cycle_next (step_running hr ▸ h)
  obtain rfl : o = some d := hd
  obtain ⟨g, -, -, -, -, -, h1, h2⟩ := decoded_some ho
  exact ⟨resolve_zero_value h1, resolve_zero_value h2, regRead_zero _⟩

/-- Settles O23: a cycle with a hazard takes no transfer, so the stall holds the front end and empties ID/EX, and without an
instruction there no hazard is left. -/
theorem loadUseStallLastsOneCycle : Obligations.LoadUseStallLastsOneCycle := by
  refine ⟨fun s => ⟨loadUse_iff_present .., rfl, rfl, rfl⟩, fun s t hr hlu h => ?_⟩
  obtain ⟨regs, x, o, -, hx, ho, rfl⟩ := cycle_next (step_running hr ▸ h)
  obtain ⟨hstall, -⟩ := completed_frontAdvanced (regs := regs) (not_taken_of_loadUse hx hlu) ho
  obtain ⟨hifid, hpc, hex, hidex⟩ := hstall hlu
  obtain ⟨d, g, hd, -, hop, -⟩ := (loadUse_iff ..).1 hlu
  obtain ⟨p, hp, hpop⟩ := executedNow_op hx hd
  exact ⟨hidex, hifid, hpc, hex, by rw [hidex, loadUse_none_right], p, hp, hpop.trans hop⟩

/-- Settles O30: one equivalence per select, and the signals are that select of the latch's own source indices. -/
theorem forwardSelectFollowsItsRule : Obligations.ForwardSelectFollowsItsRule := by
  refine ⟨fun p m r => ⟨fwdSrc_eq_fromExMem_iff p m r, fwdSrc_eq_fromMemWb_iff p m r⟩,
    fun s => ⟨signals_forward_of_none, fun d hd => ⟨signals_forwardA hd, fun hop => ?_, fun hop => ?_⟩⟩, rfl, rfl, rfl⟩
  · rw [signals_forwardB hd, if_pos ((Op.usesRs2_iff_mem _).2 hop)]
  · rw [signals_forwardB hd, if_neg ((Op.usesRs2_iff_mem _).not.2 hop)]

/-- Settles O32: `MEMWB'` is the image of EX/MEM, so its test cannot pass where the one of EX/MEM fails (`fwdSrc_image`). -/
theorem forwardingFromMemWbNeverSelected : Obligations.ForwardingFromMemWbNeverSelected := by
  intro s
  cases hd : s.idex with
  | none =>
    obtain ⟨ha, hb⟩ := signals_forward_of_none hd
    simp [ha, hb]
  | some d =>
    rw [signals_forwardA hd, signals_forwardB hd]
    refine ⟨fwdSrc_image s d.rs1, ?_⟩
    split
    · exact fwdSrc_image s d.rs2
    · simp

/-- Settles O33: `forwardMux_fwdSrc` for each source, with the invariants `load_apart` and `captured`. -/
theorem forwardingNeverChangesAnOperand : Obligations.ForwardingNeverChangesAnOperand := by
  intro s d hinv hd
  apply selectOperands_of_mux
  · rw [signals_forwardA hd]
    exact forwardMux_fwdSrc hinv d (fun p hp hop h0 => (hinv.load_apart p d hp hd hop h0).1)
      fun p v hp hv h0 => (hinv.captured p d v hp hd hv h0).1
  · rw [signals_forwardB hd]
    split
    · exact forwardMux_fwdSrc hinv d (fun p hp hop h0 => (hinv.load_apart p d hp hd hop h0).2)
        fun p v hp hv h0 => (hinv.captured p d v hp hd hv h0).2
    · rfl

end Sys2Proof.Proofs
end

