-- ==== Sys2Proof/Proofs/WriteBackAndMemory.lean ====
section
/-! PROOF. The two stages behind execute (46_stages.md sections 5 and 6): write-back and its frame (O15, O25) and the memory stage
(O26). Both read the state at the start of the cycle, so what executes in the cycle has no say in them. -/

namespace Sys2Proof.Machine

/-! ### The surroundings of execute -/

/-- A cycle that completes has written back and passed the memory stage, whatever execute made of ID/EX. -/
theorem cycle_around {ex : Except FatalError Executed} {s t : State} (h : cycle ex s = .next t) : s.AroundExecute t := by
  obtain ⟨regs, x, o, hw, -, -, rfl⟩ := cycle_next h
  exact completed_around hw x o

/-- The latch in ID/EX is no part of the surroundings. -/
theorem State.AroundExecute.of_presenting {s t : State} {d : IdEx} (h : (s.presenting d).AroundExecute t) :
    s.AroundExecute t where
  regs := h.regs
  mem := h.mem
  memwb := h.memwb
  prog := h.prog
  cycleCount := h.cycleCount
  halted := h.halted

theorem exec_around {i : Instr} {s t : State} (h : exec i s = .next t) : s.AroundExecute t := by
  obtain ⟨d, -, hc⟩ := exec_next h
  exact (cycle_around hc).of_presenting

theorem step_around {s t : State} (hr : s.Running) (h : step s = .next t) : s.AroundExecute t :=
  cycle_around (step_running hr ▸ h)

/-! ### Write-back (R203) -/

/-- Write-back leaves every register but the destination of a writing instruction in MEM/WB. -/
theorem regRead_writeBack_ne {regs regs' : RegFile} {m : Option MemWb} {r : RegIdx} (h : writeBack regs m = .ok regs')
    (hr : ∀ l, m = some l → l.op.writesRF = true → l.rd.value ≠ r) : regRead regs' r = regRead regs r := by
  obtain ⟨rfl, -⟩ | ⟨l, v, hm, hop, -, hw⟩ := writeBack_cases h
  · rfl
  · rw [regRead_regWrite hw, if_neg fun he => hr l hm hop he.1.symm]

/-- Write-back of a writing instruction writes its write value to its destination, and nothing for x0. -/
theorem regRead_writeBack_writer {regs regs' : RegFile} {l : MemWb} (h : writeBack regs (some l) = .ok regs')
    (hop : l.op.writesRF = true) :
    ∃ v, l.writeValue = some v ∧
      ∀ r, regRead regs' r = if r = l.rd.value ∧ r ≠ 0#6 then some v else regRead regs r := by
  obtain ⟨-, hno⟩ | ⟨l', v, hl, -, hv, hw⟩ := writeBack_cases h
  · simp [hno l rfl] at hop
  · cases hl
    refine ⟨v, hv, fun r => (regRead_regWrite hw r).trans (if_congr (and_congr_right ?_) rfl rfl)⟩
    rintro rfl
    rfl

/-- Write-back without a writing instruction leaves the register file. -/
theorem writeBack_of_no_writer {regs : RegFile} {m : Option MemWb} (h : ∀ l, m = some l → l.op.writesRF = false) :
    writeBack regs m = .ok regs := by
  cases m with
  | none => rfl
  | some l => simp [writeBack, h l rfl]

/-- A writing instruction without its write value is an error, whatever its destination. -/
theorem writeBack_missing (regs : RegFile) {l : MemWb} (hop : l.op.writesRF = true) (hv : l.writeValue = none) :
    writeBack regs (some l) = .error (.missingWriteValue l.pc l.op .writeBack) := by
  simp [writeBack, writeBackLatch, hop, hv]

/-- A destination above 31 is an error of an instruction that has its write value. -/
theorem writeBack_outOfRange (regs : RegFile) {l : MemWb} {v : Word} (hop : l.op.writesRF = true)
    (hv : l.writeValue = some v) (hrd : 31 < l.rd.value.toNat) :
    writeBack regs (some l) = .error (.outOfRange l.rd.value .write l.pc) := by
  simp [writeBack, writeBackLatch, hop, hv, (regWrite_eq_none_iff regs l.rd.value v).2 hrd]

/-- An error of write-back ends the step before anything else of the cycle (R265). -/
theorem step_of_writeBack_error {s : State} {l : MemWb} {e : FatalError} (hr : s.Running) (hl : s.memwb = some l)
    (hw : writeBack s.regs (some l) = .error e) : step s = .fault (e.fault ⟨s.regs, s.mem⟩) := by
  rw [step_running hr, cycle, hl, hw]
  rfl

/-! ### The memory stage (R201) -/

/-- A write maps its cell, with a value of 0 too (R62). -/
theorem lookup_memWrite_self (m : Memory) (a v : Word) : (memWrite m a v).lookup a.toNat = some v := by
  rw [memWrite, lookup_insert, if_pos rfl]

end Sys2Proof.Machine

namespace Sys2Proof.Proofs

open Sys2Proof.Machine

/-- Settles O15: the registers after the cycle are those of its write-back, whatever executes. -/
theorem executingChangesNoOtherRegister : Obligations.ExecutingChangesNoOtherRegister := by
  intro i s t h
  have ha := exec_around h
  exact ⟨fun r hr => regRead_writeBack_ne ha.regs hr, ha.prog⟩

/-- Settles O25: a completed step has the registers of its write-back, and an error of write-back is the step's. -/
theorem writeBackFollowsItsRule : Obligations.WriteBackFollowsItsRule := by
  intro s hr
  refine ⟨fun t h => ?_, fun l hl hop => ⟨fun hv => ?_, fun v hv hrd => ?_⟩⟩
  · have hw := (step_around hr h).regs
    refine ⟨fun l hl hop => regRead_writeBack_writer (hl ▸ hw) hop, fun hno => ?_⟩
    simpa [writeBack_of_no_writer hno, eq_comm] using hw
  · exact step_of_writeBack_error hr hl (writeBack_missing s.regs hop hv)
  · exact step_of_writeBack_error hr hl (writeBack_outOfRange s.regs hop hv hrd)

/-- Settles O26: a completed step has passed the memory stage, which changes the memory only for a STORE. -/
theorem memoryStageAccesses : Obligations.MemoryStageAccesses := by
  intro s t hr h
  obtain ⟨hempty, himage⟩ := (step_around hr h).memwb
  refine ⟨fun p hp => ⟨himage p hp, fun hop => ?_, fun hop => ?_⟩, fun hp => ⟨?_, hempty hp⟩⟩
  · rw [step_mem_store h hr.2 hp hop]
    exact ⟨fun a => by simp only [memRead_memWrite, eq_comm], lookup_memWrite_self ..⟩
  · exact step_mem_of_no_store h (by simpa [hp] using hop)
  · exact step_mem_of_no_store h (by simp [hp])

end Sys2Proof.Proofs
end

