-- ==== Sys2Proof/Proofs/ExecuteStage.lean ====
section
/-! PROOF. Execute (46_stages.md section 4): the step runs the instruction that ID/EX carries (O17), what it leaves in EX/MEM (O13)
and the operands it runs on (O31). -/

namespace Sys2Proof.Machine

/-! ### The instruction that ID/EX carries -/

/-- The operation of the instruction read back from a latch is the one put there, though the source presence bits of an
unsupported record are lost in between (R34). -/
theorem operationOf_instr_withInstr (d : IdEx) (i : Instr) : operationOf (d.withInstr i).instr = operationOf i := by
  cases i
  case unsupported tag _ _ _ _ => cases tag <;> rfl
  all_goals rfl

/-- The meaning of an instruction that ID/EX carries is the cycle of the state. -/
theorem exec_carried {s : State} {d : IdEx} {i : Instr} (hd : s.idex = some d) (hi : d.withInstr i = d) :
    exec i s = cycle s.executedNow s := by
  have hop : operationOf i = operationOf d.instr := by rw [← operationOf_instr_withInstr d i, hi]
  rw [← exec_self hd, exec_eq, exec_eq, executeCycle, executeCycle, standing_of hd hi, standing_self hd, hop]

/-- With its operands selected, an instruction that ID/EX carries and that completes leaves in EX/MEM what its operation makes of
them. -/
theorem exec_exmem {s t : State} {d : IdEx} {i : Instr} {a b : Word} (hd : s.idex = some d) (hi : d.withInstr i = d)
    (hop : s.operands d = .ok (a, b)) (h : exec i s = .next t) :
    ∃ x, operationOf i ⟨d, a, b⟩ = .ok x ∧ t.exmem = x.exmem := by
  rw [exec_carried hd hi] at h
  obtain ⟨regs, x, o, -, hx, -, rfl⟩ := cycle_next h
  rw [executedNow_eq hd hop, ← hi, operationOf_instr_withInstr, hi] at hx
  exact ⟨x, hx, rfl⟩

/-! ### What execute adds to EX/MEM (R198) -/

/-- What an ALU operation leaves in EX/MEM: its result alone. -/
theorem exMemBuilt_of_result {t : State} {x : ExecuteIn} {v : Word} (h : t.exmem = (x.result v).exmem) :
    t.ExMemBuilt x.latch (some v) none none :=
  ⟨_, h, rfl, rfl, rfl, rfl, rfl, rfl, rfl, rfl, rfl⟩

/-- What a jump leaves in EX/MEM: its link alone. -/
theorem exMemBuilt_of_jump {t : State} {x : ExecuteIn} {link target : Word}
    (h : t.exmem = (x.jump link target).exmem) : t.ExMemBuilt x.latch (some link) none none :=
  ⟨_, h, rfl, rfl, rfl, rfl, rfl, rfl, rfl, rfl, rfl⟩

/-! ### The forwarding multiplexer (R196) -/

/-- The write value of EX/MEM is the result of a register-writing instruction other than a LOAD (R37). -/
theorem ExMem.writeValue_eq_some_iff {p : ExMem} {v : Word} :
    p.writeValue = some v ↔ p.op.writesRF = true ∧ p.op ≠ .load ∧ p.aluResult.toOption = some v := by
  unfold ExMem.writeValue
  split <;> simp_all

@[simp] theorem forwarded_ok_iff {d : IdEx} {o : Option Word} {v : Word} : forwarded d o = .ok v ↔ o = some v := by
  cases o <;> simp [forwarded]

@[simp] theorem forwarded_error_iff {d : IdEx} {o : Option Word} {e : FatalError} :
    forwarded d o = .error e ↔ o = none ∧ e = .missingWriteValue d.pc d.op .executeForward := by
  cases o <;> simp [forwarded, eq_comm]

/-- The multiplexer answers exactly what its select supplies. -/
theorem forwardMux_ok_iff (s : State) (d : IdEx) (v0 : Word) (sel : Forward) (v : Word) :
    forwardMux s.exmem s.memwbNext d v0 sel = .ok v ↔ s.Supplies v0 sel v := by
  cases sel with
  | none => simp [forwardMux, State.Supplies, eq_comm]
  | fromExMem => simp [forwardMux, State.Supplies, Option.bind_eq_some_iff, ExMem.writeValue_eq_some_iff]
  | fromMemWb => simp [forwardMux, State.Supplies, Option.bind_eq_some_iff]

/-- The one error of the multiplexer names the consumer. -/
theorem forwardMux_error {exmem : Option ExMem} {m : Option MemWb} {d : IdEx} {v0 : Word} {sel : Forward} {e : FatalError}
    (h : forwardMux exmem m d v0 sel = .error e) : e = .missingWriteValue d.pc d.op .executeForward := by
  cases sel with
  | none => cases h
  | fromExMem | fromMemWb => exact (forwarded_error_iff.1 h).2

/-- The one error of operand selection names the consumer. -/
theorem operands_error {s : State} {d : IdEx} {e : FatalError} (h : s.operands d = .error e) :
    e = .missingWriteValue d.pc d.op .executeForward := by
  unfold State.operands selectOperands at h
  split at h
  · cases h
  split at h
  · rename_i ha
    cases h
    exact forwardMux_error ha
  split at h
  · rename_i hb
    cases h
    exact forwardMux_error hb
  · cases h

/-- An operation other than BEQ and BNE executes exactly on what the two selects supply. -/
theorem operands_ok_iff {s : State} {d : IdEx} (hbeq : d.op ≠ .beq) (hbne : d.op ≠ .bne) (a b : Word) :
    s.operands d = .ok (a, b) ↔
      s.Supplies d.rs1Val s.signals.forwardA a ∧ s.Supplies d.rs2Val s.signals.forwardB b := by
  simp only [State.operands, selectOperands, hbeq, hbne, or_self, ↓reduceIte, ← forwardMux_ok_iff s d]
  cases forwardMux s.exmem s.memwbNext d d.rs1Val s.signals.forwardA with
  | error e => simp
  | ok v => cases forwardMux s.exmem s.memwbNext d d.rs2Val s.signals.forwardB <;> simp

/-- Where a select supplies nothing, operand selection is MissingWriteValue at execute. -/
theorem operands_of_not_supplied {s : State} {d : IdEx} (hbeq : d.op ≠ .beq) (hbne : d.op ≠ .bne)
    (h : (¬ ∃ a, s.Supplies d.rs1Val s.signals.forwardA a) ∨ ¬ ∃ b, s.Supplies d.rs2Val s.signals.forwardB b) :
    s.operands d = .error (.missingWriteValue d.pc d.op .executeForward) := by
  cases hop : s.operands d with
  | error e => rw [operands_error hop]
  | ok ab =>
    obtain ⟨ha, hb⟩ := (operands_ok_iff hbeq hbne ab.1 ab.2).1 hop
    exact absurd h (not_or.2 ⟨not_not.2 ⟨_, ha⟩, not_not.2 ⟨_, hb⟩⟩)

/-- An error of operand selection ends the step with the write-back and the memory access of the cycle done (R265, R266). -/
theorem step_of_operands_error {s : State} {d : IdEx} {e : FatalError} {regs : RegFile} (hr : s.Running)
    (hd : s.idex = some d) (hop : s.operands d = .error e) (hw : writeBack s.regs s.memwb = .ok regs) :
    step s = .fault (e.fault ⟨regs, memoryEffect s.mem s.exmem⟩) := by
  rw [step_running hr, State.executedNow, hd]
  simp only [executed_some hd, hop, cycle, hw]
  rfl

end Sys2Proof.Machine

namespace Sys2Proof.Proofs

open Sys2Proof.Machine

/-- Settles O17: both sides are the cycle of the state. -/
theorem stepRunsTheInstructionInExecute : Obligations.StepRunsTheInstructionInExecute := by
  intro s hr
  refine ⟨fun d i hd hi => (step_running hr).trans (exec_carried hd hi).symm, fun hd => ?_⟩
  rw [step_running hr, State.executedNow, hd]
  rfl

/-- Settles O13: EX/MEM holds what the operation of the instruction makes of the selected operands, one form of R198's table for
each operation. -/
theorem exMemBuildFollowsItsTable : Obligations.ExMemBuildFollowsItsTable := by
  intro s t d i a b hd hi hop h
  obtain ⟨x, hx, he⟩ := exec_exmem hd hi hop h
  cases i <;> cases hx
  case load => exact exMemBuilt_of_loadFrom he
  case store => exact exMemBuilt_of_storeTo he
  case beq | bne => exact exMemBuilt_of_branch he
  case jal | jalr => exact exMemBuilt_of_jump he
  all_goals exact exMemBuilt_of_result he

/-- Settles O31: the multiplexer answers what its select supplies, and a step with no operands stops in execute. -/
theorem forwardingMultiplexerSupplies : Obligations.ForwardingMultiplexerSupplies := by
  refine fun s d hd => ⟨fun hb => ?_, fun hbeq hbne => ⟨operands_ok_iff hbeq hbne, fun hno => ?_⟩⟩
  · exact operands_of_branch s rfl (d.instr_op.symm ▸ hb)
  · have hop := operands_of_not_supplied hbeq hbne hno
    exact ⟨hop, fun regs hr hw => step_of_operands_error hr hd hop hw⟩

end Sys2Proof.Proofs
end

