-- ==== Sys2Proof/Proofs/FrontEnd.lean ====
section
/-! PROOF. The front end (46_stages.md sections 2 and 3): where fetch reads in every cycle (O19) and what decode puts into ID/EX
(O21). -/

namespace Sys2Proof.Machine

/-! ### The target of a taken transfer -/

/-- A taken transfer goes to `pc + imm`, that of JALR to the sum of the first operand and `imm` with bit 0 cleared (R141 to
R144). -/
theorem operationOf_target {d : IdEx} {a b : Word} {x : Executed} (h : operationOf d.instr ⟨d, a, b⟩ = .ok x)
    (ht : x.taken = true) :
    ∃ tr, x.transfer = some tr ∧ tr.taken = true ∧
      tr.nextPc = if d.op = .jalr then registerTarget a d.imm.value else relativeTarget d.pc d.imm.value := by
  obtain ⟨op, rd, rs1, rs2, v1, v2, imm, pc⟩ := d
  cases op <;> cases h
  case beq | bne => exact ⟨_, rfl, ht, if_pos ht⟩
  case jal | jalr => exact ⟨_, rfl, rfl, rfl⟩
  all_goals cases ht

/-! ### Decode -/

/-- Decode leaves ID/EX empty with an empty IF/ID, a taken transfer or a load-use stall (R193, R234). -/
theorem decoded_empty {s : State} {x : Executed} {regs : RegFile} {o : Option IdEx} (ho : s.decoded x regs = .ok o)
    (h : s.ifid = none ∨ x.taken = true ∨ loadUse s.ifid s.idex = true) : o = none := by
  cases o with
  | none => rfl
  | some d =>
    obtain ⟨g, hlu, ht, hf, -⟩ := decoded_some ho
    rw [hlu, ht, hf] at h
    simp at h

/-- With a record in IF/ID and neither a taken transfer nor a load-use stall decode runs: it copies the record's fields and
resolves its two sources (R191). -/
theorem decoded_runs {s : State} {x : Executed} {regs : RegFile} {o : Option IdEx} {f : IfId}
    (ho : s.decoded x regs = .ok o) (ht : x.taken = false) (hlu : loadUse s.ifid s.idex = false) (hf : s.ifid = some f) :
    ∃ v1 v2, resolve x.exmem s.exmem s.memwbNext regs f.pc (srcIdx f.record.rs1) = .ok v1 ∧
      resolve x.exmem s.exmem s.memwbNext regs f.pc (srcIdx f.record.rs2) = .ok v2 ∧
      o = some { op := f.record.op, rd := f.record.rd, rs1 := srcIdx f.record.rs1, rs2 := srcIdx f.record.rs2,
                 rs1Val := v1, rs2Val := v2, imm := f.record.imm, pc := f.pc } := by
  rw [State.decoded, front_not_taken ht, signals_bubble, hlu, hf] at ho
  obtain ⟨h | h, -⟩ | ⟨g, v1, v2, -, hg, h1, h2, ho⟩ := decodeStage_cases ho
  · cases h
  · cases h
  · cases hg
    exact ⟨v1, v2, h1, h2, ho⟩

/-- What a source resolves to in a completed cycle is the value of the bypass rule (R192). -/
theorem sourceValue_of_resolve {s : State} {x : Executed} {regs : RegFile} {o : Option IdEx} {pc v : Word} {r : RegIdx}
    (h : resolve x.exmem s.exmem s.memwbNext regs pc r = .ok v) : s.SourceValue (s.completed regs x o) r v := by
  refine ⟨resolve_zero_value h, fun h0 => ?_⟩
  obtain ⟨c, hc, -, hcw, hv⟩ | ⟨hno, hprev⟩ := resolve_cases h
  · have hval := bypassed_ok_iff.1 hv.symm
    refine ⟨fun c' hc' _ => ?_, fun hfree => ?_⟩
    · obtain rfl : c = c' := by simpa [hc] using hc'
      exact hval
    · simp [hfree c hc] at hcw
  · refine ⟨fun c hc hcw => ?_, fun _ => ?_⟩
    · simp [hno c hc h0] at hcw
    obtain ⟨p, hp, -, hpw, hv⟩ | ⟨hnone, hv⟩ := hprev
    · have hval := bypassed_ok_iff.1 hv.symm
      rw [State.memwbNext, hp] at hval
      refine ⟨fun p' hp' _ => ?_, fun hfree => ?_⟩
      · obtain rfl : p = p' := by simpa [hp] using hp'
        exact hval
      · simp [hfree p hp] at hpw
    · refine ⟨fun p hp hpw => ?_, fun _ => readSource_ok_iff.1 hv.symm⟩
      simp [hnone p hp h0] at hpw

end Sys2Proof.Machine

namespace Sys2Proof.Proofs

open Sys2Proof.Machine

/-- Settles O19: a cycle without a taken transfer advances the front end, and one with a taken transfer fetches its target. -/
theorem fetchFollowsItsRule : Obligations.FetchFollowsItsRule := by
  intro s t hr h
  obtain ⟨regs, x, o, -, hx, ho, rfl⟩ := cycle_next (step_running hr ▸ h)
  have htaken := executedNow_taken hx
  refine ⟨fun hred => completed_frontAdvanced (htaken.trans hred) ho, fun d hd htakes => ?_⟩
  have ht : x.taken = true := by rw [htaken, State.redirects, hd, Option.any_some, htakes]
  obtain ⟨hn, -⟩ | ⟨d', a, b, hd', hop, hx'⟩ := executedNow_ok hx
  · simp [hn] at hd
  obtain rfl : d' = d := by simpa [hd'] using hd
  obtain ⟨tr, htr, htt, htarget⟩ := operationOf_target hx' ht
  obtain rfl := decoded_empty ho (.inr (.inl ht))
  refine ⟨tr.nextPc, completed_redirectedTo hx htr htt regs, fun hj => ?_, fun hj a' b' hop' => ?_⟩
  · rw [htarget, if_neg hj, relativeTarget]
  · obtain ⟨rfl, rfl⟩ : a = a' ∧ b = b' := by simpa [hop] using hop'
    rw [htarget, if_pos hj, registerTarget]

/-- Settles O21: decode leaves ID/EX empty in the three cases, and otherwise resolves both sources by the bypass rule. -/
theorem decodeResolvesSources : Obligations.DecodeResolvesSources := by
  intro s t hr h
  obtain ⟨regs, x, o, -, hx, ho, rfl⟩ := cycle_next (step_running hr ▸ h)
  rw [← executedNow_taken hx]
  refine ⟨decoded_empty ho, fun ht hlu f hf => ?_⟩
  obtain ⟨v1, v2, h1, h2, rfl⟩ := decoded_runs ho ht hlu hf
  exact ⟨_, rfl, rfl, rfl, rfl, rfl, rfl, rfl, sourceValue_of_resolve h1, sourceValue_of_resolve h2⟩

end Sys2Proof.Proofs
end

