-- ==== Sys2Proof/Proofs/RunCalls.lean ====
section
/-! PROOF. The run call (47_orchestrator.md section 3): when it stops (O49), the single step (O48), and that a call which stops
earlier and one which resumes its snapshot end as one call does (O47); with the count of completed cycles (O35) and the drain
check (O34) of section 2. -/

namespace Sys2Proof.Machine

/-! ### The count and the drain check (R236, R237) -/

/-- A step of a state that is not halted counts one cycle (R237). -/
theorem step_cycleCount {s t : State} (h : step s = .next t) (hh : s.halted = false) :
    t.cycleCount = s.cycleCount + 1 :=
  (step_around ⟨(step_next h).1, hh⟩ h).cycleCount

/-- A step of a halted state answers that state (R230). -/
theorem step_of_halted {s t : State} (h : step s = .next t) (hh : s.halted = true) : t = s := by
  obtain ⟨-, ⟨-, rfl⟩ | ⟨hrun, -⟩⟩ := step_next h
  · rfl
  · simp [hh] at hrun

/-! ### The loop of a call (R238, R239) -/

/-- A call bounded by `m` runs no cycle from here: halted, or `cycle_count` at or beyond the bound (R239). -/
def State.Stopped (m : Nat) (s : State) : Prop := s.halted = true ∨ m ≤ s.cycleCount

theorem State.not_stopped_iff {m : Nat} {s : State} : ¬ s.Stopped m ↔ s.halted = false ∧ s.cycleCount < m := by
  simp [State.Stopped]

/-- The block's test of whether a call goes on (R248) is that of the call's loop. -/
theorem callGoesOn_eq_false_iff {s : State} {w : Word} : s.callGoesOn w = false ↔ s.Stopped w.toNat := by
  cases hh : s.halted <;> simp [State.callGoesOn, State.Stopped, hh]

theorem callFrom_of_stopped {m : Nat} {s : State} (h : s.Stopped m) : callFrom m s = .next s := by
  obtain hh | hc := h
  · cases hf : m - s.cycleCount <;> simp [callFrom, hf, runLoop, hh]
  · simp [callFrom, Nat.sub_eq_zero_of_le hc, runLoop]

section round
variable {m : Nat} {s : State}

/-- The rounds left to a loop that goes on: this one, and those left after a counted cycle. -/
theorem rounds_of_not_stopped (hs : ¬ s.Stopped m) : m - s.cycleCount = m - (s.cycleCount + 1) + 1 := by
  obtain ⟨-, hc⟩ := State.not_stopped_iff.1 hs
  omega

theorem callFrom_of_next {s' : State} (hs : ¬ s.Stopped m) (h : step s = .next s') : callFrom m s = callFrom m s' := by
  obtain ⟨hh, hc⟩ := State.not_stopped_iff.1 hs
  rw [callFrom, rounds_of_not_stopped hs, callFrom, step_cycleCount h hh]
  simp [runLoop, hh, hc, h]

/-- A raise or a refusal of the step is the outcome of the loop (R265). -/
theorem callFrom_of_no_next (hs : ¬ s.Stopped m) (h : ∀ s', step s ≠ .next s') : callFrom m s = step s := by
  obtain ⟨hh, hc⟩ := State.not_stopped_iff.1 hs
  rw [callFrom, rounds_of_not_stopped hs]
  cases hstep : step s with
  | next s' => exact absurd hstep (h s')
  | fault f => simp [runLoop, hh, hc, hstep]
  | refused r => simp [runLoop, hh, hc, hstep]

end round

/-- The induction over the cycles of a call that ends in `t`: at the end nothing is left to run, and every other state takes a
step. -/
theorem callFrom_induction {m : Nat} {t : State} {motive : State → Prop} (stop : t.Stopped m → motive t)
    (round : ∀ s s' : State, ¬ s.Stopped m → step s = .next s' → callFrom m s' = .next t → motive s' → motive s)
    {s : State} (h : callFrom m s = .next t) : motive s := by
  by_cases hs : s.Stopped m
  · rw [callFrom_of_stopped hs] at h
    cases h
    exact stop hs
  · by_cases hnext : ∃ s', step s = .next s'
    · obtain ⟨s', hstep⟩ := hnext
      obtain ⟨hh, hc⟩ := State.not_stopped_iff.1 hs
      have hcount := step_cycleCount hstep hh
      have hrest := callFrom_of_next hs hstep ▸ h
      exact round s s' hs hstep hrest (callFrom_induction stop round hrest)
    · exact absurd ⟨t, callFrom_of_no_next hs (not_exists.1 hnext) ▸ h⟩ hnext
termination_by m - s.cycleCount
decreasing_by omega

/-- What every step keeps, a call keeps. -/
theorem callFrom_keeps {P : State → Prop} (hP : ∀ s s' : State, P s → step s = .next s' → P s') {m : Nat} {s t : State}
    (h : callFrom m s = .next t) (hs : P s) : P t :=
  callFrom_induction (motive := fun s => P s → P t) (fun _ ht => ht) (fun _ _ _ hstep _ ih hs => ih (hP _ _ hs hstep)) h hs

/-- A call ends halted or at the bound, or where it began if that is beyond the bound (R239). -/
theorem callFrom_ends {m : Nat} {s t : State} (h : callFrom m s = .next t) :
    t.cycleCount ≤ max m s.cycleCount ∧ (t.halted = true ∨ t.cycleCount = max m s.cycleCount) := by
  refine callFrom_induction
    (motive := fun s => t.cycleCount ≤ max m s.cycleCount ∧ (t.halted = true ∨ t.cycleCount = max m s.cycleCount))
    (fun ht => ⟨le_max_right .., ht.imp_right fun hle => (max_eq_right hle).symm⟩) (fun s s' hs hstep _ ih => ?_) h
  obtain ⟨hh, hc⟩ := State.not_stopped_iff.1 hs
  have hmax : max m s'.cycleCount = max m s.cycleCount := by
    rw [step_cycleCount hstep hh]
    omega
  rwa [hmax] at ih

theorem State.Stopped.mono {k n : Nat} (hk : k ≤ n) {s : State} (h : s.Stopped n) : s.Stopped k :=
  h.imp_right hk.trans

/-- A call passes through the state in which a call with a smaller bound ends (R242). -/
theorem callFrom_split {k n : Nat} (hk : k ≤ n) {s t : State} (h : callFrom n s = .next t) :
    ∃ u, callFrom k s = .next u ∧ callFrom n u = .next t := by
  refine callFrom_induction (motive := fun s => ∃ u, callFrom k s = .next u ∧ callFrom n u = .next t)
    (fun ht => ⟨t, callFrom_of_stopped (ht.mono hk), callFrom_of_stopped ht⟩) (fun s s' hs hstep hrest ih => ?_) h
  by_cases hsk : s.Stopped k
  · exact ⟨s, callFrom_of_stopped hsk, (callFrom_of_next hs hstep).trans hrest⟩
  · rwa [callFrom_of_next hsk hstep]

/-! ### The call (R238, R243) -/

/-- The state a call begins from: fresh, or restored (R43, R243). -/
def callStart (prog : List PackedWord) (rf : RegFile) (mem : Memory) : Option Resume → State
  | none => State.fresh prog rf mem
  | some r => State.restored prog rf mem r.snapshot

/-- A call that is not refused is the loop from its start, for any bound. -/
theorem run_eq_callFrom {prog : List PackedWord} (hp : programDefect prog = none) {resume : Option Resume}
    (hr : ∀ r, resume = some r → r.prog = prog) (rf : RegFile) (mem : Memory) (m : Nat) :
    run prog rf mem m resume = callFrom m (callStart prog rf mem resume) := by
  cases resume with
  | none => simp [run, hp, callStart]
  | some r => simp [run, hp, callStart, hr r rfl]

/-- What `run` tests before it runs anything: the program's records (R88), and that a resumed program is the same (R246). -/
theorem run_next {prog : List PackedWord} {rf : RegFile} {mem : Memory} {m : Nat} {resume : Option Resume} {t : State}
    (h : run prog rf mem m resume = .next t) :
    programDefect prog = none ∧ ∀ r, resume = some r → r.prog = prog := by
  cases hp : programDefect prog with
  | some q =>
    rw [run_malformed hp] at h
    cases h
  | none =>
    refine ⟨rfl, ?_⟩
    rintro r rfl
    by_contra hne
    simp [run, hp, hne] at h

/-- What holds of every state of a call: the program is the call's, the log is empty (R238) and x0's place holds 0 (R8, R21). -/
structure State.InCall (prog : List PackedWord) (s : State) : Prop where
  prog : s.prog = prog
  log : s.log = []
  x0 : s.regs[0] = 0#64

theorem callStart_inCall (prog : List PackedWord) (rf : RegFile) (mem : Memory) (resume : Option Resume) :
    (callStart prog rf mem resume).InCall prog := by
  cases resume <;> exact ⟨rfl, rfl, supplied_x0 rf⟩

theorem step_keeps_inCall {prog : List PackedWord} {s s' : State} (hs : s.InCall prog) (h : step s = .next s') :
    s'.InCall prog := by
  obtain ⟨-, ⟨-, rfl⟩ | ⟨-, regs, x, o, hw, -, -, rfl⟩⟩ := step_next h
  · exact hs
  · exact ⟨hs.prog, hs.log, (writeBack_x0 hw).trans hs.x0⟩

/-- The call that resumes a call's own snapshot, registers and memory begins from the state in which that call ended. -/
theorem callStart_of_inCall {prog : List PackedWord} {s : State} (h : s.InCall prog) :
    callStart prog s.regs s.mem (some ⟨s.snapshot, prog⟩) = s := by
  obtain ⟨rfl, hlog, hx0⟩ := h
  rw [callStart, restored_snapshot s (supplied_of_x0 hx0), ← hlog]

end Sys2Proof.Machine

namespace Sys2Proof.Proofs

open Sys2Proof.Machine

/-- Settles O47: a call passes through the end of the shorter one (`callFrom_split`), and to resume that end is to start from it
(`callStart_of_inCall`). -/
theorem resumedCallsEndAsOneCall : Obligations.ResumedCallsEndAsOneCall := by
  intro prog rf mem resume k n t hk h
  obtain ⟨hp, hr⟩ := run_next h
  rw [run_eq_callFrom hp hr] at h
  obtain ⟨u, hu, ht⟩ := callFrom_split hk h
  have hcall := callFrom_keeps (fun _ _ => step_keeps_inCall) hu (callStart_inCall prog rf mem resume)
  refine ⟨u, t, (run_eq_callFrom hp hr rf mem k).trans hu, ?_, rfl⟩
  rwa [run_eq_callFrom hp (by simp), callStart_of_inCall hcall]

/-- Settles O48: the bound leaves one round, and after its cycle the count is at the bound. -/
theorem singleStepCallRunsOneCycle : Obligations.SingleStepCallRunsOneCycle := by
  intro prog rf mem snap hh
  cases hp : programDefect prog with
  | some q => rw [run_malformed hp, step_malformed hp]
  | none =>
    rw [run_eq_callFrom hp (by simp), callStart]
    have hgo : ¬ (State.restored prog rf mem snap).Stopped (snap.cycleCount + 1) :=
      State.not_stopped_iff.2 ⟨hh, Nat.lt_succ_self _⟩
    by_cases hnext : ∃ t, step (State.restored prog rf mem snap) = .next t
    · obtain ⟨t, hstep⟩ := hnext
      rw [callFrom_of_next hgo hstep, hstep]
      exact callFrom_of_stopped (.inr (step_cycleCount hstep hh).ge)
    · exact callFrom_of_no_next hgo (not_exists.1 hnext)

/-- Settles O49: a loop ends halted or at the bound (`callFrom_ends`), and one that is stopped where it begins runs no cycle. -/
theorem callStopsAtTheBoundOrHalted : Obligations.CallStopsAtTheBoundOrHalted := by
  refine ⟨fun prog rf mem m t h => ?_, fun prog rf mem m snap t h => ?_, fun prog rf mem m snap hp hstop => ?_⟩
  · obtain ⟨hp, hr⟩ := run_next h
    rw [run_eq_callFrom hp hr] at h
    simpa [callStart] using callFrom_ends h
  · obtain ⟨hp, hr⟩ := run_next h
    rw [run_eq_callFrom hp hr] at h
    exact callFrom_ends h
  · rw [run_eq_callFrom hp (by simp)]
    exact callFrom_of_stopped hstop.symm

/-- Settles O34: `halted` after a cycle is the drain check on what the cycle produced. -/
theorem drainCheckDecidesHalted : Obligations.DrainCheckDecidesHalted := by
  intro s t hr h
  rw [(step_around hr h).halted, drained_iff]
  tauto

/-- Settles O35: a cycle counts one, and a halted state stays. -/
theorem cycleCountCountsCompletedCycles : Obligations.CycleCountCountsCompletedCycles :=
  ⟨fun _ _ h => ⟨step_cycleCount h, step_of_halted h⟩, fun _ _ _ _ => ⟨rfl, rfl⟩⟩

end Sys2Proof.Proofs
end

