-- ==== Sys2Proof/Proofs/BlockPorts.lean ====
section
/-! PROOF. The block at its ports (47_orchestrator.md section 4): what a busy block drives on the data port (O28) and on the
instruction port (O29), and that a call at the ports ends as the call of the host interface does (O52). -/

namespace Sys2Proof.Machine

/-! ### What a fault reports and leaves (R265) -/

@[simp] theorem FatalError.fault_info (left : Remains) (e : FatalError) : (e.fault left).info = e := by
  cases e <;> rfl

@[simp] theorem FatalError.fault_remains (left : Remains) (e : FatalError) : (e.fault left).remains = left := by
  cases e <;> rfl

/-- A fault of write-back leaves registers and memory as they were, a later one what write-back and the memory stage made of them
(R265, R266). -/
theorem step_fault_remains {s : State} {f : Fault} (h : step s = .fault f) :
    (∃ e, writeBack s.regs s.memwb = .error e ∧ f.remains = ⟨s.regs, s.mem⟩) ∨
      ∃ regs, writeBack s.regs s.memwb = .ok regs ∧ f.remains = ⟨regs, memoryEffect s.mem s.exmem⟩ := by
  obtain ⟨e, hw, rfl⟩ | ⟨regs, hw, ⟨e, -, rfl⟩ | ⟨x, e, -, -, rfl⟩⟩ := cycle_fault (step_fault h).2
  · exact .inl ⟨e, hw, FatalError.fault_remains ..⟩
  all_goals exact .inr ⟨regs, hw, FatalError.fault_remains ..⟩

/-! ### The edges of a call (R248, R249) -/

/-- An edge that a busy block does not refuse is a cycle: the host does nothing during a call (R245, R248). -/
theorem edge_of_busy {b b' : Block} {p : PortsIn} (hb : b.busy = true) (h : b.edge p = .next b') :
    b.cycled = .next b' := by
  simp only [Block.edge, hb, ↓reduceIte] at h
  split at h
  · cases h
  · exact h

/-- Everything an edge of a busy block registers: the state after the cycle, or what a fault leaves. -/
theorem cycled_next {b b' : Block} (h : b.cycled = .next b') :
    (∃ t, step b.core = .next t ∧ b' = b.running t) ∨
      ∃ f, step b.core = .fault f ∧
        b' = { b with core := { b.core with regs := f.remains.regs, mem := f.remains.mem }, busy := false,
                      fault := some f.info } := by
  unfold Block.cycled at h
  cases hstep : step b.core with
  | next t => exact .inl ⟨t, rfl, by simpa [hstep, eq_comm] using h⟩
  | fault f => exact .inr ⟨f, rfl, by simpa [hstep, eq_comm] using h⟩
  | refused r => simp [hstep] at h

/-- The memory after an edge of a busy block: as it was where write-back raises, else that of the memory stage, whether the cycle
completes or faults. -/
theorem cycled_mem {b b' : Block} (hr : b.core.Running) (h : b.cycled = .next b') :
    (∃ e, writeBack b.core.regs b.core.memwb = .error e ∧ b'.core.mem = b.core.mem) ∨
      ∃ regs, writeBack b.core.regs b.core.memwb = .ok regs ∧
        b'.core.mem = memoryEffect b.core.mem b.core.exmem := by
  obtain ⟨t, hstep, rfl⟩ | ⟨f, hstep, rfl⟩ := cycled_next h
  · have ha := step_around hr hstep
    exact .inr ⟨t.regs, ha.regs, ha.mem⟩
  · obtain ⟨e, hw, hrem⟩ | ⟨regs, hw, hrem⟩ := step_fault_remains hstep
    · exact .inl ⟨e, hw, congrArg Remains.mem hrem⟩
    · exact .inr ⟨regs, hw, congrArg Remains.mem hrem⟩

section quiet
variable {p : PortsIn} (hstart : p.start = false) (hwe : p.rfHostWe = false)
include hstart hwe

/-- Edges without host activity leave an idle block as it is (R275). -/
theorem edges_of_idle {b : Block} (hb : b.busy = false) (n : Nat) : Block.edges p n b = .next b := by
  induction n with
  | zero => rfl
  | succ n ih => simpa [Block.edges, Block.edge, Block.idle, hb, hstart, hwe] using ih

/-- The first edge of a busy block without host activity is its cycle. -/
theorem edges_of_busy {b b'' : Block} (hb : b.busy = true) {n : Nat} (h : Block.edges p (n + 1) b = .next b'') :
    ∃ b', b.cycled = .next b' ∧ Block.edges p n b' = .next b'' := by
  simp only [Block.edges, Block.edge, hb, hstart, hwe, Bool.or_self, Bool.false_eq_true, ↓reduceIte] at h
  cases hc : b.cycled with
  | next b' => exact ⟨b', rfl, by simpa [hc] using h⟩
  | fault f => simp [hc] at h
  | refused r => simp [hc] at h

end quiet

/-- How a call that the block has ended shows in the outcome of the call's loop: the state the block holds, or the fault at its
outputs with the registers and the memory the block holds. -/
def Block.Reports (b : Block) (r : StepResult) : Prop :=
  (b.fault = none → r = .next b.core) ∧
    ∀ e, b.fault = some e → ∃ f, r = .fault f ∧ f.info = e ∧ f.remains = ⟨b.core.regs, b.core.mem⟩

/-- A call that ended without a fault, with `busy` as its state and bound have it, has nothing left to run. -/
theorem reports_of_ended {b : Block} (hbusy : b.busy = b.core.callGoesOn b.maxCycles) (hfault : b.fault = none)
    (hend : b.busy = false) : b.Reports (callFrom b.maxCycles.toNat b.core) :=
  ⟨fun _ => callFrom_of_stopped (callGoesOn_eq_false_iff.1 (hbusy.symm.trans hend)), by simp [hfault]⟩

/-- A block in a call, with `busy` as its state and bound have it, ends the call as the loop from its state ends (R248, R265). -/
theorem edges_report {p : PortsIn} (hstart : p.start = false) (hwe : p.rfHostWe = false) {n : Nat} {b b'' : Block}
    (hbusy : b.busy = b.core.callGoesOn b.maxCycles) (hfault : b.fault = none) (h : Block.edges p n b = .next b'')
    (hend : b''.busy = false) : b''.Reports (callFrom b.maxCycles.toNat b.core) := by
  induction n generalizing b with
  | zero =>
    cases h
    exact reports_of_ended hbusy hfault hend
  | succ n ih =>
    cases hb : b.busy with
    | false =>
      rw [edges_of_idle hstart hwe hb] at h
      cases h
      exact reports_of_ended hbusy hfault hb
    | true =>
      have hs : ¬ b.core.Stopped b.maxCycles.toNat := by
        rw [← callGoesOn_eq_false_iff, ← hbusy, hb]
        simp
      obtain ⟨b', hc, hrest⟩ := edges_of_busy hstart hwe hb h
      obtain ⟨t, hstep, rfl⟩ | ⟨f, hstep, rfl⟩ := cycled_next hc
      · rw [callFrom_of_next hs hstep]
        exact ih (b := b.running t) rfl hfault hrest
      · rw [edges_of_idle hstart hwe rfl] at hrest
        cases hrest
        rw [callFrom_of_no_next hs (by simp [hstep]), hstep]
        exact ⟨by simp, fun e he => ⟨f, rfl, by simpa using he, rfl⟩⟩

/-- What a `start` pulse at an idle block registers: the state the call begins from (R249). -/
theorem edge_start {b b' : Block} {p : PortsIn} (hb : b.busy = false) (hp : p.start = true) (h : b.edge p = .next b') :
    programDefect b.core.prog = none ∧
      b'.core = callStart b.core.prog b.core.regs b.core.mem
        (if p.resume then some ⟨p.snapIn, b.core.prog⟩ else none) ∧
      b'.busy = b'.core.callGoesOn b'.maxCycles ∧ b'.maxCycles = p.maxCycles ∧ b'.fault = none := by
  simp only [Block.edge, hb, hp, Bool.false_eq_true, ↓reduceIte, Block.started] at h
  cases hd : programDefect b.core.prog with
  | some q => simp [hd] at h
  | none =>
    simp only [hd, Host.Outcome.next.injEq] at h
    subst h
    refine ⟨rfl, ?_, rfl, rfl, rfl⟩
    cases p.resume <;> rfl

/-! ### The instruction port (R249, R190) -/

/-- Fetching goes on after step 5 of a cycle whose fetch was not exhausted, and of one that takes a transfer (R233). -/
theorem front_fetching {s : State} {x : Executed} (h : s.fetchExhausted = false ∨ x.taken = true) :
    (s.front x).fetchExhausted = false := by
  cases ht : x.taken with
  | false => simpa [front_not_taken ht, ht] using h
  | true =>
    cases htr : x.transfer with
    | none => simp [Executed.taken, htr] at ht
    | some tr => rw [front_taken htr (by simpa [Executed.taken, htr] using ht)]

/-- Below N the port carries the record of the slot (R249). -/
theorem imemData_of_slot (b : Block) {addr : Word} {w : PackedWord} (h : b.core.prog[addr.toNat]? = some w) :
    b.imemData addr = w := by
  simp [Block.imemData, h]

end Sys2Proof.Machine

namespace Sys2Proof.Proofs

open Sys2Proof.Machine

/-- Settles O28: the port shows the write of the memory stage, or nothing where write-back raises and the memory stage does not
run. -/
theorem dataPortWritesWhatTheEdgeCommits : Obligations.DataPortWritesWhatTheEdgeCommits := by
  intro b b' p hb hr h
  obtain ⟨e, hw, hmem⟩ | ⟨regs, hw, hmem⟩ := cycled_mem hr (edge_of_busy hb h)
  · rw [dmem_of_error hb hw, hw]
    exact ⟨fun _ => ⟨rfl, rfl⟩, fun _ hok => (by cases hok), hmem⟩
  · rw [dmem_of_ok hb hw, hw]
    refine ⟨fun ⟨_, herr⟩ => (by cases herr), fun _ _ => ⟨dmemPort_re_iff _, dmemPort_we_iff _, fun l hl => ?_⟩,
      hmem.trans (memoryEffect_eq_port ..)⟩
    rw [hl]
    exact ⟨rfl, fun _ => rfl⟩

/-- Settles O29: `imem_addr` is the program counter after step 5, where the cycle fetches. -/
theorem instructionPortCarriesTheFetch : Obligations.InstructionPortCarriesTheFetch := by
  intro b t hb hr h hlu hfetch
  obtain ⟨regs, x, o, -, hx, -, rfl⟩ := cycle_next (step_running hr ▸ h)
  have htaken := executedNow_taken hx
  rw [imemAddr_of_ok hb hx]
  obtain ⟨hin, hout⟩ := completed_fetchedAt hlu
    (show b.core.front x = ⟨(b.core.front x).pc, (b.core.front x).ifid, false⟩ by
      rw [← front_fetching (htaken ▸ hfetch)]) regs o
  refine ⟨fun hred => by rw [front_not_taken (htaken.trans hred)], fun hlt => ?_, fun hle => ?_⟩
  · have hslot := List.getElem?_eq_getElem hlt
    obtain ⟨hifid, hpc, -⟩ := hin _ hslot
    exact ⟨by rw [imemData_of_slot b hslot, hifid], hpc⟩
  · exact hout (List.getElem?_eq_none hle)

/-- Settles O52: the pulse registers the call's start, and the edges run the call's loop (`edges_report`). -/
theorem callAtThePortsMatchesRun : Obligations.CallAtThePortsMatchesRun := by
  intro b b' b'' p quiet n resume hb hp _ hstart hwe hres h hedges hend
  obtain ⟨hd, hcore, hbusy, hmax, hfault⟩ := edge_start hb hp h
  have hrun : run b.core.prog b.core.regs b.core.mem p.maxCycles.toNat resume = callFrom b'.maxCycles.toNat b'.core := by
    rw [run_eq_callFrom hd, hcore, hmax, hres]
    intro r hr
    rw [hres] at hr
    split at hr <;> cases hr
    rfl
  obtain ⟨hnext, hflt⟩ := edges_report hstart hwe hbusy hfault hedges hend
  rw [hrun]
  exact ⟨fun hf => ⟨b''.core, hnext hf, rfl⟩, hflt⟩

end Sys2Proof.Proofs
end

