-- ==== Sys2Proof/Proofs/FatalErrors.lean ====
section
/-! PROOF. The fatal errors (60_exceptions.md): the unsupported record in execute (O12), the source above 31 in decode (O39), what
an abort leaves to the host (O40), and that no state meeting the invariants raises MissingWriteValue (O41). -/

namespace Sys2Proof.Machine

/-! ### An error of execute (R262, R266) -/

/-- A cycle whose execute raises stops, whatever write-back does (R265). -/
theorem cycle_error_faults (e : FatalError) (s : State) : ∃ f, cycle (.error e) s = .fault f := by
  unfold cycle
  cases writeBack s.regs s.memwb with
  | error e' => exact ⟨_, rfl⟩
  | ok regs => exact ⟨_, rfl⟩

/-- An error of execute leaves the write-back and the memory access of the cycle done. -/
theorem cycle_of_execute_error {s : State} {regs : RegFile} (hw : writeBack s.regs s.memwb = .ok regs) (e : FatalError) :
    cycle (.error e) s = .fault (e.fault ⟨regs, memoryEffect s.mem s.exmem⟩) := by
  simp only [cycle, hw]
  rfl

/-- An operation that answers no operands makes execute raise: operand selection does, or the operation (R195 to R197). -/
theorem executed_of_raising {s : State} {d : IdEx} {operation : ExecuteIn → Except FatalError Executed}
    (hd : s.idex = some d) (hop : ∀ x, ∃ e, operation x = .error e) : ∃ e, s.executed operation = .error e := by
  rw [executed_some hd]
  cases s.operands d with
  | error e => exact ⟨e, rfl⟩
  | ok ab => exact hop ⟨d, ab.1, ab.2⟩

/-- An instruction whose operation always raises stops the call in every state: where it cannot stand in ID/EX at all, or in the
cycle it stands there. -/
theorem exec_of_raising {i : Instr} (hop : ∀ x, ∃ e, operationOf i x = .error e) (s : State) :
    ∃ f, exec i s = .fault f := by
  rw [exec_eq, executeCycle]
  cases s.standing i with
  | error e => exact ⟨_, rfl⟩
  | ok d =>
    obtain ⟨e, he⟩ := executed_of_raising (presenting_idex s d) hop
    simp only [he]
    exact cycle_error_faults e _

/-- The one error of an operation is UnsupportedOperation, with the tag and the slot of the record in ID/EX (R197). -/
theorem operationOf_error {d : IdEx} {a b : Word} {e : FatalError} (h : operationOf d.instr ⟨d, a, b⟩ = .error e) :
    e = .unsupportedOperation d.op.tag d.pc := by
  obtain ⟨op, rd, rs1, rs2, v1, v2, imm, pc⟩ := d
  cases op <;> cases h <;> rfl

/-! ### An error of decode (R261, R266, R268) -/

/-- Execute answers where ID/EX is empty, or where it holds a supported operation with its operands selected. -/
theorem executedNow_isOk {s : State}
    (h : ∀ d, s.idex = some d → d.op.supported = true ∧ ∃ a b, s.operands d = .ok (a, b)) :
    ∃ x, s.executedNow = .ok x := by
  cases hd : s.idex with
  | none => exact ⟨⟨none, none⟩, by rw [State.executedNow, hd]⟩
  | some d =>
    obtain ⟨hsup, a, b, hop⟩ := h d hd
    rw [executedNow_eq hd hop]
    exact operationOf_isOk (d.instr_op.symm ▸ hsup) _

/-- A source above 31 that no bypass supplies is read from the register file, which does not have it (R192 (c), R22). -/
theorem resolve_of_notBypassed {s : State} {x : Executed} {r : RegIdx} (hx : s.executedNow = .ok x)
    (hno : s.NotBypassed r) (hr : 31 < r.toNat) (regs : RegFile) (pc : Word) :
    resolve x.exmem s.exmem s.memwbNext regs pc r = .error (.outOfRange r .read pc) := by
  obtain ⟨hidex, hexmem⟩ := hno
  obtain ⟨c, hc, -, hcw, -⟩ | ⟨-, ⟨p, hp, -, hpw, -⟩ | ⟨-, hread⟩⟩ :=
    resolve_cases (rfl : resolve x.exmem s.exmem s.memwbNext regs pc r = _)
  · obtain ⟨d, hd, hop, hrd, -⟩ := executedNow_exmem hx hc
    obtain ⟨hw, he⟩ := ExMem.writesReg_iff.1 hcw
    exact absurd ⟨hop ▸ hw, hrd ▸ he⟩ (hidex d hd)
  · simp [hexmem p hp] at hpw
  · rw [hread, readSource_error_iff]
    exact ⟨(regRead_eq_none_iff regs r).2 hr, rfl⟩

/-- A record that decode runs on names no destination of an executing LOAD (R175). -/
theorem sources_ne_of_executing_load {s : State} {f : IfId} (hf : s.ifid = some f) (hlu : loadUse s.ifid s.idex = false)
    (d : IdEx) (hd : s.idex = some d) (hop : d.op = .load) (h0 : d.rd.value ≠ 0#6) :
    srcIdx f.record.rs1 ≠ d.rd.value ∧ srcIdx f.record.rs2 ≠ d.rd.value :=
  sources_ne_of_loadUse_false (by rwa [hf, hd] at hlu) hop h0

/-- With a record in IF/ID and neither a taken transfer nor a load-use stall decode raises the error of its first source, or that
of its second behind a resolved first (R268). -/
theorem decoded_of_resolve_error {s : State} {x : Executed} {regs : RegFile} {f : IfId} {e : FatalError}
    (ht : x.taken = false) (hlu : loadUse s.ifid s.idex = false) (hf : s.ifid = some f)
    (h : resolve x.exmem s.exmem s.memwbNext regs f.pc (srcIdx f.record.rs1) = .error e ∨
      ∃ v, resolve x.exmem s.exmem s.memwbNext regs f.pc (srcIdx f.record.rs1) = .ok v ∧
        resolve x.exmem s.exmem s.memwbNext regs f.pc (srcIdx f.record.rs2) = .error e) :
    s.decoded x regs = .error e := by
  rw [State.decoded, front_not_taken ht, signals_bubble, hlu, hf]
  obtain h1 | ⟨v, h1, h2⟩ := h
  · simp [decodeStage, decodeRecord, h1]
  · simp [decodeStage, decodeRecord, h1, h2]

/-- An error of decode ends the step with the write-back and the memory access of the cycle done (R265, R266). -/
theorem step_of_decode_error {s : State} {x : Executed} {regs : RegFile} {e : FatalError} (hr : s.Running)
    (hw : writeBack s.regs s.memwb = .ok regs) (hx : s.executedNow = .ok x) (hdec : s.decoded x regs = .error e) :
    step s = .fault (e.fault ⟨regs, memoryEffect s.mem s.exmem⟩) := by
  simp only [step_running hr, hx, cycle, hw, hdec]
  rfl

/-! ### The errors a state that meets the invariants can raise (R263) -/

/-- Write-back can raise OutOfRange alone: an instruction in MEM/WB has its write value. -/
theorem State.Inv.outOfRange_of_writeBack_error {s : State} (hinv : s.Inv) {e : FatalError}
    (h : writeBack s.regs s.memwb = .error e) : ∃ l, s.memwb = some l ∧ e = .outOfRange l.rd.value .write l.pc := by
  obtain ⟨l, hl, hop, ⟨hv, -⟩ | ⟨-, -, he⟩⟩ := writeBack_error h
  · obtain ⟨-, hdone⟩ := hinv.memwb_done l hl
    exact absurd hv (hdone hop)
  · exact ⟨l, hl, he⟩

/-- Execute can raise UnsupportedOperation alone: operand selection answers the captured values (R179). -/
theorem State.Inv.unsupported_of_execute_error {s : State} (hinv : s.Inv) {e : FatalError}
    (h : s.executedNow = .error e) : ∃ d, s.idex = some d ∧ e = .unsupportedOperation d.op.tag d.pc := by
  cases hd : s.idex with
  | none => simp [State.executedNow, hd] at h
  | some d =>
    rw [executedNow_eq hd (Proofs.forwardingNeverChangesAnOperand s d hinv hd)] at h
    exact ⟨d, rfl, operationOf_error h⟩

/-- Decode resolves a source other than the destination of an executing LOAD, or the register file does not have it: whatever a
bypass finds has its write value (R198, R200). -/
theorem State.Inv.outOfRange_of_resolve_error {s : State} (hinv : s.Inv) {x : Executed} (hx : s.executedNow = .ok x)
    {r : RegIdx} (hload : ∀ d, s.idex = some d → d.op = .load → d.rd.value ≠ 0#6 → r ≠ d.rd.value) {regs : RegFile}
    {pc : Word} {e : FatalError} (h : resolve x.exmem s.exmem s.memwbNext regs pc r = .error e) :
    e = .outOfRange r .read pc := by
  obtain ⟨c, hc, h0, hcw, he⟩ | ⟨-, ⟨p, hp, -, hpw, he⟩ | ⟨-, he⟩⟩ := resolve_cases h
  · obtain ⟨hw, rfl⟩ := ExMem.writesReg_iff.1 hcw
    obtain ⟨hnone, -⟩ := bypassed_error_iff.1 he.symm
    exact absurd hnone (executedNow_writeValue hx hc (fun d hd hl he => hload d hd hl (he ▸ h0) he.symm) hw)
  · obtain ⟨hw, -⟩ := ExMem.writesReg_iff.1 hpw
    obtain ⟨hnone, -⟩ := bypassed_error_iff.1 he.symm
    obtain ⟨-, hdone⟩ := hinv.exmem_done p hp
    rw [State.memwbNext, hp] at hnone
    exact absurd hnone (memoryImage_writeValue_ne_none s.mem hw (hdone hw))
  · exact (readSource_error_iff.1 he.symm).2

/-- Decode can raise OutOfRange alone. -/
theorem State.Inv.outOfRange_of_decode_error {s : State} (hinv : s.Inv) {x : Executed} (hx : s.executedNow = .ok x)
    {regs : RegFile} {e : FatalError} (h : s.decoded x regs = .error e) : ∃ r pc, e = .outOfRange r .read pc := by
  obtain ⟨g, hlu, hg, herr⟩ := decodeStage_error h
  rw [signals_bubble] at hlu
  obtain ⟨-, hf⟩ := front_ifid_some hg
  have hload := sources_ne_of_executing_load hf hlu
  obtain h1 | ⟨-, -, h2⟩ := herr
  · exact ⟨_, _, hinv.outOfRange_of_resolve_error hx (fun d hd hl h0 => (hload d hd hl h0).1) h1⟩
  · exact ⟨_, _, hinv.outOfRange_of_resolve_error hx (fun d hd hl h0 => (hload d hd hl h0).2) h2⟩

end Sys2Proof.Machine

namespace Sys2Proof.Proofs

open Sys2Proof.Machine

/-- Settles O12: the operation of an unsupported record raises on every input, so execute raises or something before it has. -/
theorem unsupportedRecordFaultsInExecute : Obligations.UnsupportedRecordFaultsInExecute := by
  refine fun s tag rd rs1 rs2 imm => ⟨exec_of_raising (fun _ => ⟨_, rfl⟩) s, fun d a b regs hd hi hop hw => ?_⟩
  rw [exec_carried hd hi, executedNow_eq hd hop, ← hi, operationOf_instr_withInstr, hi]
  exact cycle_of_execute_error hw _

/-- Settles O39: the source is read from a register file that does not have it (`resolve_of_notBypassed`), and nothing before
decode raises. -/
theorem outOfRangeSourceFaultsAtDecode : Obligations.OutOfRangeSourceFaultsAtDecode := by
  intro s f regs r hr hf hlu hred hw hexec hno h31
  obtain ⟨x, hx⟩ := executedNow_isOk hexec
  have ht : x.taken = false := (executedNow_taken hx).trans hred
  have hres := resolve_of_notBypassed hx hno h31 regs f.pc
  have hstop := fun herr => step_of_decode_error hr hw hx
    (decoded_of_resolve_error (e := .outOfRange r .read f.pc) ht hlu hf herr)
  refine ⟨fun h1 => ?_, fun h2 hready => ?_⟩
  · exact hstop (.inl (by rw [h1, hres]))
  · have hload := sources_ne_of_executing_load hf hlu
    obtain ⟨v, hv⟩ := resolve_of_sourceReady hx hready (fun d hd hl h0 => (hload d hd hl h0).1) regs f.pc
    exact hstop (.inr ⟨v, hv, by rw [h2, hres]⟩)

/-- Settles O40: an error of write-back is the step's, and a later one finds write-back and the memory access done. -/
theorem faultLeavesEarlierStepsDone : Obligations.FaultLeavesEarlierStepsDone := by
  refine fun s f h => ⟨fun e he => ?_, fun regs hregs => ?_⟩
  · obtain ⟨l, hl, -⟩ := writeBack_error he
    have hstep := step_of_writeBack_error (step_fault h).1 hl (hl ▸ he)
    obtain rfl : f = e.fault ⟨s.regs, s.mem⟩ := by simpa [h] using hstep
    exact ⟨FatalError.fault_info .., FatalError.fault_remains ..⟩
  · obtain ⟨e, he, -⟩ | ⟨regs', hw, hleft⟩ := step_fault_remains h
    · simp [hregs] at he
    · obtain rfl : regs = regs' := by simpa [hregs] using hw
      exact hleft

/-- Settles O41: under the invariants each step of the cycle that can raise has another error to raise, if any. -/
theorem missingWriteValueIsUnreachable : Obligations.MissingWriteValueIsUnreachable := by
  intro s pc op site left hinv h
  obtain ⟨e, hw, hf⟩ | ⟨regs, -, ⟨e, hx, hf⟩ | ⟨x, e, hx, hdec, hf⟩⟩ := cycle_fault (step_fault h).2
  · obtain ⟨l, -, rfl⟩ := hinv.outOfRange_of_writeBack_error hw
    cases hf
  · obtain ⟨d, -, rfl⟩ := hinv.unsupported_of_execute_error hx
    cases hf
  · obtain ⟨r, pc', rfl⟩ := hinv.outOfRange_of_decode_error hx hdec
    cases hf

end Sys2Proof.Proofs
end

