-- ==== Sys2Proof/Proofs/HazardTiming.lean ====
section
/-! PROOF. The first cycles and the load-use hazard (70_reset_and_hazards.md sections 1 and 2): an empty program halts in cycle 1
(O38), a fetched record is the instruction that executes two cycles later (O18), and the consumer behind a LOAD gets the loaded
value (O24). Its facts about what one step passes from latch to latch serve the halting cycle too. -/

namespace Sys2Proof.Machine

/-! ### What a step passes from latch to latch -/

/-- EX/MEM takes what stood in ID/EX, and MEM/WB what stood in EX/MEM (R198, R200). -/
theorem step_passes_latches {s t : State} (hr : s.Running) (h : step s = .next t) :
    t.exmem.isSome = s.idex.isSome ∧ t.memwb.isSome = s.exmem.isSome := by
  obtain ⟨regs, x, o, -, hx, -, rfl⟩ := cycle_next (step_running hr ▸ h)
  refine ⟨?_, by simp [State.memwbNext]⟩
  obtain ⟨hd, rfl⟩ | ⟨d, a, b, hd, -, hop⟩ := executedNow_ok hx
  · simp [hd]
  · obtain ⟨e, he, -⟩ := operationOf_ok hop
    simp [hd, he]

/-- After a cycle the block runs on, unless the drain check has passed (R236). -/
theorem step_running_of_not_drained {s t : State} (hr : s.Running) (h : step s = .next t)
    (hd : drained t.fetchExhausted t.ifid t.idex t.exmem t.memwb = false) : t.Running := by
  have ha := step_around hr h
  exact ⟨ha.prog ▸ hr.1, ha.halted.trans hd⟩

/-- A record in IF/ID keeps the block running. -/
theorem step_running_of_ifid {s t : State} {f : IfId} (hr : s.Running) (h : step s = .next t) (hf : t.ifid = some f) :
    t.Running :=
  step_running_of_not_drained hr h (by simp [drained, hf])

/-- An instruction in ID/EX keeps the block running. -/
theorem step_running_of_idex {s t : State} {d : IdEx} (hr : s.Running) (h : step s = .next t) (hd : t.idex = some d) :
    t.Running :=
  step_running_of_not_drained hr h (by simp [drained, hd])

theorem redirects_of_idex_none {s : State} (h : s.idex = none) : s.redirects = false := by
  simp [State.redirects, h]

/-! ### The record of a word in ID/EX -/

/-- A latch with the fields that decode takes from a well-shaped record carries the record's instruction: the don't-care bits of
absent fields, which differ from the encoder's, stay as they are (R85, R191). -/
theorem withInstr_of_record {d : IdEx} {r : Record} (hshape : r.wellShaped = true) (hop : d.op = r.op) (hrd : d.rd = r.rd)
    (himm : d.imm = r.imm) (h1 : d.rs1 = srcIdx r.rs1) (h2 : d.rs2 = srcIdx r.rs2) : d.withInstr r.instr = d := by
  obtain ⟨op, ⟨p1, rd⟩, ⟨p2, rs1⟩, ⟨p3, rs2⟩, ⟨p4, imm⟩⟩ := r
  have hp := (Record.wellShaped_iff _).1 hshape
  obtain ⟨dop, drd, drs1, drs2, v1, v2, dimm, pc⟩ := d
  cases hop
  cases hrd
  cases himm
  cases h1
  cases h2
  cases op
  case tag14 | tag15 => cases p1 <;> cases p2 <;> cases p3 <;> cases p4 <;> rfl
  all_goals
    obtain ⟨rfl, rfl, rfl, rfl⟩ := by simpa [Op.shape, Record.presence] using hp
    rfl

/-! ### The LOAD and its consumer -/

/-- A LOAD leaves EX/MEM with its destination and the address it computed (R131, R198). -/
theorem step_exmem_of_load {s t : State} {d : IdEx} {a b : Word} (hr : s.Running) (hd : s.idex = some d)
    (hop : s.operands d = .ok (a, b)) (hl : d.op = .load) (h : step s = .next t) :
    ∃ p, t.exmem = some p ∧ p.op = .load ∧ p.rd = d.rd ∧ p.addr.value = a + d.imm.value := by
  obtain ⟨regs, x, o, -, hx, -, rfl⟩ := cycle_next (step_running hr ▸ h)
  rw [executedNow_eq hd hop] at hx
  simp only [IdEx.instr, hl, operationOf, Except.ok.injEq] at hx
  subst hx
  exact ⟨_, rfl, hl, rfl, rfl⟩

/-- With nothing executed in the cycle, a source that names the destination of the LOAD in EX/MEM resolves to the cell at the
LOAD's address (R192 (b), R200). -/
theorem sourceValue_of_load {s t : State} {p : ExMem} {r : RegIdx} {v : Word} (h : s.SourceValue t r v)
    (hex : t.exmem = none) (hp : s.exmem = some p) (hl : p.op = .load) (hrd : p.rd.value = r) (h0 : r ≠ 0#6) :
    v = memRead s.mem p.addr.value := by
  obtain ⟨-, hprev⟩ := h.2 h0
  obtain ⟨himage, -⟩ := hprev (by simp [hex])
  have hv := himage p hp (ExMem.writesReg_iff.2 ⟨by rw [hl]; rfl, hrd⟩)
  rw [memoryImage_writeValue, if_pos hl] at hv
  exact (Option.some.inj hv).symm

end Sys2Proof.Machine

namespace Sys2Proof.Proofs

open Sys2Proof.Machine

/-- Settles O38: the one cycle fetches nothing and finds the four latches empty. -/
theorem emptyProgramHaltsAtCycleOne : Obligations.EmptyProgramHaltsAtCycleOne :=
  fun _ _ => ⟨_, rfl, rfl, rfl, rfl⟩

/-- Settles O18: the first cycle fetches the record, the second decodes it, and the latch it leaves carries the instruction the
word decodes to. -/
theorem fetchedInstructionReachesExecute : Obligations.FetchedInstructionReachesExecute := by
  intro s t u w i hr hex hw hi hlu hred hst hlu' hred' htu
  obtain ⟨-, -, hfetch⟩ := (fetchFollowsItsRule s t hr hst).1 hred
  obtain ⟨hfetched, -⟩ := hfetch hlu hex
  obtain ⟨hifid, hpc, -⟩ := hfetched w hw
  have hrt : t.Running := step_running_of_ifid hr hst hifid
  obtain ⟨-, hdecode⟩ := decodeResolvesSources t u hrt htu
  obtain ⟨d, hd, hop, hrd, himm, hdpc, h1, h2, -⟩ := hdecode hred' hlu' _ hifid
  obtain ⟨-, hshape, rfl⟩ := (decodeWord_instr_iff w i).1 hi
  have hcarried := withInstr_of_record hshape hop hrd himm h1 h2
  have hru : u.Running := step_running_of_idex hrt htu hd
  exact ⟨hifid, hpc, d, hd, hdpc, hcarried, (stepRunsTheInstructionInExecute u hru).1 d _ hd hcarried⟩

/-- Settles O24: the stall holds the consumer in IF/ID for the cycle in which the LOAD moves to EX/MEM, and the next cycle, which
executes nothing, decodes the consumer beside the LOAD's memory access. -/
theorem consumerGetsTheLoadedValue : Obligations.ConsumerGetsTheLoadedValue := by
  intro s t u d f a b hr hd hf hlu hop hst htu
  obtain ⟨hidex, hifid, -, -, hlu', -⟩ := loadUseStallLastsOneCycle.2 s t hr hlu hst
  rw [hf] at hifid
  obtain ⟨d', -, hd', -, hl, h0, -⟩ := (loadUse_iff ..).1 hlu
  obtain rfl : d = d' := by simpa [hd] using hd'
  obtain ⟨p, hp, hpl, hprd, haddr⟩ := step_exmem_of_load hr hd hop hl hst
  have hrt : t.Running := step_running_of_ifid hr hst hifid
  have hex : u.exmem = none := by simpa [hidex] using (step_passes_latches hrt htu).1
  obtain ⟨-, hdecode⟩ := decodeResolvesSources t u hrt htu
  obtain ⟨e, he, -, -, -, hpc, h1, h2, hv1, hv2⟩ := hdecode (redirects_of_idex_none hidex) hlu' f hifid
  have hloaded : ∀ {r v}, t.SourceValue u r v → r = d.rd.value → v = memRead t.mem (a + d.imm.value) := by
    rintro _ v hv rfl
    rw [← haddr]
    exact sourceValue_of_load hv hex hp hpl (by rw [hprd]) h0
  exact ⟨e, he, hpc, fun hs => hloaded hv1 (h1.trans hs), fun hs => hloaded hv2 (h2.trans hs)⟩

end Sys2Proof.Proofs
end

