-- ==== Sys2Proof/Proofs/HaltingCycle.lean ====
section
/-! PROOF. The halting cycle (70_reset_and_hazards.md section 3, R300; O46). Behind the first two cycles, a cycle that executes
nothing follows a stall or a taken transfer, until the last instruction has executed; then EX/MEM and MEM/WB drain.
`State.OnSchedule` says so of every cycle boundary of a run, counted by its tally. -/

namespace Sys2Proof.Machine

/-! ### The front end, as far as it counts -/

/-- A cycle that fetches leaves `fetch_exhausted` set exactly when it has fetched no record (R190). -/
theorem fetchedAt_exhausted {t : State} {prog : List PackedWord} {pc : Word} (h : t.FetchedAt prog pc) :
    t.fetchExhausted = t.ifid.isNone := by
  obtain ⟨hsome, hnone⟩ := h
  cases hw : prog[pc.toNat]? with
  | some w =>
    obtain ⟨hf, -, hex⟩ := hsome w hw
    rw [hf, hex]
    rfl
  | none =>
    obtain ⟨hf, -, hex⟩ := hnone hw
    rw [hf, hex]
    rfl

/-- A LOAD takes no transfer, so a load-use stall excludes one. -/
theorem redirects_of_loadUse {s : State} (h : loadUse s.ifid s.idex = true) : s.redirects = false := by
  obtain ⟨d, -, hd, -, hl, -⟩ := (loadUse_iff ..).1 h
  simp [State.redirects, hd, IdEx.takes, hl]

/-- Which of the front latches a cycle leaves occupied: a stall holds the record and inserts a bubble; a taken transfer inserts a
bubble behind its fetch; any other cycle moves the record on and fetches, unless fetch is exhausted (R190, R193, R233, R234). -/
theorem step_front {s t : State} (hr : s.Running) (h : step s = .next t) :
    (loadUse s.ifid s.idex = true ∧ s.redirects = false ∧
        t.idex = none ∧ t.ifid = s.ifid ∧ t.fetchExhausted = s.fetchExhausted) ∨
      (loadUse s.ifid s.idex = false ∧ s.redirects = true ∧ t.idex = none ∧ t.fetchExhausted = t.ifid.isNone) ∨
      (loadUse s.ifid s.idex = false ∧ s.redirects = false ∧ t.idex.isSome = s.ifid.isSome ∧
        (s.fetchExhausted = true → t.ifid = none) ∧ t.fetchExhausted = t.ifid.isNone) := by
  obtain ⟨hadvance, hredirect⟩ := Proofs.fetchFollowsItsRule s t hr h
  obtain ⟨hbubble, hdecode⟩ := Proofs.decodeResolvesSources s t hr h
  cases hlu : loadUse s.ifid s.idex with
  | true =>
    have hred := redirects_of_loadUse hlu
    obtain ⟨hstall, -⟩ := hadvance hred
    obtain ⟨hf, -, hex, hd⟩ := hstall hlu
    exact .inl ⟨rfl, hred, hd, hf, hex⟩
  | false =>
    cases hred : s.redirects with
    | true =>
      obtain ⟨d, hd, htakes⟩ := (Option.any_eq_true ..).1 hred
      obtain ⟨target, ⟨hidex, hfetch⟩, -⟩ := hredirect d hd htakes
      exact .inr (.inl ⟨rfl, rfl, hidex, fetchedAt_exhausted hfetch⟩)
    | false =>
      refine .inr (.inr ⟨rfl, rfl, ?_, ?_⟩)
      · cases hf : s.ifid with
        | none => rw [hbubble (.inl hf), Option.isSome_none, Option.isSome_none]
        | some f =>
          obtain ⟨d, hd, -⟩ := hdecode hred hlu f hf
          rw [hd, Option.isSome_some, Option.isSome_some]
      · obtain ⟨-, hdry, hfetch⟩ := hadvance hred
        cases hex : s.fetchExhausted with
        | true =>
          obtain ⟨hf, -, hex'⟩ := hdry hlu hex
          exact ⟨fun _ => hf, by rw [hf, hex', Option.isNone_none]⟩
        | false => exact ⟨fun h => (Bool.false_ne_true h).elim, fetchedAt_exhausted (hfetch hlu hex)⟩

/-! ### The tally of a cycle -/

@[simp] theorem Tally.after_executed (c : Tally) (s : State) :
    (c.after s).executed = c.executed + s.idex.isSome.toNat := rfl

@[simp] theorem Tally.after_stalls (c : Tally) (s : State) :
    (c.after s).stalls = c.stalls + (loadUse s.ifid s.idex).toNat := rfl

@[simp] theorem Tally.after_transfers (c : Tally) (s : State) :
    (c.after s).transfers = c.transfers + s.redirects.toNat := rfl

/-- While an instruction executes, the transfers before it are all those counted so far. -/
theorem Tally.after_transfersBeforeLast_of_some {s : State} {d : IdEx} (h : s.idex = some d) (c : Tally) :
    (c.after s).transfersBeforeLast = c.transfers := by
  simp [Tally.transfersBeforeLast, Tally.after, h]

/-- A cycle that executes nothing leaves the last instruction executed the last. -/
theorem Tally.after_transfersBeforeLast_of_none {s : State} (h : s.idex = none) (c : Tally) :
    (c.after s).transfersBeforeLast = c.transfersBeforeLast := by
  simp [Tally.transfersBeforeLast, Tally.after, h, redirects_of_idex_none h]

/-- Four empty latches add nothing to the tally. -/
theorem Tally.after_of_empty {s : State} (hf : s.ifid = none) (hd : s.idex = none) (hp : s.exmem = none)
    (hl : s.memwb = none) (c : Tally) : c.after s = c := by
  simp [Tally.after, hf, hd, hp, hl, redirects_of_idex_none hd]

/-- What every step keeps of a state and its tally, a tallied run keeps. -/
theorem tallyTo_keeps {P : State → Tally → Prop} (hP : ∀ s t c, P s c → step s = .next t → P t (c.after s)) {n : Nat}
    {s t : State} {c c' : Tally} (h : tallyTo n s c = some (t, c')) (hs : P s c) : P t c' := by
  induction n generalizing s c with
  | zero =>
    cases h
    exact hs
  | succ n ih =>
    unfold tallyTo at h
    split at h
    · exact ih h (hP _ _ _ hs ‹_›)
    · cases h
    · cases h

/-! ### The schedule of a run -/

/-- The cycles that EX/MEM and MEM/WB still need to drain behind an empty front end. -/
def State.drainLeft (s : State) : Nat :=
  if s.exmem.isSome then 2 else if s.memwb.isSome then 1 else 0

/-- Every cycle so far is accounted for: it has executed an instruction or a bubble, and there is a bubble for each of the first two
cycles, for each transfer and for each stall. While ID/EX is empty one of these bubbles is still to come. -/
def State.Accounted (s : State) (c : Tally) : Prop :=
  s.cycleCount = c.executed + c.transfers + c.stalls + s.idex.isSome.toNat + 1

/-- Where a run stands at a cycle boundary, and what its cycle count is then in terms of its tally. -/
inductive State.Phase (s : State) (c : Tally) : Prop
  /-- No cycle has run. -/
  | start (ifid : s.ifid = none) (idex : s.idex = none) (exmem : s.exmem = none) (memwb : s.memwb = none)
      (fetching : s.fetchExhausted = false) (tally : c = Tally.zero) (count : s.cycleCount = 0)
  /-- An instruction waits in IF/ID or ID/EX. -/
  | working (busy : s.ifid ≠ none ∨ s.idex ≠ none) (exhausted : s.fetchExhausted = s.ifid.isNone) (count : s.Accounted c)
  /-- The last instruction has executed; a transfer that it took has cost no cycle. -/
  | draining (ifid : s.ifid = none) (idex : s.idex = none) (exhausted : s.fetchExhausted = true) (executed : 1 ≤ c.executed)
      (count : s.cycleCount + s.drainLeft = c.executed + c.transfersBeforeLast + c.stalls + 4)
  /-- The first cycle has found no instruction. -/
  | nothing (ifid : s.ifid = none) (idex : s.idex = none) (exmem : s.exmem = none) (memwb : s.memwb = none)
      (exhausted : s.fetchExhausted = true) (executed : c.executed = 0) (count : s.cycleCount = 1)

/-- What holds of every cycle boundary of a run from a fresh start: its phase, and that the drain check decides `halted`. -/
structure State.OnSchedule (s : State) (c : Tally) : Prop where
  phase : s.Phase c
  halted : s.halted = drained s.fetchExhausted s.ifid s.idex s.exmem s.memwb

theorem fresh_onSchedule (prog : List PackedWord) (rf : RegFile) (mem : Memory) :
    (State.fresh prog rf mem).OnSchedule Tally.zero :=
  ⟨.start rfl rfl rfl rfl rfl rfl rfl, rfl⟩

section cycle
variable {s t : State} {c : Tally} (hr : s.Running) (h : step s = .next t)
include hr h

/-- The first cycle fetches the first instruction, or finds none. -/
theorem phase_of_start (hf : s.ifid = none) (hd : s.idex = none) (hp : s.exmem = none)
    (hcount : s.cycleCount = 0) : t.Phase (Tally.zero.after s) := by
  have hcycle : t.cycleCount = 1 := by rw [(step_around hr h).cycleCount, hcount]
  have hexec : (Tally.zero.after s).executed = 0 := by simp [hd, Tally.zero]
  obtain ⟨hlu, -⟩ | ⟨-, hred, -⟩ | ⟨hlu, hred, hd', -, hex'⟩ := step_front hr h
  · simp [hf] at hlu
  · simp [redirects_of_idex_none hd] at hred
  have hidex : t.idex = none := by simpa [hf] using hd'
  cases hf' : t.ifid with
  | some f =>
    exact .working (.inl (by simp [hf'])) hex' (by simp [State.Accounted, hcycle, hidex, hd, hred, Tally.zero])
  | none =>
    obtain ⟨hp', hl'⟩ := step_passes_latches hr h
    exact .nothing hf' hidex (by simpa [hd] using hp') (by simpa [hp] using hl') (by simp [hex', hf']) hexec hcycle

/-- The cycle of the last instruction leaves it alone in the latches behind execute, with two cycles to drain. -/
theorem phase_of_last {d : IdEx} (hcount : s.Accounted c) (hd : s.idex = some d) (hlu : loadUse s.ifid s.idex = false)
    (hf' : t.ifid = none) (hd' : t.idex = none) (hex' : t.fetchExhausted = t.ifid.isNone) : t.Phase (c.after s) := by
  obtain ⟨hp', -⟩ := step_passes_latches hr h
  have hleft : t.drainLeft = 2 := by simp [State.drainLeft, hp', hd]
  refine .draining hf' hd' (by simp [hex', hf']) (by simp [hd]) ?_
  rw [(step_around hr h).cycleCount, hcount, hleft, Tally.after_transfersBeforeLast_of_some hd, Tally.after_executed,
    Tally.after_stalls, hlu, hd, Option.isSome_some, Bool.toNat_true, Bool.toNat_false]
  omega

/-- A cycle that decodes an instruction, redirects or stalls keeps the account. -/
theorem accounted_of_one (hcount : s.Accounted c)
    (hone : t.idex.isSome.toNat + s.redirects.toNat + (loadUse s.ifid s.idex).toNat = 1) : t.Accounted (c.after s) := by
  rw [State.Accounted, (step_around hr h).cycleCount, hcount, Tally.after_executed, Tally.after_transfers,
    Tally.after_stalls]
  omega

/-- While instructions wait in front of execute, a cycle stalls, redirects or advances; the last instruction has executed when it
leaves none waiting. -/
theorem phase_of_working (hbusy : s.ifid ≠ none ∨ s.idex ≠ none) (hex : s.fetchExhausted = s.ifid.isNone)
    (hcount : s.Accounted c) : t.Phase (c.after s) := by
  obtain ⟨hlu, hred, hd', hf', hex'⟩ | ⟨hlu, hred, hd', hex'⟩ | ⟨hlu, hred, hd', hdry, hex'⟩ := step_front hr h
  · obtain ⟨d, f, -, hf, -⟩ := (loadUse_iff ..).1 hlu
    exact .working (.inl (by simp [hf', hf])) (by rw [hex', hex, hf']) (accounted_of_one hr h hcount (by simp [hd', hred, hlu]))
  · cases hf' : t.ifid with
    | none =>
      obtain ⟨d, hd, -⟩ := (Option.any_eq_true ..).1 hred
      exact phase_of_last hr h hcount hd hlu hf' hd' hex'
    | some f =>
      exact .working (.inl (by simp [hf'])) hex' (accounted_of_one hr h hcount (by simp [hd', hred, hlu]))
  · cases hf : s.ifid with
    | none =>
      obtain ⟨d, hd⟩ := Option.ne_none_iff_exists'.1 (hbusy.resolve_left fun hne => hne hf)
      exact phase_of_last hr h hcount hd hlu (hdry (by simp [hex, hf])) (by simpa [hf] using hd') hex'
    | some f =>
      rw [hf, Option.isSome_some] at hd'
      have hidex : t.idex ≠ none := by rw [← Option.isSome_iff_ne_none, hd']
      exact .working (.inr hidex) hex' (accounted_of_one hr h hcount (by simp [hd', hred, hlu]))

/-- A cycle behind the last instruction executes nothing and leaves one cycle less to drain. -/
theorem phase_of_draining (hleft : s.drainLeft ≠ 0) (hf : s.ifid = none) (hd : s.idex = none)
    (hex : s.fetchExhausted = true) (hexec : 1 ≤ c.executed)
    (hcount : s.cycleCount + s.drainLeft = c.executed + c.transfersBeforeLast + c.stalls + 4) : t.Phase (c.after s) := by
  obtain ⟨hlu, -⟩ | ⟨-, hred, -⟩ | ⟨-, -, hd', hdry, hex'⟩ := step_front hr h
  · simp [hf] at hlu
  · simp [redirects_of_idex_none hd] at hred
  have hf' := hdry hex
  obtain ⟨hp', hl'⟩ := step_passes_latches hr h
  have hless : s.drainLeft = t.drainLeft + 1 := by
    rw [hd] at hp'
    cases hp : s.exmem <;> cases hl : s.memwb <;> simp_all [State.drainLeft]
  refine .draining hf' (by simpa [hf] using hd') (by simp [hex', hf']) (by simpa [hd] using hexec) ?_
  rw [(step_around hr h).cycleCount, Tally.after_transfersBeforeLast_of_none hd]
  simp only [Tally.after_executed, Tally.after_stalls, hf, hd, loadUse_none_left, Option.isSome_none, Bool.toNat_false]
  omega

end cycle

/-- A halted state has its latches empty, and one with its latches empty and fetch exhausted is halted. -/
theorem State.OnSchedule.halted_iff {s : State} {c : Tally} (hs : s.OnSchedule c) :
    s.halted = true ↔
      s.ifid = none ∧ s.idex = none ∧ s.exmem = none ∧ s.memwb = none ∧ s.fetchExhausted = true := by
  rw [hs.halted, drained_iff]

theorem State.drainLeft_eq_zero_iff (s : State) : s.drainLeft = 0 ↔ s.exmem = none ∧ s.memwb = none := by
  cases hp : s.exmem <;> cases hl : s.memwb <;> simp [State.drainLeft, hp, hl]

/-- A step keeps a run on its schedule: a halted state stays, and otherwise one cycle completes. -/
theorem step_onSchedule (s t : State) (c : Tally) (hs : s.OnSchedule c) (h : step s = .next t) :
    t.OnSchedule (c.after s) := by
  cases hh : s.halted with
  | true =>
    obtain ⟨hf, hd, hp, hl, -⟩ := hs.halted_iff.1 hh
    rwa [step_of_halted h hh, Tally.after_of_empty hf hd hp hl]
  | false =>
    have hr : s.Running := ⟨(step_next h).1, hh⟩
    have hnot := mt hs.halted_iff.2 (Bool.eq_false_iff.1 hh)
    refine ⟨?_, (step_around hr h).halted⟩
    cases hs.phase with
    | start hf hd hp hl hex htally hcount =>
      subst htally
      exact phase_of_start hr h hf hd hp hcount
    | working hbusy hex hcount => exact phase_of_working hr h hbusy hex hcount
    | draining hf hd hex hexec hcount =>
      refine phase_of_draining hr h (fun hzero => ?_) hf hd hex hexec hcount
      obtain ⟨hp, hl⟩ := s.drainLeft_eq_zero_iff.1 hzero
      exact hnot ⟨hf, hd, hp, hl, hex⟩
    | nothing hf hd hp hl hex => exact absurd ⟨hf, hd, hp, hl, hex⟩ hnot

/-- A halted run has executed nothing in its one cycle, or has drained. -/
theorem State.OnSchedule.count_of_halted {s : State} {c : Tally} (hs : s.OnSchedule c) (hh : s.halted = true) :
    (c.executed = 0 ∧ s.cycleCount = 1) ∨
      (1 ≤ c.executed ∧ s.cycleCount = c.executed + c.transfersBeforeLast + c.stalls + 4) := by
  obtain ⟨hf, hd, hp, hl, hex⟩ := hs.halted_iff.1 hh
  cases hs.phase with
  | start _ _ _ _ hfetching => simp [hex] at hfetching
  | working hbusy => simp [hf, hd] at hbusy
  | draining _ _ _ hexec hcount =>
    rw [s.drainLeft_eq_zero_iff.2 ⟨hp, hl⟩] at hcount
    exact .inr ⟨hexec, hcount⟩
  | nothing _ _ _ _ _ hexec hcount => exact .inl ⟨hexec, hcount⟩

end Sys2Proof.Machine

namespace Sys2Proof.Proofs

open Sys2Proof.Machine

/-- Settles O46, by induction on the cycles of the run: every step keeps it on schedule, and halted it has drained. -/
theorem haltingCycleFormula : Obligations.HaltingCycleFormula := by
  intro prog rf mem n t c _ hrun hh
  have hs : t.OnSchedule c := tallyTo_keeps step_onSchedule hrun (fresh_onSchedule prog rf mem)
  obtain ⟨hexec, hcount⟩ | ⟨hexec, hcount⟩ := hs.count_of_halted hh
  · exact ⟨fun _ => hcount, fun hne => by omega⟩
  · exact ⟨fun hzero => by omega, fun _ => hcount⟩

end Sys2Proof.Proofs
end

