-- ==== Sys2Proof/Proofs/RoundTrip.lean ====
section
/-! PROOF. The decoder against the encoder (30_encoding.md section 2): it gives an encoded instruction back (O1), it ignores the bits
of an absent field (O3), and it reads the words of the spec's tables (O4). -/

namespace Sys2Proof

/-! ### The decoder of a packed record (R85, R87) -/

/-- The decoder reads the instruction of a well-shaped record from its packed word. -/
theorem decodeWord_pack {r : Record} (h : r.wellShaped = true) : decodeWord r.pack = .instr r.instr := by
  rw [decodeWord_instr_iff, Record.ofWord_pack]
  exact ⟨r.reservedBits_pack, h, rfl⟩

/-! ### Records that differ in don't-care bits alone (R85) -/

/-- Two records have the same operation, the same fields present and the same values in those. -/
structure Record.SameMeaning (r r' : Record) : Prop where
  op  : r.op = r'.op
  rd  : r.rd.toOption = r'.rd.toOption
  rs1 : r.rs1.toOption = r'.rs1.toOption
  rs2 : r.rs2.toOption = r'.rs2.toOption
  imm : r.imm.toOption = r'.imm.toOption

@[simp] theorem Opt.isSome_toOption {α : Type} (f : Opt α) : f.toOption.isSome = f.present := by
  cases h : f.present <;> simp [Opt.toOption, h]

theorem Record.SameMeaning.presence {r r' : Record} (h : r.SameMeaning r') : r.presence = r'.presence := by
  simp only [Record.presence, ← Opt.isSome_toOption, h.rd, h.rs1, h.rs2, h.imm]

theorem Record.SameMeaning.wellShaped {r r' : Record} (h : r.SameMeaning r') : r.wellShaped = r'.wellShaped := by
  simp only [Record.wellShaped, h.op, h.presence]

/-- Well-shaped records of the same meaning spell the same instruction: the encoder's record of it has 0 in every don't-care bit. -/
theorem Record.SameMeaning.instr {r r' : Record} (h : r.SameMeaning r') (hr : r.wellShaped = true) :
    r.instr = r'.instr := by
  have hrec : r.instr.toRecord = r'.instr.toRecord := by
    rw [Record.instr_toRecord hr, Record.instr_toRecord (h.wellShaped ▸ hr), h.op, h.rd, h.rs1, h.rs2, h.imm]
  rw [← r.instr.toRecord_instr, hrec, Instr.toRecord_instr]

/-- The decoder sees the reserved bits and the meaning of the record, and nothing else of a word. -/
theorem decodeWord_congr {w w' : PackedWord} (hres : reservedBits w = reservedBits w')
    (h : (Record.ofWord w).SameMeaning (Record.ofWord w')) : decodeWord w = decodeWord w' := by
  unfold decodeWord
  rw [← hres, ← h.wellShaped]
  split
  · rfl
  · split
    · rw [h.instr ‹_›]
    · rfl

/-- Two fields with the same presence bit mean the same if their values agree where they are present. -/
theorem Opt.toOption_congr {α : Type} {f g : Opt α} (hp : f.present = g.present)
    (hv : f.present = true → f.value = g.value) : f.toOption = g.toOption := by
  cases hf : f.present with
  | false => simp [Opt.toOption, ← hp, hf]
  | true => simp [Opt.toOption, ← hp, hf, hv hf]

/-- A bit of a word is a bit of any field it lies in. -/
theorem getLsbD_eq_of_extractLsb'_eq {n a k : Nat} {x y : BitVec n} (h : x.extractLsb' 0 k = y.extractLsb' 0 k)
    (ha : a < k) : x.getLsbD a = y.getLsbD a := by
  simpa [ha] using congrArg (BitVec.getLsbD · a) h

/-- The low half of the low byte of a word is the tag. -/
theorem tagBits_eq_of_lowByte_eq {w w' : PackedWord} (h : w.extractLsb' 0 8 = w'.extractLsb' 0 8) :
    w.extractLsb' 0 4 = w'.extractLsb' 0 4 := by
  refine extractLsb'_eq_of_bits fun k hk => ?_
  rw [Nat.zero_add, getLsbD_eq_of_extractLsb'_eq h (by omega)]
  simp [hk]

end Sys2Proof

namespace Sys2Proof.Proofs

/-- Settles O1: the record of an instruction is well-shaped and spells it. -/
theorem decodeOfEncodeIsTheInstruction : Obligations.DecodeOfEncodeIsTheInstruction := by
  intro i
  rw [encode, decodeWord_pack i.toRecord_wellShaped, Instr.toRecord_instr]

/-- Settles O3: the low byte fixes the operation and the presence bits, so the two records have the same meaning. -/
theorem decoderIgnoresDontCareBits : Obligations.DecoderIgnoresDontCareBits := by
  intro w w' hlow hres hrd hrs1 hrs2 himm
  have hbit {a : Nat} (ha : a < 8) : w.getLsbD a = w'.getLsbD a := getLsbD_eq_of_extractLsb'_eq hlow ha
  exact decodeWord_congr hres
    { op := congrArg Op.ofTag (tagBits_eq_of_lowByte_eq hlow)
      rd := Opt.toOption_congr (hbit (by decide)) hrd
      rs1 := Opt.toOption_congr (hbit (by decide)) hrs1
      rs2 := Opt.toOption_congr (hbit (by decide)) hrs2
      imm := Opt.toOption_congr (hbit (by decide)) himm }

/-- Settles O4: the decoder runs on each of the twelve words. -/
theorem specWordsDecode : Obligations.SpecWordsDecode := by
  unfold Obligations.SpecWordsDecode
  decide

end Sys2Proof.Proofs
end

