-- ==== Sys2Proof/Proofs/SequentialStep.lean ====
section
/-! PROOF. One instruction of the sequential reference model (70_reset_and_hazards.md R298) is what the instruction leaves on its way
through execute, the memory stage and write-back (`exec_eq_commit`). For an instruction alone in the pipeline that is O14. -/

namespace Sys2Proof.Machine

/-! ### Leaving the pipeline -/

/-- What an instruction in MEM/WB makes of a state of the reference model: its write-back, the cell that it stores, and the slot
`next`. An empty latch makes nothing. -/
def SeqState.commit (u : SeqState) (m : Option MemWb) (next : Word) : SeqResult :=
  match writeBack u.regs m with
  | .ok regs => .ok ⟨next, regs, memoryEffect u.mem (m.map MemWb.toExMem)⟩
  | .error e => .error e

section commit
variable {u : SeqState} {l : MemWb} {next : Word}

theorem commit_ok_iff {m : Option MemWb} {u' : SeqState} :
    u.commit m next = .ok u' ↔
      u'.pc = next ∧ writeBack u.regs m = .ok u'.regs ∧ u'.mem = memoryEffect u.mem (m.map MemWb.toExMem) := by
  obtain ⟨pc', regs', mem'⟩ := u'
  unfold SeqState.commit
  cases writeBack u.regs m with
  | error e => simp
  | ok regs => simp [eq_comm]

theorem commit_error_iff {m : Option MemWb} {e : FatalError} :
    u.commit m next = .error e ↔ writeBack u.regs m = .error e := by
  unfold SeqState.commit
  cases writeBack u.regs m <;> simp

theorem commit_of_writeBack {m : Option MemWb} {regs : RegFile} (h : writeBack u.regs m = .ok regs) :
    u.commit m next = .ok ⟨next, regs, memoryEffect u.mem (m.map MemWb.toExMem)⟩ :=
  commit_ok_iff.2 ⟨rfl, h, rfl⟩

@[simp] theorem commit_none (u : SeqState) : u.commit none u.pc = .ok u := rfl

/-- A register-writing instruction writes its write value to its destination (R203). -/
theorem commit_of_writer {v : Word} (hw : l.op.writesRF = true) (hv : l.writeValue = some v) (hpc : l.pc = u.pc) :
    u.commit (some l) next = u.write l.rd.value v next := by
  have hstore : l.op ≠ .store := fun h => by simp [h, Op.writesRF] at hw
  simp only [SeqState.commit, SeqState.write, writeBack, writeBackLatch, hw, hv, hpc, ↓reduceIte, Option.map_some,
    memoryEffect, hstore]
  cases regWrite u.regs l.rd.value v <;> rfl

/-- A STORE writes its cell (R201). -/
theorem commit_of_store (hs : l.op = .store) :
    u.commit (some l) next = .ok { u with mem := memWrite u.mem l.addr.value l.storeVal.value, pc := next } := by
  simp [SeqState.commit, writeBack, memoryEffect, hs, Op.writesRF]

/-- Any other instruction leaves registers and memory (R202, R203). -/
theorem commit_of_neither (hw : l.op.writesRF = false) (hs : l.op ≠ .store) :
    u.commit (some l) next = .ok { u with pc := next } := by
  simp [SeqState.commit, writeBack, memoryEffect, hw, hs]

end commit

/-! ### The instruction of the reference model in execute -/

/-- The slot behind an executed instruction at slot `pc`: the transfer's, or the one that follows (R140, R28). -/
def Executed.next (x : Executed) (pc : Word) : Word :=
  match x.transfer with
  | some t => t.nextPc
  | none   => pc + 1#64

theorem Executed.next_of_transfer {x : Executed} {t : Transfer} (h : x.transfer = some t) (pc : Word) :
    x.next pc = t.nextPc := by
  simp [Executed.next, h]

/-- Where no transfer is taken, the next slot is the one that follows. -/
theorem operationOf_next {i : Instr} {x : ExecuteIn} {y : Executed} (h : operationOf i x = .ok y)
    (ht : y.taken = false) : y.next x.pc = x.pc + 1#64 := by
  cases i <;> cases h
  case beq | bne => exact if_neg (Bool.eq_false_iff.1 ht)
  case jal | jalr => cases ht
  all_goals rfl

/-- The case analysis of R298 agrees with the table of R198 and the stages behind execute, instruction by instruction. -/
theorem apply_eq_commit {u : SeqState} {d : IdEx} {i : Instr} {a b : Word} {x : Executed}
    (hx : operationOf i ⟨d.withInstr i, a, b⟩ = .ok x) (hpc : (d.withInstr i).pc = u.pc) :
    u.apply i a b = u.commit (x.exmem.map (memoryImage u.mem)) (x.next u.pc) := by
  symm
  cases i <;> cases hx
  case store => exact commit_of_store rfl
  case beq | bne =>
    refine (commit_of_neither rfl (by simp [memoryImage, IdEx.carried, IdEx.withInstr])).trans ?_
    simp [SeqState.apply, Executed.next, ExecuteIn.branch, ExecuteIn.pc, hpc]
  case jal | jalr | auipc =>
    refine (commit_of_writer rfl rfl hpc).trans ?_
    simp only [ExecuteIn.pc, hpc]
    rfl
  all_goals exact commit_of_writer rfl rfl hpc

/-- An instruction that stands in ID/EX with its operands captured makes of a state of the reference model what it leaves when it has
passed execute, the memory stage and write-back. -/
theorem exec_eq_commit {u : SeqState} {d : IdEx} {i : Instr} {a b : Word} {x : Executed} (hi : d.withInstr i = d)
    (hpc : d.pc = u.pc) (ha : regRead u.regs i.src1 = some a) (hb : regRead u.regs i.src2 = some b)
    (hx : operationOf i ⟨d, a, b⟩ = .ok x) :
    u.exec i = u.commit (x.exmem.map (memoryImage u.mem)) (x.next u.pc) := by
  rw [← apply_eq_commit (d := d) (hi.symm ▸ hx) (hi.symm ▸ hpc), SeqState.exec, ha, hb]

/-! ### An instruction alone in the pipeline -/

/-- With EX/MEM empty nothing is forwarded: the operands are the captured values. -/
theorem operands_of_exmem_none {s : State} {d : IdEx} (hd : s.idex = some d) (hp : s.exmem = none) :
    s.operands d = .ok (d.rs1Val, d.rs2Val) := by
  have hno (r : RegIdx) : fwdSrc s.exmem s.memwbNext r = .none := by simp [fwdSrc, State.memwbNext, hp]
  apply selectOperands_of_mux
  · rw [signals_forwardA hd, hno]
    rfl
  · rw [signals_forwardB hd, hno, ite_self]
    rfl

/-- EX/MEM takes what execute answers. -/
theorem step_exmem {s t : State} {x : Executed} (hr : s.Running) (hx : s.executedNow = .ok x) (h : step s = .next t) :
    t.exmem = x.exmem := by
  obtain ⟨regs, x', o, -, hx', -, rfl⟩ := cycle_next (step_running hr ▸ h)
  obtain rfl : x = x' := by simpa [hx] using hx'
  rfl

/-- `t` comes from `s` with an executed instruction in EX/MEM and no other instruction at or behind execute. -/
structure State.AloneInExMem (s t : State) (e : ExMem) : Prop where
  running : t.Running
  prog    : t.prog = s.prog
  regs    : t.regs = s.regs
  mem     : t.mem = s.mem
  idex    : t.idex = none
  exmem   : t.exmem = some e
  memwb   : t.memwb = none

/-- `t` comes from `s` with an instruction in MEM/WB that has made its memory access, and EX/MEM empty. -/
structure State.AloneInMemWb (s t : State) (l : MemWb) : Prop where
  running : t.Running
  prog    : t.prog = s.prog
  regs    : t.regs = s.regs
  mem     : t.mem = memoryEffect s.mem (some l.toExMem)
  exmem   : t.exmem = none
  memwb   : t.memwb = some l

/-- Write-back leaves the registers of a state with an empty MEM/WB. -/
theorem step_regs_of_memwb_none {s t : State} (hr : s.Running) (h : step s = .next t) (hl : s.memwb = none) :
    t.regs = s.regs := by
  have hw := (step_around hr h).regs
  rw [hl] at hw
  exact (Except.ok.inj hw).symm

theorem aloneInExMem_of_step {s t : State} {x : Executed} {e : ExMem} (hr : s.Running) (hf : s.ifid = none)
    (hp : s.exmem = none) (hl : s.memwb = none) (hx : s.executedNow = .ok x) (he : x.exmem = some e)
    (h : step s = .next t) : s.AloneInExMem t e := by
  obtain ⟨hmem, hmemwb⟩ := step_memory hr h
  have hexmem := (step_exmem hr hx h).trans he
  rw [hp] at hmem hmemwb
  exact ⟨step_running_of_not_drained hr h (by simp [drained, hexmem]), (step_around hr h).prog,
    step_regs_of_memwb_none hr h hl, hmem, (Proofs.decodeResolvesSources s t hr h).1 (.inl hf), hexmem, hmemwb⟩

theorem State.AloneInExMem.aloneInMemWb_of_step {s s' t : State} {e : ExMem} (hs : s.AloneInExMem s' e)
    (h : step s' = .next t) : s.AloneInMemWb t (memoryImage s.mem e) := by
  have hr := hs.running
  obtain ⟨hmem, hmemwb⟩ := step_memory hr h
  obtain ⟨hexmem, -⟩ := step_passes_latches hr h
  rw [hs.exmem, hs.mem] at hmem hmemwb
  exact ⟨step_running_of_not_drained hr h (by simp [drained, hmemwb]), (step_around hr h).prog.trans hs.prog,
    (step_regs_of_memwb_none hr h hs.memwb).trans hs.regs, hmem, by simpa [hs.idex] using hexmem, hmemwb⟩

theorem State.AloneInMemWb.done_of_step {s s' t : State} {l : MemWb} (hs : s.AloneInMemWb s' l) (h : step s' = .next t) :
    writeBack s.regs (some l) = .ok t.regs ∧ t.mem = memoryEffect s.mem (some l.toExMem) := by
  have ha := step_around hs.running h
  have hw := ha.regs
  have hm := ha.mem
  rw [hs.regs, hs.memwb] at hw
  rw [hs.exmem, hs.mem] at hm
  exact ⟨hw, hm⟩

theorem stepsTo_succ_iff {n : Nat} {s t : State} :
    stepsTo (n + 1) s = some t ↔ ∃ s', step s = .next s' ∧ stepsTo n s' = some t := by
  rw [stepsTo]
  cases step s <;> simp

theorem stepsTo_three_iff {s t : State} :
    stepsTo 3 s = some t ↔ ∃ s₁ s₂, step s = .next s₁ ∧ step s₁ = .next s₂ ∧ step s₂ = .next t := by
  have hzero (u : State) : stepsTo 0 u = some t ↔ u = t := by rw [stepsTo, Option.some_inj]
  simp only [stepsTo_succ_iff, hzero, ← exists_and_left, exists_eq_right]

/-- After three cycles the instruction that was alone in ID/EX has made its memory access and written back. -/
theorem stepsTo_three_done {s t : State} {x : Executed} {e : ExMem} (hr : s.Running) (hf : s.ifid = none)
    (hp : s.exmem = none) (hl : s.memwb = none) (hx : s.executedNow = .ok x) (he : x.exmem = some e)
    (h : stepsTo 3 s = some t) :
    writeBack s.regs (some (memoryImage s.mem e)) = .ok t.regs ∧ t.mem = memoryEffect s.mem (some e) := by
  obtain ⟨s₁, s₂, h₁, h₂, h₃⟩ := stepsTo_three_iff.1 h
  exact ((aloneInExMem_of_step hr hf hp hl hx he h₁).aloneInMemWb_of_step h₂).done_of_step h₃

/-! ### The records behind it -/

/-- No record of the program raises an error in execute or in decode on its own account. -/
def ProgramRaisesNothing (prog : List PackedWord) : Prop :=
  ∀ w ∈ prog, (Record.ofWord w).op.supported = true ∧ (srcIdx (Record.ofWord w).rs1).toNat ≤ 31 ∧
    (srcIdx (Record.ofWord w).rs2).toNat ≤ 31

/-- IF/ID is empty or holds a record of the program. -/
def State.IfIdFromProgram (s : State) : Prop := ∀ f, s.ifid = some f → ∃ w ∈ s.prog, f.record = Record.ofWord w

/-- Fetch takes its record from the program, or leaves in IF/ID what was there. -/
theorem step_ifIdFromProgram {s t : State} (hr : s.Running) (h : step s = .next t) (hs : s.IfIdFromProgram) :
    t.IfIdFromProgram := by
  obtain ⟨regs, x, o, -, -, -, rfl⟩ := cycle_next (step_running hr ▸ h)
  intro f hf
  rw [completed_ifid, State.fetched] at hf
  obtain ⟨-, he⟩ | ⟨-, -, he⟩ | ⟨w, -, -, hw, he⟩ | ⟨-, -, -, he⟩ :=
    fetchStage_cases s.prog s.signals.stallFetch (s.front x) <;> rw [he] at hf
  · exact hs f (front_ifid_some hf).2
  · cases hf
  · cases hf
    exact ⟨w, List.mem_of_getElem? hw, rfl⟩
  · cases hf

/-- An instruction in EX/MEM has its result, unless it is a LOAD (R198). -/
def State.ExMemDone (s : State) : Prop :=
  ∀ p, s.exmem = some p → p.op.writesRF = true → p.op ≠ .load → p.aluResult.present = true

theorem sourceReady_of_le {s : State} (hp : s.ExMemDone) {r : RegIdx} (hr : r.toNat ≤ 31) : s.SourceReady r := by
  by_cases hw : ∃ p, s.exmem = some p ∧ p.writesReg r = true
  · obtain ⟨p, hpe, hpw⟩ := hw
    have hres := hp p hpe (ExMem.writesReg_iff.1 hpw).1
    exact .inr (.inr (.inl ⟨p, hpe, hpw, or_iff_not_imp_left.2 hres⟩))
  · exact .inr (.inr (.inr ⟨fun p hpe => Bool.eq_false_iff.2 fun hpw => hw ⟨p, hpe, hpw⟩, hr⟩))

theorem decodeReady_of_raisesNothing {s : State} (hclean : ProgramRaisesNothing s.prog) (hs : s.IfIdFromProgram)
    (hp : s.ExMemDone) : s.DecodeReady := by
  intro f hf
  obtain ⟨w, hw, hrec⟩ := hs f hf
  obtain ⟨-, h1, h2⟩ := hclean w hw
  exact .inr ⟨sourceReady_of_le hp (hrec ▸ h1), sourceReady_of_le hp (hrec ▸ h2)⟩

/-- A running state whose write-back and execute answer and whose IF/ID is ready takes a step. -/
theorem step_of_ready {s : State} {regs : RegFile} {x : Executed} (hr : s.Running)
    (hw : writeBack s.regs s.memwb = .ok regs) (hx : s.executedNow = .ok x) (hready : s.DecodeReady) :
    ∃ t, step s = .next t := by
  obtain ⟨o, ho⟩ := decoded_of_ready hx hready regs
  exact ⟨_, by rw [step_running hr, hx, cycle_of_ok hw ho]⟩

/-- The operation that decode leaves in ID/EX is that of the record in IF/ID (R191). -/
theorem step_idex_op {s t : State} {d : IdEx} (hr : s.Running) (h : step s = .next t) (hd : t.idex = some d) :
    ∃ f, s.ifid = some f ∧ d.op = f.record.op := by
  obtain ⟨regs, x, o, -, -, ho, rfl⟩ := cycle_next (step_running hr ▸ h)
  obtain rfl : o = some d := hd
  obtain ⟨-, hno⟩ | ⟨g, v1, v2, -, hg, -, -, hsome⟩ := decodeStage_cases ho
  · cases hno
  · cases hsome
    exact ⟨g, (front_ifid_some hg).2, rfl⟩

/-- Three cycles complete from an instruction alone in ID/EX whose operation and write-back answer, if the records fetched behind it
raise nothing of their own. -/
theorem stepsTo_three_of_raisesNothing {s : State} {x : Executed} {e : ExMem} {regs : RegFile} (hr : s.Running)
    (hf : s.ifid = none) (hp : s.exmem = none) (hl : s.memwb = none) (hx : s.executedNow = .ok x)
    (he : x.exmem = some e) (hw : writeBack s.regs (some (memoryImage s.mem e)) = .ok regs)
    (hclean : ProgramRaisesNothing s.prog) : ∃ t, stepsTo 3 s = some t := by
  have hready : s.DecodeReady := fun f hsome => by simp [hf] at hsome
  obtain ⟨s₁, h₁⟩ := step_of_ready hr (regs := s.regs) (by rw [hl]; rfl) hx hready
  have hs₁ := aloneInExMem_of_step hr hf hp hl hx he h₁
  have hf₁ : s₁.IfIdFromProgram := step_ifIdFromProgram hr h₁ fun f hsome => by simp [hf] at hsome
  have hdone₁ : s₁.ExMemDone := by
    intro p hpe
    obtain rfl : e = p := by simpa [hs₁.exmem] using hpe
    obtain ⟨d, -, -, -, -, hdone⟩ := executedNow_exmem hx he
    exact hdone
  obtain ⟨s₂, h₂⟩ := step_of_ready hs₁.running (regs := s₁.regs) (x := ⟨none, none⟩) (by rw [hs₁.memwb]; rfl)
    (by rw [State.executedNow, hs₁.idex]) (decodeReady_of_raisesNothing (hs₁.prog ▸ hclean) hf₁ hdone₁)
  have hs₂ := hs₁.aloneInMemWb_of_step h₂
  have hf₂ : s₂.IfIdFromProgram := step_ifIdFromProgram hs₁.running h₂ hf₁
  have hdone₂ : s₂.ExMemDone := fun p hpe => by simp [hs₂.exmem] at hpe
  obtain ⟨x₂, hx₂⟩ : ∃ x₂, s₂.executedNow = .ok x₂ := by
    refine executedNow_isOk fun d hd => ⟨?_, _, _, operands_of_exmem_none hd hs₂.exmem⟩
    obtain ⟨f, hsome, hop⟩ := step_idex_op hs₁.running h₂ hd
    obtain ⟨w, hwp, hrec⟩ := hf₁ f hsome
    obtain ⟨hsup, -⟩ := hclean w (hs₁.prog ▸ hwp)
    rwa [hop, hrec]
  obtain ⟨t, h₃⟩ := step_of_ready hs₂.running (regs := regs) (by rw [hs₂.regs, hs₂.memwb, hw]) hx₂
    (decodeReady_of_raisesNothing (hs₂.prog ▸ hclean) hf₂ hdone₂)
  exact ⟨t, stepsTo_three_iff.2 ⟨s₁, s₂, h₁, h₂, h₃⟩⟩

end Sys2Proof.Machine

namespace Sys2Proof.Proofs

open Sys2Proof.Machine

/-- Settles O14: the reference model makes of the instruction what the three cycles do, and raises where its write-back does. -/
theorem instructionAloneMatchesSequentialModel : Obligations.InstructionAloneMatchesSequentialModel := by
  intro s d hr hf hd hp hl hsup h1 h2
  obtain ⟨x, hop⟩ := operationOf_isOk (d.instr_op.symm ▸ hsup) ⟨d, d.rs1Val, d.rs2Val⟩
  have hx : s.executedNow = .ok x := (executedNow_eq hd (operands_of_exmem_none hd hp)).trans hop
  obtain ⟨e, he, -⟩ := operationOf_ok hop
  have hseq := exec_eq_commit (u := ⟨d.pc, s.regs, s.mem⟩) d.withInstr_instr rfl h1 h2 hop
  rw [he] at hseq
  have hdone {t} := stepsTo_three_done (t := t) hr hf hp hl hx he
  refine ⟨fun u hu => ?_, fun err herr => ?_⟩
  · obtain ⟨-, hregs, hmem⟩ := commit_ok_iff.1 (hseq ▸ hu)
    refine ⟨fun t ht => ?_, stepsTo_three_of_raisesNothing hr hf hp hl hx he hregs⟩
    obtain ⟨hregs', hmem'⟩ := hdone ht
    exact ⟨Except.ok.inj (hregs'.symm.trans hregs), hmem'.trans hmem.symm⟩
  · rw [Option.eq_none_iff_forall_ne_some]
    intro t ht
    have hraise := commit_error_iff.1 (hseq ▸ herr)
    cases (hdone ht).1.symm.trans hraise

end Sys2Proof.Proofs
end

