-- ==== Sys2Proof/Proofs/Refinement.lean ====
section
/-! PROOF. The pipeline refines the sequential reference model (70_reset_and_hazards.md R298): along the way (O45) and where a run
halts (O44). `State.Follows` says of every cycle boundary of a run which states of the reference model the registers, the memory and
the latches belong to, counted by its tally; it is kept by a cycle latch by latch, since what the cycle makes of one latch is what it
leaves in the next. -/

namespace Sys2Proof.Machine

/-! ### Rounds of the reference model -/

section rounds
variable {prog : List PackedWord} {k : Nat} {u₀ u₁ u : SeqState}

theorem seqRun_of_first (h : u₀.step prog = .ok u₁) : SeqState.run prog (k + 1) u₀ = SeqState.run prog k u₁ := by
  rw [SeqState.run, h]

theorem seqRun_succ_ok (h : SeqState.run prog (k + 1) u₀ = .ok u) :
    ∃ u₁, u₀.step prog = .ok u₁ ∧ SeqState.run prog k u₁ = .ok u := by
  cases hstep : u₀.step prog with
  | error e => simp [SeqState.run, hstep] at h
  | ok u₁ => exact ⟨u₁, rfl, seqRun_of_first hstep ▸ h⟩

/-- The last of `k + 1` rounds is a round from the state after `k`. -/
theorem seqRun_succ_of_ok (h : SeqState.run prog k u₀ = .ok u) : SeqState.run prog (k + 1) u₀ = u.step prog := by
  induction k generalizing u₀ with
  | zero =>
    cases h
    simp only [SeqState.run]
    cases u.step prog <;> rfl
  | succ k ih =>
    obtain ⟨u₁, hstep, hrest⟩ := seqRun_succ_ok h
    rw [seqRun_of_first hstep, ih hrest]

/-- A run that answers has answered after fewer rounds. -/
theorem seqRun_of_add {n : Nat} (h : SeqState.run prog (k + n) u₀ = .ok u) :
    ∃ u', SeqState.run prog k u₀ = .ok u' := by
  induction k generalizing u₀ with
  | zero => exact ⟨u₀, rfl⟩
  | succ k ih =>
    obtain ⟨u₁, hstep, hrest⟩ := seqRun_succ_ok (Nat.add_right_comm k 1 n ▸ h)
    rw [seqRun_of_first hstep]
    exact ih hrest

end rounds

/-! ### A register through the latches behind decode -/

@[simp] theorem memwbNext_map_toExMem (s : State) : s.memwbNext.map MemWb.toExMem = s.exmem := by
  cases h : s.exmem <;> simp [State.memwbNext, h]

/-- A write value that EX/MEM has already is the one the memory stage completes. -/
theorem memoryImage_writeValue_of_some (mem : Memory) {p : ExMem} {v : Word} (h : p.writeValue = some v) :
    (memoryImage mem p).writeValue = some v := by
  obtain ⟨-, hl, -⟩ := ExMem.writeValue_eq_some_iff.1 h
  rw [memoryImage_writeValue, if_neg hl, h]

/-- A register holds a value behind a latch if the latch writes that value to it, or leaves it and the register held it before. -/
theorem regRead_commit {u u' : SeqState} {m : Option MemWb} {next v : Word} {r : RegIdx} (h : u.commit m next = .ok u')
    (h0 : r ≠ 0#6) (hwrites : ∀ l, m = some l → l.writesReg r = true → l.writeValue = some v)
    (hleaves : (∀ l, m = some l → l.writesReg r = false) → regRead u.regs r = some v) : regRead u'.regs r = some v := by
  obtain ⟨-, hw, -⟩ := commit_ok_iff.1 h
  by_cases hm : ∃ l, m = some l ∧ l.writesReg r = true
  · obtain ⟨l, rfl, hl⟩ := hm
    obtain ⟨hop, rfl⟩ := ExMem.writesReg_iff.1 hl
    obtain ⟨v', hv', hread⟩ := regRead_writeBack_writer hw hop
    rw [hread, if_pos ⟨rfl, h0⟩, ← hv', hwrites l rfl hl]
  · have hno : ∀ l, m = some l → l.writesReg r = false := fun l hl => Bool.eq_false_iff.2 fun hw => hm ⟨l, hl, hw⟩
    rw [regRead_writeBack_ne hw fun l hl hop he => hm ⟨l, hl, ExMem.writesReg_iff.2 ⟨hop, he⟩⟩, hleaves hno]

/-- What decode resolves a source to (R192) is what the source holds in the reference model behind the two latches that the bypass
sees. -/
theorem sourceValue_eq_regRead {s t : State} {u₁ u₂ u₃ : SeqState} {n₂ n₃ v : Word} {r : RegIdx} (hv : s.SourceValue t r v)
    (h₁ : u₁.regs = t.regs) (h₂ : u₁.commit s.memwbNext n₂ = .ok u₂) (h₃ : u₂.commit t.memwbNext n₃ = .ok u₃) :
    regRead u₃.regs r = some v := by
  obtain ⟨hzero, hbypass⟩ := hv
  by_cases h0 : r = 0#6
  · rw [hzero h0, h0, regRead_zero]
  obtain ⟨hexecuted, hprevious⟩ := hbypass h0
  refine regRead_commit h₃ h0 (fun l hl hw => ?_) fun hno => ?_
  · obtain ⟨c, hc, rfl⟩ := Option.map_eq_some_iff.1 hl
    exact memoryImage_writeValue_of_some _ (hexecuted c hc hw)
  · obtain ⟨himage, hfile⟩ := hprevious fun c hc => hno _ (by rw [State.memwbNext, hc]; rfl)
    refine regRead_commit h₂ h0 (fun l hl hw => ?_) fun hno' => ?_
    · obtain ⟨p, hp, rfl⟩ := Option.map_eq_some_iff.1 hl
      exact himage p hp hw
    · rw [h₁]
      exact hfile fun p hp => hno' _ (by rw [State.memwbNext, hp]; rfl)

/-- What the multiplexer supplies for a source that has captured its value is that value. -/
theorem supplies_captured {s : State} {u u' : SeqState} {next v v0 : Word} {r : RegIdx}
    (h : s.Supplies v0 (fwdSrc s.exmem s.memwbNext r) v) (hu : u.commit s.memwbNext next = .ok u')
    (hr : regRead u'.regs r = some v0) : v = v0 := by
  obtain ⟨hsel, -⟩ | ⟨p, hp, h0, -, hrd, hsel⟩ | ⟨_, _, -, -, -, -, -, hsel, -⟩ := fwdSrc_cases s.exmem s.memwbNext r
  · rwa [hsel] at h
  · rw [hsel] at h
    obtain ⟨p', hp', hv⟩ := h
    obtain rfl : p = p' := by simpa [hp] using hp'
    have hval := memoryImage_writeValue_of_some s.mem (ExMem.writeValue_eq_some_iff.2 hv)
    have hnext : s.memwbNext = some (memoryImage s.mem p) := by rw [State.memwbNext, hp]; rfl
    have hread : regRead u'.regs r = some v := by
      refine regRead_commit hu h0 (fun l hl _ => ?_) fun hno => ?_
      · obtain rfl : memoryImage s.mem p = l := by simpa [hnext] using hl
        exact hval
      · cases (hno _ hnext).symm.trans (ExMem.writesReg_iff.2 ⟨hv.1, hrd⟩)
    simpa [hr, eq_comm] using hread
  · exact absurd hsel (fwdSrc_image s r)

/-- An instruction that has captured the values of its sources behind EX/MEM executes on them: the override changes nothing (R179). -/
theorem operands_captured {s : State} {d : IdEx} {a b next : Word} {u u' : SeqState} (hd : s.idex = some d)
    (hop : s.operands d = .ok (a, b)) (hu : u.commit s.memwbNext next = .ok u')
    (h1 : regRead u'.regs d.rs1 = some d.rs1Val) (h2 : regRead u'.regs d.rs2 = some d.rs2Val) :
    a = d.rs1Val ∧ b = d.rs2Val := by
  by_cases hb : d.op = .beq ∨ d.op = .bne
  · rw [operands_of_branch s rfl (d.instr_op.symm ▸ hb)] at hop
    cases hop
    exact ⟨rfl, rfl⟩
  · obtain ⟨hbeq, hbne⟩ := not_or.1 hb
    obtain ⟨ha, hb⟩ := (operands_ok_iff hbeq hbne a b).1 hop
    rw [signals_forwardA hd] at ha
    rw [signals_forwardB hd] at hb
    refine ⟨supplies_captured ha hu h1, ?_⟩
    split at hb
    · exact supplies_captured hb hu h2
    · exact hb

/-! ### The instruction in ID/EX -/

/-- ID/EX holds the instruction that the reference model executes next from `u`, with the values that its sources have in `u`. -/
structure IdEx.StandsAt (d : IdEx) (prog : List PackedWord) (u : SeqState) (i : Instr) : Prop where
  pc      : d.pc = u.pc
  carried : d.withInstr i = d
  next    : u.step prog = u.exec i
  src1    : i.src1 = d.rs1
  src2    : i.src2 = d.rs2
  rs1Val  : regRead u.regs d.rs1 = some d.rs1Val
  rs2Val  : regRead u.regs d.rs2 = some d.rs2Val

/-- The source indices of a well-shaped record's instruction (R84). -/
theorem Record.instr_src {r : Record} (h : r.wellShaped = true) :
    r.instr.src1 = srcIdx r.rs1 ∧ r.instr.src2 = srcIdx r.rs2 := by
  obtain ⟨op, ⟨p1, rd⟩, ⟨p2, rs1⟩, ⟨p3, rs2⟩, ⟨p4, imm⟩⟩ := r
  have hp := (Record.wellShaped_iff _).1 h
  cases op
  case tag14 | tag15 => cases p2 <;> cases p3 <;> exact ⟨rfl, rfl⟩
  all_goals
    obtain ⟨rfl, rfl, rfl, rfl⟩ := by simpa [Op.shape, Record.presence] using hp
    exact ⟨rfl, rfl⟩

/-- The records of an admitted program are well-shaped (R88). -/
theorem wellShaped_of_programDefect {prog : List PackedWord} (h : programDefect prog = none) {w : PackedWord}
    (hw : w ∈ prog) : (Record.ofWord w).wellShaped = true := by
  cases hdec : decodeWord w with
  | instr i => exact ((decodeWord_instr_iff w i).1 hdec).2.1
  | refused r =>
    obtain ⟨k, w', r', -, -, hd⟩ := programDefectFrom_of_refused 0 ⟨w, hw, r, hdec⟩
    rw [programDefect, hd] at h
    cases h

/-- A record that decode takes from the slot of the reference model stands in ID/EX as the instruction of that slot. -/
theorem standsAt_of_decoded {s t : State} {w : PackedWord} {u₁ u₂ u₃ : SeqState} {n₂ n₃ : Word} (hr : s.Running)
    (h : step s = .next t) (hred : s.redirects = false) (hlu : loadUse s.ifid s.idex = false)
    (hw : s.prog[u₃.pc.toNat]? = some w) (hf : s.ifid = some ⟨Record.ofWord w, u₃.pc⟩) (h₁ : u₁.regs = t.regs)
    (h₂ : u₁.commit s.memwbNext n₂ = .ok u₂) (h₃ : u₂.commit t.memwbNext n₃ = .ok u₃) :
    ∃ d, t.idex = some d ∧ d.StandsAt s.prog u₃ (Record.ofWord w).instr := by
  obtain ⟨-, hdecode⟩ := Proofs.decodeResolvesSources s t hr h
  obtain ⟨d, hd, hop, hrd, himm, hpc, hrs1, hrs2, hv1, hv2⟩ := hdecode hred hlu _ hf
  have hshape := wellShaped_of_programDefect hr.1 (List.mem_of_getElem? hw)
  obtain ⟨hsrc1, hsrc2⟩ := Record.instr_src hshape
  exact ⟨d, hd,
    { pc := hpc
      carried := withInstr_of_record hshape hop hrd himm hrs1 hrs2
      next := by rw [SeqState.step, hw]
      src1 := hsrc1.trans hrs1.symm
      src2 := hsrc2.trans hrs2.symm
      rs1Val := sourceValue_eq_regRead hv1 h₁ h₂ h₃
      rs2Val := sourceValue_eq_regRead hv2 h₁ h₂ h₃ }⟩

/-! ### The front end -/

/-- The front end has fetched at slot `pc`, or is about to fetch there for the first time. -/
def State.FrontAt (s : State) (pc : Word) : Prop :=
  s.FetchedAt s.prog pc ∨ (s.ifid = none ∧ s.pc = pc ∧ s.fetchExhausted = false)

/-- A front end that fetches no more is past the end of the program. -/
theorem State.FrontAt.past_of_exhausted {s : State} {pc : Word} (h : s.FrontAt pc) (hf : s.ifid = none)
    (hex : s.fetchExhausted = true) : s.prog[pc.toNat]? = none := by
  obtain ⟨hsome, -⟩ | ⟨-, -, hlive⟩ := h
  · cases hw : s.prog[pc.toNat]? with
    | none => rfl
    | some w =>
      obtain ⟨hf', -⟩ := hsome w hw
      simp [hf] at hf'
  · simp [hex] at hlive

/-- A cycle without a taken transfer that decodes nothing leaves the front end at its slot; any other one decodes the record of the
slot and moves on to the slot that follows. -/
theorem step_front_at {s t : State} {pc : Word} (hr : s.Running) (h : step s = .next t) (hred : s.redirects = false)
    (hfront : s.FrontAt pc) :
    (t.idex = none ∧ t.FetchedAt s.prog pc) ∨
      ∃ w, s.prog[pc.toNat]? = some w ∧ s.ifid = some ⟨Record.ofWord w, pc⟩ ∧ loadUse s.ifid s.idex = false ∧
        t.FetchedAt s.prog (pc + 1#64) := by
  obtain ⟨hstall, hdry, hfetch⟩ := (Proofs.fetchFollowsItsRule s t hr h).1 hred
  have hbubble := (Proofs.decodeResolvesSources s t hr h).1
  obtain hfetched | ⟨hf, hpc, hlive⟩ := hfront
  · cases hlu : loadUse s.ifid s.idex with
    | true =>
      obtain ⟨hf', hpc', hex', hd'⟩ := hstall hlu
      exact .inl ⟨hd', by rwa [State.FetchedAt, hf', hpc', hex']⟩
    | false =>
      cases hw : s.prog[pc.toNat]? with
      | none =>
        obtain ⟨hf, hpc, hex⟩ := hfetched.2 hw
        obtain ⟨hf', hpc', hex'⟩ := hdry hlu hex
        exact .inl ⟨hbubble (.inl hf), fun w hsome => by simp [hw] at hsome, fun _ => ⟨hf', hpc'.trans hpc, hex'⟩⟩
      | some w =>
        obtain ⟨hf, hpc, hex⟩ := hfetched.1 w hw
        exact .inr ⟨w, rfl, hf, rfl, hpc ▸ hfetch hlu hex⟩
  · exact .inl ⟨hbubble (.inl hf), hpc ▸ hfetch (by rw [hf, loadUse_none_left]) hlive⟩

/-- A cycle with a taken transfer leaves ID/EX empty and the front end at the target. -/
theorem step_redirected {s t : State} {x : Executed} (hr : s.Running) (h : step s = .next t) (hx : s.executedNow = .ok x)
    (ht : x.taken = true) (pc : Word) : t.idex = none ∧ t.FetchedAt s.prog (x.next pc) := by
  obtain ⟨regs, x', o, -, hx', ho, rfl⟩ := cycle_next (step_running hr ▸ h)
  obtain rfl : x = x' := by simpa [hx] using hx'
  cases htr : x.transfer with
  | none => simp [Executed.taken, htr] at ht
  | some tr =>
    obtain rfl := decoded_empty ho (.inr (.inl ht))
    rw [Executed.next_of_transfer htr]
    exact completed_redirectedTo hx htr (by simpa [Executed.taken, htr] using ht) regs

/-! ### The simulation -/

/-- The instruction in ID/EX, if there is one, is the one that the reference model executes next from `u`, and the front end is at the
slot that follows; with an empty ID/EX it is at the slot of `u`. -/
inductive State.AheadOf (s : State) (u : SeqState) : Prop
  | bubble (idex : s.idex = none) (front : s.FrontAt u.pc)
  | standing {d : IdEx} {i : Instr} (idex : s.idex = some d) (stands : d.StandsAt s.prog u i)
      (front : s.FrontAt (u.pc + 1#64))

/-- Where a cycle boundary of a run stands in the run of the reference model from `u₀`. A latch leads from the state before its
instruction to the one after it, or to the error that its write-back is going to raise; what is younger than such an error is not
spoken of. -/
structure State.Follows (s : State) (prog : List PackedWord) (u₀ : SeqState) (c : Tally) : Prop where
  program : s.prog = prog
  /-- The instruction in MEM/WB has passed the memory stage and is yet to write back. -/
  accessed : c.accessed = c.retired + s.memwb.isSome.toNat
  /-- The instruction in EX/MEM has executed and is yet to pass the memory stage. -/
  executed : c.executed = c.accessed + s.exmem.isSome.toNat
  regs : ∃ u, SeqState.run prog c.retired u₀ = .ok u ∧ u.regs = s.regs
  memwb : ∀ u, SeqState.run prog c.retired u₀ = .ok u →
    ∃ next, SeqState.run prog c.accessed u₀ = u.commit s.memwb next
  exmem : ∀ u, SeqState.run prog c.accessed u₀ = .ok u →
    u.mem = s.mem ∧ ∃ next, SeqState.run prog c.executed u₀ = u.commit s.memwbNext next
  front : ∀ u, SeqState.run prog c.executed u₀ = .ok u → s.AheadOf u

theorem fresh_follows (prog : List PackedWord) (rf : RegFile) (mem : Memory) :
    (State.fresh prog rf mem).Follows prog ⟨0#64, rf.supplied, mem⟩ Tally.zero where
  program := rfl
  accessed := rfl
  executed := rfl
  regs := ⟨_, rfl, rfl⟩
  memwb u h := ⟨u.pc, h⟩
  exmem u h := ⟨by cases h; rfl, u.pc, h⟩
  front u h := .bubble rfl (.inr ⟨rfl, by cases h; rfl, rfl⟩)

/-- A completed cycle leaves in front of execute the instruction at the slot that the reference model has reached behind EX/MEM, or a
bubble: that slot is the target of a taken transfer, or the front end's. -/
theorem aheadOf_of_step {s t : State} {x : Executed} {u₁ u₂ u₃ : SeqState} {n₂ n₃ pc : Word} (hr : s.Running)
    (h : step s = .next t) (hx : s.executedNow = .ok x) (hregs : u₁.regs = t.regs)
    (h₂ : u₁.commit s.memwbNext n₂ = .ok u₂) (h₃ : u₂.commit t.memwbNext n₃ = .ok u₃)
    (htaken : x.taken = true → n₃ = x.next pc) (hfront : x.taken = false → s.FrontAt n₃) : t.AheadOf u₃ := by
  have hprog : t.prog = s.prog := (step_around hr h).prog
  obtain ⟨rfl, -⟩ := commit_ok_iff.1 h₃
  cases ht : x.taken with
  | true =>
    obtain ⟨hd, hfetched⟩ := step_redirected hr h hx ht pc
    exact .bubble hd (.inl (by rwa [hprog, htaken ht]))
  | false =>
    have hred : s.redirects = false := (executedNow_taken hx).symm.trans ht
    obtain ⟨hd, hfetched⟩ | ⟨w, hw, hf, hlu, hfetched⟩ := step_front_at hr h hred (hfront ht)
    · exact .bubble hd (.inl (hprog ▸ hfetched))
    · obtain ⟨d, hd, hstands⟩ := standsAt_of_decoded hr h hred hlu hw hf hregs h₂ h₃
      exact .standing hd (hprog ▸ hstands) (.inl (hprog ▸ hfetched))

section follows
variable {s t : State} {prog : List PackedWord} {u₀ : SeqState} {c : Tally} (hs : s.Follows prog u₀ c)
include hs

/-- Where write-back answers, the reference model passes the instruction in MEM/WB with the registers of write-back and the memory of
the state. -/
theorem State.Follows.accessed_of_writeBack {regs : RegFile} (hw : writeBack s.regs s.memwb = .ok regs) :
    ∃ u, SeqState.run prog c.accessed u₀ = .ok u ∧ u.regs = regs ∧ u.mem = s.mem := by
  obtain ⟨u, hu, hregs⟩ := hs.regs
  obtain ⟨next, hnext⟩ := hs.memwb u hu
  rw [commit_of_writeBack (hregs.symm ▸ hw)] at hnext
  exact ⟨_, hnext, rfl, (hs.exmem _ hnext).1⟩

/-- Behind EX/MEM the reference model has the memory that the memory stage leaves. -/
theorem State.Follows.mem_of_executed {u₁ u₂ : SeqState} (h₁ : SeqState.run prog c.accessed u₀ = .ok u₁)
    (h₂ : SeqState.run prog c.executed u₀ = .ok u₂) :
    u₂.mem = s.memNext ∧ ∃ next, u₁.commit s.memwbNext next = .ok u₂ := by
  obtain ⟨hmem, next, hnext⟩ := hs.exmem u₁ h₁
  have hcommit := hnext.symm.trans h₂
  obtain ⟨-, -, hm⟩ := commit_ok_iff.1 hcommit
  exact ⟨by rw [hm, hmem, memwbNext_map_toExMem, State.memNext], next, hcommit⟩

/-- The round of the reference model behind EX/MEM is what execute answers, and a bubble makes none. It ends at the target of a taken
transfer, or at the slot of the front end. -/
theorem State.Follows.run_of_executedNow {x : Executed} (hx : s.executedNow = .ok x) {u₁ u₂ : SeqState}
    (h₁ : SeqState.run prog c.accessed u₀ = .ok u₁) (h₂ : SeqState.run prog c.executed u₀ = .ok u₂) :
    ∃ next, SeqState.run prog (c.executed + s.idex.isSome.toNat) u₀ = u₂.commit (x.exmem.map (memoryImage u₂.mem)) next ∧
      (x.taken = true → next = x.next u₂.pc) ∧ (x.taken = false → s.FrontAt next) := by
  obtain ⟨-, n₂, hcommit⟩ := hs.mem_of_executed h₁ h₂
  cases hs.front u₂ h₂ with
  | bubble hn hfront =>
    obtain ⟨-, rfl⟩ | ⟨d, _, _, hd, -⟩ := executedNow_ok hx
    · exact ⟨u₂.pc, by simpa [hn] using h₂, nofun, fun _ => hfront⟩
    · simp [hn] at hd
  | @standing d i hd hstands hfront =>
    obtain ⟨hn, -⟩ | ⟨d', a, b, hd', hop, hx'⟩ := executedNow_ok hx
    · simp [hd] at hn
    obtain rfl : d = d' := by simpa [hd] using hd'
    obtain ⟨rfl, rfl⟩ := operands_captured hd hop hcommit hstands.rs1Val hstands.rs2Val
    rw [← hstands.carried, operationOf_instr_withInstr, hstands.carried] at hx'
    refine ⟨x.next u₂.pc, ?_, fun _ => rfl, fun ht => ?_⟩
    · rw [hd, Option.isSome_some, Bool.toNat_true, seqRun_succ_of_ok h₂, ← hs.program, hstands.next]
      exact exec_eq_commit hstands.carried hstands.pc (hstands.src1 ▸ hstands.rs1Val) (hstands.src2 ▸ hstands.rs2Val) hx'
    · have hnext : x.next d.pc = d.pc + 1#64 := operationOf_next hx' ht
      rwa [← hstands.pc, hnext, hstands.pc]

/-- A completed cycle has passed the instruction in ID/EX on to EX/MEM, with the memory that its own access is going to see. -/
theorem State.Follows.run_of_step (hr : s.Running) (h : step s = .next t) {x : Executed} (hx : s.executedNow = .ok x)
    {u₁ u₂ : SeqState} (h₁ : SeqState.run prog c.accessed u₀ = .ok u₁) (h₂ : SeqState.run prog c.executed u₀ = .ok u₂) :
    u₂.mem = t.mem ∧ ∃ next, SeqState.run prog (c.executed + s.idex.isSome.toNat) u₀ = u₂.commit t.memwbNext next ∧
      (x.taken = true → next = x.next u₂.pc) ∧ (x.taken = false → s.FrontAt next) := by
  have hmem : u₂.mem = t.mem := (hs.mem_of_executed h₁ h₂).1.trans (step_around hr h).mem.symm
  refine ⟨hmem, ?_⟩
  rw [State.memwbNext, step_exmem hr hx h, ← hmem]
  exact hs.run_of_executedNow hx h₁ h₂

/-- A completed cycle passes every latch on. -/
theorem State.Follows.of_step (hr : s.Running) (h : step s = .next t) : t.Follows prog u₀ (c.after s) := by
  obtain ⟨regs, x, o, -, hx, -, -⟩ := cycle_next (step_running hr ▸ h)
  have ha := step_around hr h
  obtain ⟨hexmem, hmemwb⟩ := step_passes_latches hr h
  obtain ⟨u₁, h₁, hregs, -⟩ := hs.accessed_of_writeBack ha.regs
  have hretired : (c.after s).retired = c.accessed := hs.accessed.symm
  have haccessed : (c.after s).accessed = c.executed := hs.executed.symm
  have hexecuted : (c.after s).executed = c.executed + s.idex.isSome.toNat := rfl
  refine ⟨ha.prog.trans hs.program, ?_, ?_, ?_, ?_, ?_, ?_⟩ <;> simp only [hretired, haccessed, hexecuted]
  · rw [hs.executed, hmemwb]
  · rw [hexmem]
  · exact ⟨u₁, h₁, hregs⟩
  · intro u hu
    rw [(step_memory hr h).2]
    exact (hs.exmem u hu).2
  · intro u₂ h₂
    obtain ⟨hmem, next, hrun, -⟩ := hs.run_of_step hr h hx h₁ h₂
    exact ⟨hmem, next, hrun⟩
  · intro u₃ h₃
    obtain ⟨u₂, h₂⟩ := seqRun_of_add h₃
    obtain ⟨-, n₂, hcommit₂⟩ := hs.mem_of_executed h₁ h₂
    obtain ⟨-, n₃, hrun, htaken, hfront⟩ := hs.run_of_step hr h hx h₁ h₂
    exact aheadOf_of_step hr h hx hregs hcommit₂ (hrun.symm.trans h₃) htaken hfront

end follows

/-! ### Runs -/

/-- Every step keeps a run on its schedule and behind the reference model: a halted state stays, and otherwise one cycle completes. -/
theorem step_keeps_follows {prog : List PackedWord} {u₀ : SeqState} (s t : State) (c : Tally)
    (hs : s.OnSchedule c ∧ s.Follows prog u₀ c) (h : step s = .next t) :
    t.OnSchedule (c.after s) ∧ t.Follows prog u₀ (c.after s) := by
  obtain ⟨hsched, hfollows⟩ := hs
  refine ⟨step_onSchedule s t c hsched h, ?_⟩
  cases hh : s.halted with
  | true =>
    obtain ⟨hf, hd, hp, hl, -⟩ := hsched.halted_iff.1 hh
    rwa [step_of_halted h hh, Tally.after_of_empty hf hd hp hl]
  | false => exact hfollows.of_step ⟨(step_next h).1, hh⟩ h

theorem follows_of_tallyTo {prog : List PackedWord} {rf : RegFile} {mem : Memory} {n : Nat} {t : State} {c : Tally}
    (h : tallyTo n (State.fresh prog rf mem) Tally.zero = some (t, c)) :
    t.OnSchedule c ∧ t.Follows prog ⟨0#64, rf.supplied, mem⟩ c :=
  tallyTo_keeps step_keeps_follows h ⟨fresh_onSchedule prog rf mem, fresh_follows prog rf mem⟩

/-- The cycles of a run can be tallied. -/
theorem tallyTo_of_stepsTo {n : Nat} {s t : State} (h : stepsTo n s = some t) (c : Tally) :
    ∃ c', tallyTo n s c = some (t, c') := by
  induction n generalizing s c with
  | zero =>
    cases h
    exact ⟨c, rfl⟩
  | succ n ih =>
    obtain ⟨s', hstep, hrest⟩ := stepsTo_succ_iff.1 h
    rw [tallyTo, hstep]
    exact ih hrest _

/-- The write-back of a state that takes a step answers: it is the step's, or MEM/WB is empty. -/
theorem writeBack_of_step {s t : State} {c : Tally} (hs : s.OnSchedule c) (h : step s = .next t) :
    ∃ regs, writeBack s.regs s.memwb = .ok regs := by
  obtain ⟨-, ⟨hh, -⟩ | ⟨-, regs, -, -, hw, -⟩⟩ := step_next h
  · obtain ⟨-, -, -, hl, -⟩ := hs.halted_iff.1 hh
    exact ⟨s.regs, by rw [hl]; rfl⟩
  · exact ⟨regs, hw⟩

end Sys2Proof.Machine

namespace Sys2Proof.Proofs

open Sys2Proof.Machine

/-- Settles O45: `State.Follows` is kept by every step, and a write-back that answers passes the instruction in MEM/WB. -/
theorem runningStateIsAPrefixOfTheSequentialModel : Obligations.RunningStateIsAPrefixOfTheSequentialModel := by
  intro prog rf mem n t t' c _ hrun hstep
  obtain ⟨hsched, hfollows⟩ := follows_of_tallyTo hrun
  obtain ⟨u, hu, hregs⟩ := hfollows.regs
  obtain ⟨regs, hw⟩ := writeBack_of_step hsched hstep
  obtain ⟨v, hv, -, hmem⟩ := hfollows.accessed_of_writeBack hw
  exact ⟨u, v, hu, hv, hregs.symm, hmem.symm⟩

/-- Settles O44: the latches of a halted state are empty, so the reference model has passed every instruction with its registers and
memory, and the front end is past the end of the program at its slot. -/
theorem haltedRunMatchesSequentialModel : Obligations.HaltedRunMatchesSequentialModel := by
  intro prog rf mem n t _ hrun hh
  obtain ⟨c, htally⟩ := tallyTo_of_stepsTo hrun Tally.zero
  obtain ⟨hsched, hfollows⟩ := follows_of_tallyTo htally
  obtain ⟨hf, hd, hp, hl, hex⟩ := hsched.halted_iff.1 hh
  obtain ⟨u, hu, hregs, hmem⟩ := hfollows.accessed_of_writeBack (regs := t.regs) (by rw [hl]; rfl)
  have hexecuted : SeqState.run prog c.executed ⟨0#64, rf.supplied, mem⟩ = .ok u := by
    rwa [hfollows.executed, hp, Option.isSome_none, Bool.toNat_false, Nat.add_zero]
  refine ⟨c.executed, u, hexecuted, ?_, hregs.symm, hmem.symm⟩
  cases hfollows.front u hexecuted with
  | bubble _ hfront =>
    have hpast := hfront.past_of_exhausted hf hex
    rw [hfollows.program, List.getElem?_eq_none_iff] at hpast
    exact decide_eq_true hpast
  | standing hsome => simp [hd] at hsome

end Sys2Proof.Proofs
end
